-- ==== Sys2Proof/Word.lean ====
section
/-! DEFINITION. The word types of the engine: the byte, the 32-bit register word, and the 16-byte block
that the cipher, the keys, BLK, FD_CFLIST and FD_OPTS share (10_state.md rules R48 to R51). -/

namespace Sys2Proof

/-- A byte (00_scope.md rule R8). -/
abbrev Byte := BitVec 8

/-- A host-visible register: every register is 32 bits wide (10_state.md rule R31). -/
abbrev Word := BitVec 32

/-- A time value: an unsigned count of microseconds (42_channel_engine.md rule R272). -/
abbrev Time := BitVec 64

/-- Four bytes of a byte string, first byte first: one host word of a packed string (20_memory.md rule
R105), one column of the AES state (41_crypto.md rule R220), one word of the key schedule (R224). -/
structure Col where
  b0 : Byte
  b1 : Byte
  b2 : Byte
  b3 : Byte
deriving DecidableEq, Repr, Inhabited

/-- A 16-byte string: byte `4j + r` is byte `r` of column `j` (41_crypto.md rule R220). -/
structure Block where
  c0 : Col
  c1 : Col
  c2 : Col
  c3 : Col
deriving DecidableEq, Repr, Inhabited

/-- The four bytes 00. -/
def Col.zero : Col := ⟨0, 0, 0, 0⟩

/-- The sixteen bytes 00. -/
def Block.zero : Block := ⟨Col.zero, Col.zero, Col.zero, Col.zero⟩

/-- Bytewise exclusive-or of two columns (00_scope.md rule R8). -/
def Col.xor (a b : Col) : Col := ⟨a.b0 ^^^ b.b0, a.b1 ^^^ b.b1, a.b2 ^^^ b.b2, a.b3 ^^^ b.b3⟩

/-- Bytewise exclusive-or of two blocks (00_scope.md rule R8). -/
def Block.xor (a b : Block) : Block :=
  ⟨a.c0.xor b.c0, a.c1.xor b.c1, a.c2.xor b.c2, a.c3.xor b.c3⟩

end Sys2Proof
end

