-- ==== Sys2Proof/Syntax.lean ====
section
/-! DEFINITION. The syntax: the 23 commands (30_encoding.md rule R135), the register names (10_state.md
rule R31), the lines of a host program (R139) and the pseudo-instructions (R140). -/

namespace Sys2Proof

/-- A command, one constructor per row of the opcode table. A command that reads IDX or KSEL carries the
field; the bits a command ignores (30_encoding.md rule R132) are not part of it. -/
inductive Instr where
  | nop
  | encode
  | decode
  | phySize
  | isUpstream
  | aesEnc (ksel : BitVec 4)
  | aesDec (ksel : BitVec 4)
  | ctrXor (ksel : BitVec 4)
  | cmac (ksel : BitVec 4)
  | micData (ksel : BitVec 4)
  | ceInit
  | ceAdd (idx : BitVec 8)
  | ceRemove (idx : BitVec 8)
  | ceMask (idx : BitVec 8)
  | ceUnmask (idx : BitVec 8)
  | ceSetRatePower
  | ceWaitTime
  | ceTxSetting
  | ceRx1Setting
  | ceRx2Setting
  | ceRegisterTx
  | ceCapacity
  | timeOnAir
deriving DecidableEq, Repr

/-- A host-visible location (10_state.md rule R31). Families of registers carry their index: word `j` of
a packed string, word `k` of a buffer window, slot `i` of a table. -/
inductive Reg where
  | id
  | cfg
  | ctrl
  | status
  | cmd
  | result
  | arg (k : Fin 4)
  | res (k : Fin 4)
  | fdType
  | fdFlags
  | fdLen
  | fdDevAddr
  | fdFCnt
  | fdPort
  | fdAppEuiLo
  | fdAppEuiHi
  | fdDevEuiLo
  | fdDevEuiHi
  | fdDevNonce
  | fdAppNonce
  | fdNetId
  | fdJa
  | fdCfList (j : Fin 4)
  | fdOpts (j : Fin 4)
  | keyApp (j : Fin 4)
  | keyNwkS (j : Fin 4)
  | keyAppS (j : Fin 4)
  | blk (j : Fin 4)
  | wbuf (k : Nat)
  | pbuf (k : Nat)
  | ceRegion
  | ceSel
  | ceCount
  | ceRatePwr
  | ceRx1Off
  | ceRx2Freq
  | ceRx2Rate
  | chFreq (i : Nat)
  | chStat (i : Nat)
  | bandReadyLo (b : Nat)
  | bandReadyHi (b : Nat)
  | bandLast (b : Nat)
  | bandNum (b : Nat)
deriving DecidableEq, Repr

/-- What the host does next: a line of its program (30_encoding.md rule R139), or an event it drives.
An access names a byte offset in the block's window and a width in bytes (20_memory.md rules R100, R102). -/
inductive HostLine where
  /-- `MemWrite` of a value (43_system.md rule R341). -/
  | write (offset : BitVec 12) (width : Nat) (value : Word)
  /-- `MemRead` (43_system.md rule R342). -/
  | read (offset : BitVec 12) (width : Nat)
  /-- `POLL`: read again until the masked word equals the value (30_encoding.md rule R139). -/
  | poll (offset : BitVec 12) (mask value : Word)
  /-- An access at an address outside the window: "not an access to this block" (rule R341). -/
  | elsewhere
  /-- The platform's reset input or a power cycle (70_reset_and_hazards.md rule R400). -/
  | hardReset
deriving DecidableEq, Repr

/-- The pseudo-instructions of 30_encoding.md rule R140. -/
inductive Pseudo where
  | wait
  | keyApp (k : Block)
  | keyNwkS (k : Block)
  | keyAppS (k : Block)
  | blkw (k : Block)
  | bufwWbuf (o : Nat) (bytes : List Byte)
  | bufwPbuf (o : Nat) (bytes : List Byte)
  | nop
  | encode (m : Word)
  | decode (n : Word)
  | phySize (d o : Word)
  | isUpstream (t : Word)
  | aesEnc (s : BitVec 4)
  | aesDec (s : BitVec 4)
  | ctrXor (s : BitVec 4) (off len : Byte) (dir : Bool) (addr fcnt : Word)
  | cmac (s : BitVec 4) (off len : Byte)
  | micData (s : BitVec 4) (off len : Byte) (dir : Bool) (addr fcnt : Word)
  | ceInit (r : Word)
  | ceAdd (i : Byte) (f : Word)
  | ceRemove (i : Byte)
  | ceMask (i : Byte)
  | ceUnmask (i : Byte)
  | ceSetRatePower (r p : Word)
  | ceWaitTime (t : Time)
  | ceTxSetting
  | ceRx1Setting
  | ceRx2Setting
  | ceRegisterTx (t : Time) (l : Word)
  | ceCapacity
  | timeOnAir (sf bw : Byte) (l : Word)
deriving DecidableEq, Repr

end Sys2Proof
end

