-- ==== Sys2Proof/WellFormed.lean ====
section
/-! DEFINITION. Which terms of the syntax stand for something the spec lets a host write. -/

namespace Sys2Proof

/-- A key select names one of the three keys; 3 to 15 are illegal (30_encoding.md rules R132 and R136). -/
def kselOk (ksel : BitVec 4) : Bool := decide (ksel.toNat < 3)

/-- A command is well formed when its key select, if it reads one, names a key. Every channel index is
well formed: an index past P_NCH is a legal operand its command answers for (rule R132). -/
def Instr.wf : Instr → Bool
  | .aesEnc ksel => kselOk ksel
  | .aesDec ksel => kselOk ksel
  | .ctrXor ksel => kselOk ksel
  | .cmac ksel => kselOk ksel
  | .micData ksel => kselOk ksel
  | .nop => true
  | .encode => true
  | .decode => true
  | .phySize => true
  | .isUpstream => true
  | .ceInit => true
  | .ceAdd _ => true
  | .ceRemove _ => true
  | .ceMask _ => true
  | .ceUnmask _ => true
  | .ceSetRatePower => true
  | .ceWaitTime => true
  | .ceTxSetting => true
  | .ceRx1Setting => true
  | .ceRx2Setting => true
  | .ceRegisterTx => true
  | .ceCapacity => true
  | .timeOnAir => true

/-- An access the bus carries: four bytes wide and aligned (20_memory.md rules R100 and R101). -/
def accessOk (offset : BitVec 12) (width : Nat) : Bool :=
  decide (width = 4) && decide (offset.toNat % 4 = 0)

/-- A host line is well formed when no access of it is a BusError (rule R103). -/
def HostLine.wf : HostLine → Bool
  | .write offset width _ => accessOk offset width
  | .read offset width => accessOk offset width
  | .poll offset _ _ => accessOk offset 4
  | .elsewhere => true
  | .hardReset => true

/-- BUFW takes an offset that is a multiple of 4 and stays in the 256-byte buffer (30_encoding.md R140). -/
def bufwOk (o : Nat) (bytes : List Byte) : Bool :=
  decide (o % 4 = 0) && decide (o + bytes.length ≤ 256)

/-- A pseudo-instruction is well formed when its expansion is written as rule R140 allows. -/
def Pseudo.wf : Pseudo → Bool
  | .bufwWbuf o bytes => bufwOk o bytes
  | .bufwPbuf o bytes => bufwOk o bytes
  | _ => true

end Sys2Proof
end

