-- ==== Sys2Proof/Decode.lean ====
section
/-! DEFINITION. The command-word decoder and, after it, the encoder (30_encoding.md rules R130 to R138). -/

namespace Sys2Proof

/-- Why a command word is not a command (rule R136, causes (a), (b) and (c)). -/
inductive Reject where
  /-- (a) CMD[31:20] is not 0. -/
  | reservedBits
  /-- (b) OP is not in the table of rule R135. -/
  | unknownOpcode
  /-- (c) OP is one of 0x20 to 0x24 and KSEL is 3 or more. -/
  | illegalKeySelect
deriving DecidableEq, Repr

/-- What the decoder answers: a command, or the reason the word is illegal. -/
inductive Decoded where
  | command (i : Instr)
  | illegal (r : Reject)
deriving DecidableEq, Repr

/-- OP = CMD[7:0] (rule R130). -/
def opField (w : Word) : BitVec 8 := w.extractLsb' 0 8

/-- IDX = CMD[15:8] (rule R130). -/
def idxField (w : Word) : BitVec 8 := w.extractLsb' 8 8

/-- KSEL = CMD[19:16] (rule R130). -/
def kselField (w : Word) : BitVec 4 := w.extractLsb' 16 4

/-- RSV = CMD[31:20] (rule R130). -/
def rsvField (w : Word) : BitVec 12 := w.extractLsb' 20 12

/-- The opcode map of rule R135, with the operand fields each opcode uses. -/
def decodeOp (op idx : BitVec 8) (ksel : BitVec 4) : Option Instr :=
  match op.toNat with
  | 0x00 => some .nop
  | 0x10 => some .encode
  | 0x11 => some .decode
  | 0x12 => some .phySize
  | 0x13 => some .isUpstream
  | 0x20 => some (.aesEnc ksel)
  | 0x21 => some (.aesDec ksel)
  | 0x22 => some (.ctrXor ksel)
  | 0x23 => some (.cmac ksel)
  | 0x24 => some (.micData ksel)
  | 0x30 => some .ceInit
  | 0x31 => some (.ceAdd idx)
  | 0x32 => some (.ceRemove idx)
  | 0x33 => some (.ceMask idx)
  | 0x34 => some (.ceUnmask idx)
  | 0x35 => some .ceSetRatePower
  | 0x36 => some .ceWaitTime
  | 0x37 => some .ceTxSetting
  | 0x38 => some .ceRx1Setting
  | 0x39 => some .ceRx2Setting
  | 0x3A => some .ceRegisterTx
  | 0x3B => some .ceCapacity
  | 0x3C => some .timeOnAir
  | _ => none

/-- The decoder, total on every command word: the checks of rule R136 in their order. -/
def decode (w : Word) : Decoded :=
  if rsvField w = 0 then
    match decodeOp (opField w) (idxField w) (kselField w) with
    | none => .illegal .unknownOpcode
    | some i => if i.wf then .command i else .illegal .illegalKeySelect
  else .illegal .reservedBits

/-- The decoder on an opcode-table word: a command is one 32-bit word (rule R131), and the bits above
`nbits` are 0. -/
def decodeTableWord (nbits w : Nat) : Option Instr :=
  match decode (BitVec.ofNat 32 (w % 2 ^ nbits)) with
  | .command i => some i
  | .illegal _ => none

/-- The opcode of each command (rule R135). -/
def Instr.opcode : Instr → BitVec 8
  | .nop => 0x00
  | .encode => 0x10
  | .decode => 0x11
  | .phySize => 0x12
  | .isUpstream => 0x13
  | .aesEnc _ => 0x20
  | .aesDec _ => 0x21
  | .ctrXor _ => 0x22
  | .cmac _ => 0x23
  | .micData _ => 0x24
  | .ceInit => 0x30
  | .ceAdd _ => 0x31
  | .ceRemove _ => 0x32
  | .ceMask _ => 0x33
  | .ceUnmask _ => 0x34
  | .ceSetRatePower => 0x35
  | .ceWaitTime => 0x36
  | .ceTxSetting => 0x37
  | .ceRx1Setting => 0x38
  | .ceRx2Setting => 0x39
  | .ceRegisterTx => 0x3A
  | .ceCapacity => 0x3B
  | .timeOnAir => 0x3C

/-- The IDX field a command is written with: its index where it reads one, else 0. -/
def Instr.idx : Instr → BitVec 8
  | .ceAdd idx => idx
  | .ceRemove idx => idx
  | .ceMask idx => idx
  | .ceUnmask idx => idx
  | _ => 0

/-- The KSEL field a command is written with: its key select where it reads one, else 0. -/
def Instr.ksel : Instr → BitVec 4
  | .aesEnc ksel => ksel
  | .aesDec ksel => ksel
  | .ctrXor ksel => ksel
  | .cmac ksel => ksel
  | .micData ksel => ksel
  | _ => 0

/-- The command word of a command: RSV, KSEL, IDX and OP from the top bit down (rule R130). -/
def encode (i : Instr) : Word := (0 : BitVec 12) ++ i.ksel ++ i.idx ++ i.opcode

end Sys2Proof
end

