-- ==== Sys2Proof/Config.lean ====
section
/-! DEFINITION. What one instance of the engine fixes: the form of the region port (42_channel_engine.md
rule R270), the open parameters (00_scope.md rule R7, 92_eei_decisions.md) and the free values. -/

namespace Sys2Proof

/-- A closed interval of naturals, `lo` to `hi`. -/
structure Span where
  lo : Nat
  hi : Nat
deriving DecidableEq, Repr, Inhabited

/-- One row of a region table: the arguments it answers for, one span an argument, and its answer. -/
structure RegionRow (α : Type) where
  spans  : List Span
  answer : α
deriving DecidableEq, Repr, Inhabited

/-- A total function of the region port written as plain data: the first row whose spans hold all the
arguments answers, and `otherwise` answers when no row does (log entry 6). -/
structure RegionTable (α : Type) where
  rows      : List (RegionRow α)
  otherwise : α
deriving DecidableEq, Repr, Inhabited

/-- The codes of a data rate: a spreading-factor code and a bandwidth code (rule R271). -/
structure RateCodes where
  sf : Nat
  bw : Nat
deriving DecidableEq, Repr, Inhabited

/-- The answer of `Region.validate`: accepted or not, and the sub-band index (rule R270). -/
structure Validation where
  accepted : Bool
  subBand  : Nat
deriving DecidableEq, Repr, Inhabited

/-- The answer of `Region.defaultSettings` (rule R270). -/
structure DefaultSettings where
  rx2Freq     : Word
  rx2Rate     : Byte
  initTxPower : Byte
  initTxRate  : Byte
deriving DecidableEq, Repr, Inhabited

/-- The default channels `Region.defaultChannels` lists: (index, frequency) pairs in callback order. -/
abbrev ChannelList := List (Nat × Word)

/-- REGION: the six functions of the region port (42_channel_engine.md rule R270), fixed for the life of
an instance (70_reset_and_hazards.md rule R410). -/
structure RegionPort where
  defaultChannels : RegionTable ChannelList
  defaultSettings : RegionTable DefaultSettings
  validate        : RegionTable Validation
  rateParams      : RegionTable (Option RateCodes)
  offTime         : RegionTable Word
  rx1Rate         : RegionTable Byte
deriving DecidableEq, Repr, Inhabited

/-- P_NCH of the instance that `State.reset` describes: the spec's default (00_scope.md rule R7; log entry
7). The machine itself reads the capacity from the channel table, so it runs with any. -/
def Config.pNch : Nat := 16

/-- P_NBAND of the instance that `State.reset` describes: the spec's default (rule R7; log entry 7). -/
def Config.pNband : Nat := 6

/-- The REGION of the instance that `State.reset` describes: an open parameter of the spec
(92_eei_decisions.md D22), so a value nothing is known of (log entry 6). -/
opaque Config.regionPort : RegionPort

/-- The unspecified contents of WBUF and PBUF after a hardware reset (70_reset_and_hazards.md rules R400
and R414): the byte at a window offset after the given number of hardware resets (log entry 8). -/
opaque Config.powerOnByte : Nat → Nat → Byte

end Sys2Proof
end

