-- ==== Sys2Proof/Machine/State.lean ====
section
/-! DEFINITION. The state of the engine and of its host as plain data (10_state.md, 43_system.md), the
faults and refusals, and the state after a hardware reset (70_reset_and_hazards.md rule R402). -/

namespace Sys2Proof.Machine

open Sys2Proof

/-- The result codes (60_exceptions.md rule R360); no other value is ever in RESULT. -/
inductive ResultCode where
  | ok
  | fail
  | bad
  | mic
  | illegal
deriving DecidableEq, Repr

/-- Four numbered registers: ARG0 to ARG3 (10_state.md rule R34), RES0 to RES3 (rule R35). -/
structure Quad where
  r0 : Word
  r1 : Word
  r2 : Word
  r3 : Word
deriving DecidableEq, Repr

/-- FD_FLAGS (10_state.md rule R41). -/
structure FrameFlags where
  ack         : Bool
  adr         : Bool
  adrAckReq   : Bool
  pending     : Bool
  portPresent : Bool
deriving DecidableEq, Repr

/-- FD_LEN, lowest byte first (10_state.md rule R42). -/
structure FrameLen where
  optsLen : Byte
  dataLen : Byte
  dataOff : Byte
  optsOff : Byte
deriving DecidableEq, Repr

/-- FD_JA (10_state.md rule R47). -/
structure JoinFields where
  rx1DrOffset   : BitVec 3
  rx2Dr         : BitVec 4
  rxDelay       : BitVec 4
  cfListPresent : Bool
deriving DecidableEq, Repr

/-- The frame descriptor (10_state.md rules R40 to R49): each register at the width of its defined bits,
so that a reserved bit reads 0 because there is nothing to hold it (rule R64). -/
structure FrameDesc where
  type     : BitVec 3
  flags    : FrameFlags
  len      : FrameLen
  devAddr  : Word
  fCnt     : Word
  port     : Byte
  appEuiLo : Word
  appEuiHi : Word
  devEuiLo : Word
  devEuiHi : Word
  devNonce : BitVec 16
  appNonce : BitVec 24
  netId    : BitVec 24
  ja       : JoinFields
  cfList   : Block
  opts     : Block
deriving DecidableEq, Repr

/-- The three key registers (10_state.md rule R50). -/
structure Keys where
  app  : Block
  nwkS : Block
  appS : Block
deriving DecidableEq, Repr

/-- The memory of the block: WBUF and PBUF, keyed by byte offset in the window (20_memory.md rule R104).
`cells` lists the bytes written since the last hardware reset, offsets rising; a byte not listed has its
unspecified power-on value for this count of hardware resets (70_reset_and_hazards.md R400; log entry 8). -/
structure Memory where
  cells  : List Host.Cell
  resets : Nat
deriving DecidableEq, Repr

/-- A channel slot (10_state.md rule R54); frequency 0 means absent. -/
structure Channel where
  freq   : Word
  band   : Byte
  masked : Bool
deriving DecidableEq, Repr

/-- A band slot (10_state.md rule R55); `last` is none for the manual's -1. -/
structure Band where
  ready : Time
  last  : Option Nat
  num   : Byte
deriving DecidableEq, Repr

/-- A selection (nextBand, nextChannel) (10_state.md rule R56). -/
structure Selection where
  band : Nat
  chan : Nat
deriving DecidableEq, Repr

/-- The channel-engine state (10_state.md rules R54 to R60) and the sticky IFAULT flag its internal
consistency fault sets (rule R37, 42_channel_engine.md rule R279). P_NCH and P_NBAND are the lengths of
the two tables. -/
structure ChanEngine where
  region    : Word
  chans     : List Channel
  bands     : List Band
  sel       : Option Selection
  total     : Byte
  rate      : Byte
  power     : Byte
  rx1Offset : Byte
  rx2Freq   : Word
  rx2Rate   : Byte
  ifault    : Bool
deriving DecidableEq, Repr

/-- Who takes a step (10_state.md rule R30). -/
inductive Agent where
  | host
  | engine
deriving DecidableEq, Repr

/-- The host agent: the rest of its program (30_encoding.md rule R139), the words its RD lines returned,
newest first (log entry 3), and whose turn it is at each step while a command is pending (43_system.md
rule R344 fixes no order; log entry 1). -/
structure HostAgent where
  program  : List HostLine
  received : List Word
  turns    : List Agent
deriving DecidableEq, Repr

end Sys2Proof.Machine

namespace Sys2Proof.Machine

open Sys2Proof

/-- The whole machine. -/
structure State where
  /-- REGION, a parameter of the instance (00_scope.md rule R7). -/
  regionPort : RegionPort
  /-- CTRL.IE (10_state.md rule R36). -/
  ie : Bool
  /-- STATUS.BUSY (rule R37). -/
  busy : Bool
  /-- STATUS.DONE (rule R37). -/
  done : Bool
  /-- STATUS.ERR_BUSY (rule R37). -/
  errBusy : Bool
  /-- CMD (rule R38). -/
  cmd : Word
  /-- RESULT (rule R39). -/
  result : ResultCode
  /-- ARG0 to ARG3 (rule R34). -/
  args : Quad
  /-- RES0 to RES3 (rule R35). -/
  ress : Quad
  /-- The frame descriptor (rules R40 to R49). -/
  fd : FrameDesc
  /-- KEY_APP, KEY_NWKS, KEY_APPS (rule R50). -/
  keys : Keys
  /-- BLK (rule R51). -/
  blk : Block
  /-- WBUF and PBUF (rules R52 and R53). -/
  mem : Memory
  /-- The channel engine (rules R54 to R60) with STATUS.IFAULT. -/
  ce : ChanEngine
  /-- The host agent (rule R30). -/
  host : HostAgent
deriving DecidableEq, Repr

/-- Why the machine stops with a fault. -/
inductive Fault where
  /-- A host access that is not four bytes wide or not aligned (20_memory.md rules R100, R101 and R103,
  60_exceptions.md rule R367). Raised by the host's access steps, never by a command. Safe: the spec says
  the access never completes and the run is not final. -/
  | busError (offset : BitVec 12) (width : Nat)
deriving DecidableEq, Repr

/-- Why a command has no meaning. -/
inductive Refusal where
  /-- An instruction the model gives no meaning yet. Raised by an arm of `exec` only; safe. -/
  | notModelled (mnemonic : String)
deriving DecidableEq, Repr

/-- Four registers at 0. -/
def Quad.zero : Quad := ⟨0, 0, 0, 0⟩

/-- The frame descriptor at reset: every register 0 (10_state.md rule R31). -/
def FrameDesc.zero : FrameDesc where
  type := 0
  flags := ⟨false, false, false, false, false⟩
  len := ⟨0, 0, 0, 0⟩
  devAddr := 0
  fCnt := 0
  port := 0
  appEuiLo := 0
  appEuiHi := 0
  devEuiLo := 0
  devEuiHi := 0
  devNonce := 0
  appNonce := 0
  netId := 0
  ja := ⟨0, 0, 0, false⟩
  cfList := Block.zero
  opts := Block.zero

/-- The three keys at 0 (70_reset_and_hazards.md rule R402). -/
def Keys.zero : Keys := ⟨Block.zero, Block.zero, Block.zero⟩

/-- A channel slot at reset (rule R402). -/
def Channel.empty : Channel := ⟨0, 0, false⟩

/-- A band slot at reset (rule R402). -/
def Band.empty : Band := ⟨0, none, 0⟩

/-- The channel engine at reset: `nch` and `nband` empty slots, no selection, every register 0, IFAULT
clear (rule R402). -/
def ChanEngine.empty (nch nband : Nat) : ChanEngine where
  region := 0
  chans := List.replicate nch Channel.empty
  bands := List.replicate nband Band.empty
  sel := none
  total := 0
  rate := 0
  power := 0
  rx1Offset := 0
  rx2Freq := 0
  rx2Rate := 0
  ifault := false

/-- The block after a reset, for an instance with the given REGION, P_NCH and P_NBAND, with the given
buffers and the given host (rule R402). A hardware reset and a soft reset differ in the buffers only. -/
def State.init (regionPort : RegionPort) (nch nband : Nat) (mem : Memory) (host : HostAgent) : State where
  regionPort := regionPort
  ie := false
  busy := false
  done := false
  errBusy := false
  cmd := 0
  result := .ok
  args := Quad.zero
  ress := Quad.zero
  fd := FrameDesc.zero
  keys := Keys.zero
  blk := Block.zero
  mem := mem
  ce := ChanEngine.empty nch nband
  host := host

/-- The buffers after the first hardware reset: nothing written. -/
def Memory.powerOn : Memory := ⟨[], 0⟩

/-- A host that has done nothing and has nothing to do (log entry 2). -/
def HostAgent.idle : HostAgent := ⟨[], [], []⟩

/-- The machine right after a hardware reset (rules R400 and R402). -/
def State.reset : State :=
  State.init Config.regionPort Config.pNch Config.pNband Memory.powerOn HostAgent.idle

end Sys2Proof.Machine
end

