-- ==== Sys2Proof/Machine/Ops.lean ====
section
/-! DEFINITION. The named operations the meanings share: byte strings and their packing into words, the
buffers, the registers a command writes, ending a command, clearing the keys, and the two resets. The
engine has no traps (60_exceptions.md rule R373): `State.finish` is its form of raising (00_scope.md rule
R9), and no operation enters or leaves an exception. -/

namespace Sys2Proof

/-- `le_1` to `le_4`, `le_8` (00_scope.md rule R8): byte `k` of `le v n` is bits 8k+7 to 8k of `v`. -/
def le {w : Nat} (v : BitVec w) : Nat → List Byte
  | 0 => []
  | n + 1 => v.setWidth 8 :: le (v >>> 8) n

/-- `uint_le` (rule R8): the unsigned integer whose little-endian byte string is the list. -/
def uintLe : List Byte → Nat
  | [] => 0
  | b :: bs => b.toNat + 256 * uintLe bs

/-- The register word whose little-endian byte string is the list. -/
def wordLe (bs : List Byte) : Word := BitVec.ofNat 32 (uintLe bs)

/-- Bytewise exclusive-or of two byte strings, as long as the shorter one (rule R8). -/
def xorBytes (a b : List Byte) : List Byte := List.zipWith (· ^^^ ·) a b

/-- A column as a byte string. -/
def Col.bytes (c : Col) : List Byte := [c.b0, c.b1, c.b2, c.b3]

/-- A block as a byte string. -/
def Block.bytes (b : Block) : List Byte := b.c0.bytes ++ b.c1.bytes ++ b.c2.bytes ++ b.c3.bytes

/-- The column of the four bytes from index `i`; a byte past the end is 00. -/
def Col.ofBytes (bs : List Byte) (i : Nat) : Col :=
  ⟨bs.getD i 0, bs.getD (i + 1) 0, bs.getD (i + 2) 0, bs.getD (i + 3) 0⟩

/-- The block of the first sixteen bytes; a byte past the end is 00. -/
def Block.ofBytes (bs : List Byte) : Block :=
  ⟨Col.ofBytes bs 0, Col.ofBytes bs 4, Col.ofBytes bs 8, Col.ofBytes bs 12⟩

/-- The block with its first bytes replaced by a string (40_frame_codec.md rule R171, OPTS). -/
def Block.overwrite (b : Block) (bs : List Byte) : Block := Block.ofBytes (bs ++ b.bytes.drop bs.length)

/-- The host word of four packed bytes (20_memory.md rule R105): byte 0 in bits 7:0. -/
def Col.toWord (c : Col) : Word := c.b3 ++ c.b2 ++ c.b1 ++ c.b0

/-- The four bytes a host word packs (rule R105). -/
def Col.ofWord (w : Word) : Col :=
  ⟨w.extractLsb' 0 8, w.extractLsb' 8 8, w.extractLsb' 16 8, w.extractLsb' 24 8⟩

/-- Word `j` of a packed 16-byte string (rule R105). -/
def Block.word (b : Block) (j : Fin 4) : Word :=
  match j with
  | 0 => b.c0.toWord
  | 1 => b.c1.toWord
  | 2 => b.c2.toWord
  | 3 => b.c3.toWord

/-- A packed 16-byte string with its word `j` written (rule R105). -/
def Block.setWord (b : Block) (j : Fin 4) (w : Word) : Block :=
  match j with
  | 0 => { b with c0 := Col.ofWord w }
  | 1 => { b with c1 := Col.ofWord w }
  | 2 => { b with c2 := Col.ofWord w }
  | 3 => { b with c3 := Col.ofWord w }

end Sys2Proof

namespace Sys2Proof.Machine

open Sys2Proof

/-- The byte listed for an offset, if one is. -/
def cellAt : List Host.Cell → Nat → Option Byte
  | [], _ => none
  | (a, v) :: rest, o => if a = o then some v else cellAt rest o

/-- The list with a byte put at an offset, offsets rising. -/
def putCell : List Host.Cell → Nat → Byte → List Host.Cell
  | [], o, v => [(o, v)]
  | (a, w) :: rest, o, v =>
    if o < a then (o, v) :: (a, w) :: rest
    else if o = a then (o, v) :: rest
    else (a, w) :: putCell rest o v

/-- Offsets strictly rising from a bound on: the canonical form of the list. -/
def rising : Nat → List Host.Cell → Bool
  | _, [] => true
  | low, (a, _) :: rest => decide (low ≤ a) && rising (a + 1) rest

/-- The first offset of WBUF and PBUF and the first offset past them (20_memory.md rule R104). -/
def wbufBase : Nat := 0x100
/-- The first offset of PBUF (rule R104). -/
def pbufBase : Nat := 0x200
/-- The first offset past PBUF (rule R104). -/
def bufEnd : Nat := 0x300

/-- The canonical form of the memory: offsets strictly rising, each inside WBUF or PBUF. An unlisted byte
reads as no listed value (it was never written), so no entry equals what an unlisted offset reads as. -/
def Memory.wf (m : Memory) : Bool :=
  rising wbufBase m.cells && m.cells.all (fun c => decide (c.1 < bufEnd))

/-- The byte at an offset: what was last written there, else its unspecified power-on value
(70_reset_and_hazards.md rule R414; log entry 8). -/
def Memory.read (m : Memory) (o : Nat) : Byte :=
  match cellAt m.cells o with
  | some v => v
  | none => Config.powerOnByte m.resets o

/-- The memory with a byte written at an offset; an offset outside WBUF and PBUF holds no byte. -/
def Memory.write (m : Memory) (o : Nat) (v : Byte) : Memory :=
  if wbufBase ≤ o ∧ o < bufEnd then { m with cells := putCell m.cells o v } else m

/-- `n` bytes from an offset on. -/
def Memory.readBytes (m : Memory) (o : Nat) : Nat → List Byte
  | 0 => []
  | n + 1 => m.read o :: m.readBytes (o + 1) n

/-- The memory with a byte string written from an offset on. -/
def Memory.writeBytes (m : Memory) (o : Nat) : List Byte → Memory
  | [] => m
  | b :: bs => (m.write o b).writeBytes (o + 1) bs

/-- The word of four packed bytes from an offset on (20_memory.md rule R105). -/
def Memory.readWord (m : Memory) (o : Nat) : Word :=
  (Col.mk (m.read o) (m.read (o + 1)) (m.read (o + 2)) (m.read (o + 3))).toWord

/-- The memory with a word's four bytes written from an offset on (rule R105). -/
def Memory.writeWord (m : Memory) (o : Nat) (w : Word) : Memory := m.writeBytes o (Col.ofWord w).bytes

/-- Everything unspecified again: the buffers after one more hardware reset (rule R400). -/
def Memory.powerCycle (m : Memory) : Memory := ⟨[], m.resets + 1⟩

/-- Register `k` of four. -/
def Quad.get (q : Quad) (k : Fin 4) : Word :=
  match k with
  | 0 => q.r0
  | 1 => q.r1
  | 2 => q.r2
  | 3 => q.r3

/-- Four registers with register `k` written. -/
def Quad.set (q : Quad) (k : Fin 4) (w : Word) : Quad :=
  match k with
  | 0 => { q with r0 := w }
  | 1 => { q with r1 := w }
  | 2 => { q with r2 := w }
  | 3 => { q with r3 := w }

/-- P_NCH (00_scope.md rule R7; log entry 7). -/
def ChanEngine.nch (ce : ChanEngine) : Nat := ce.chans.length

/-- P_NBAND (00_scope.md rule R7; log entry 7). -/
def ChanEngine.nband (ce : ChanEngine) : Nat := ce.bands.length

/-- WBUF[o] (10_state.md rule R52). -/
def State.wbuf (s : State) (o : Nat) : Byte := s.mem.read (wbufBase + o)

/-- PBUF[o] (10_state.md rule R53). -/
def State.pbuf (s : State) (o : Nat) : Byte := s.mem.read (pbufBase + o)

/-- WBUF[o..o+n) (00_scope.md rule R9). -/
def State.wbufBytes (s : State) (o n : Nat) : List Byte := s.mem.readBytes (wbufBase + o) n

/-- PBUF[o..o+n) (00_scope.md rule R9). -/
def State.pbufBytes (s : State) (o n : Nat) : List Byte := s.mem.readBytes (pbufBase + o) n

/-- `WBUF[o..o+|bs|) <- bs`. -/
def State.setWbuf (s : State) (o : Nat) (bs : List Byte) : State :=
  { s with mem := s.mem.writeBytes (wbufBase + o) bs }

/-- `x[RES0] <- v` (10_state.md rule R35). -/
def State.setRes0 (s : State) (v : Word) : State := { s with ress := { s.ress with r0 := v } }

/-- `x[RES1] <- v` (10_state.md rule R35). -/
def State.setRes1 (s : State) (v : Word) : State := { s with ress := { s.ress with r1 := v } }

/-- `BLK[0..16) <- b` (10_state.md rule R51). -/
def State.setBlk (s : State) (b : Block) : State := { s with blk := b }

/-- The frame descriptor replaced. -/
def State.setFd (s : State) (fd : FrameDesc) : State := { s with fd := fd }

/-- The channel engine replaced. -/
def State.setCe (s : State) (ce : ChanEngine) : State := { s with ce := ce }

/-- `finish(code)` (60_exceptions.md rule R360): RESULT holds the code, BUSY falls and DONE rises. -/
def State.finish (s : State) (code : ResultCode) : State :=
  { s with result := code, busy := false, done := true }

/-- `zeroizeKeys()` (41_crypto.md rule R239): all 48 key bytes become 0x00. -/
def State.zeroizeKeys (s : State) : State := { s with keys := Keys.zero }

/-- `K(ksel)` (41_crypto.md rule R227): never formed for 3 to 15. -/
def Keys.select (k : Keys) (ksel : BitVec 4) : Option Block :=
  match ksel.toNat with
  | 0 => some k.app
  | 1 => some k.nwkS
  | 2 => some k.appS
  | _ => none

/-- `softReset()` (43_system.md rule R345): the reset values everywhere, the buffers kept, a pending
command cancelled. The host and its program are not part of the block. -/
def State.softReset (s : State) : State :=
  State.init s.regionPort s.ce.nch s.ce.nband s.mem s.host

/-- A hardware reset of the same instance (70_reset_and_hazards.md rule R400): as a soft reset, but the
buffers are unspecified again. -/
def State.hardReset (s : State) : State :=
  State.init s.regionPort s.ce.nch s.ce.nband s.mem.powerCycle s.host

end Sys2Proof.Machine
end

