-- ==== Sys2Proof/Machine/Operands.lean ====
section
/-! DEFINITION. The operand fields of the commands (30_encoding.md rule R133): every other ARG bit is
ignored, and every field is unsigned. -/

namespace Sys2Proof.Machine

open Sys2Proof

/-- Bits `lo+7:lo` of a register as a natural number. -/
def byteAt (w : Word) (lo : Nat) : Nat := (w.extractLsb' lo 8).toNat

/-- ENCODE's MAXLEN, ARG0[7:0]. -/
def State.maxLen (s : State) : Nat := byteAt s.args.r0 0

/-- DECODE's LEN, ARG0[7:0]. -/
def State.frameLen (s : State) : Nat := byteAt s.args.r0 0

/-- PHY_SIZE's DATALEN, ARG0[7:0]. -/
def State.sizeDataLen (s : State) : Nat := byteAt s.args.r0 0

/-- PHY_SIZE's OPTSLEN, ARG1[7:0]. -/
def State.sizeOptsLen (s : State) : Nat := byteAt s.args.r1 0

/-- IS_UPSTREAM's TYPE, ARG0[2:0]. -/
def State.typeArg (s : State) : BitVec 3 := s.args.r0.extractLsb' 0 3

/-- OFF of CTR_XOR, CMAC and MIC_DATA, ARG0[7:0]. -/
def State.rangeOff (s : State) : Nat := byteAt s.args.r0 0

/-- LEN of CTR_XOR, CMAC and MIC_DATA, ARG0[15:8]. -/
def State.rangeLen (s : State) : Nat := byteAt s.args.r0 8

/-- DIR of CTR_XOR and MIC_DATA, ARG0[16]. -/
def State.dirArg (s : State) : Bool := s.args.r0.getLsbD 16

/-- DEVADDR of CTR_XOR and MIC_DATA, ARG1. -/
def State.devAddrArg (s : State) : Word := s.args.r1

/-- FCNT of CTR_XOR and MIC_DATA, ARG2. -/
def State.fCntArg (s : State) : Word := s.args.r2

/-- CE_INIT's REGION, ARG0. -/
def State.regionArg (s : State) : Word := s.args.r0

/-- CE_ADD's FREQ, ARG0. -/
def State.freqArg (s : State) : Word := s.args.r0

/-- CE_SET_RATE_POWER's RATE, ARG0[7:0]. -/
def State.rateArg (s : State) : Byte := s.args.r0.extractLsb' 0 8

/-- CE_SET_RATE_POWER's POWER, ARG1[7:0]. -/
def State.powerArg (s : State) : Byte := s.args.r1.extractLsb' 0 8

/-- NOW of CE_WAIT_TIME and CE_REGISTER_TX, ARG1 the high word and ARG0 the low one. -/
def State.nowArg (s : State) : Time := s.args.r1 ++ s.args.r0

/-- CE_REGISTER_TX's LEN, ARG2[7:0]. -/
def State.txLen (s : State) : Nat := byteAt s.args.r2 0

/-- TIME_ON_AIR's SF code, ARG0[7:0]. -/
def State.sfArg (s : State) : Nat := byteAt s.args.r0 0

/-- TIME_ON_AIR's BW code, ARG0[15:8]. -/
def State.bwArg (s : State) : Nat := byteAt s.args.r0 8

/-- TIME_ON_AIR's LEN, ARG1[7:0]. -/
def State.airLen (s : State) : Nat := byteAt s.args.r1 0

end Sys2Proof.Machine
end

