-- ==== Sys2Proof/Machine/Region.lean ====
section
/-! DEFINITION. The region port's six queries, the modulation codes and the airtime formula
(42_channel_engine.md rules R270, R271 and R273). -/

namespace Sys2Proof

/-- A natural in a closed interval. -/
def Span.has (p : Span) (n : Nat) : Bool := decide (p.lo ≤ n) && decide (n ≤ p.hi)

/-- Whether a row's spans hold the arguments, one span an argument. -/
def spansHold : List Span → List Nat → Bool
  | [], [] => true
  | p :: ps, n :: ns => p.has n && spansHold ps ns
  | _, _ => false

/-- The answer of a row list: the first row that holds the arguments, else the given answer. -/
def askRows {α : Type} (rows : List (RegionRow α)) (otherwise : α) (args : List Nat) : α :=
  match rows with
  | [] => otherwise
  | r :: rest => if spansHold r.spans args then r.answer else askRows rest otherwise args

/-- A region table's answer (log entry 6). -/
def RegionTable.ask {α : Type} (t : RegionTable α) (args : List Nat) : α := askRows t.rows t.otherwise args

/-- `Region.defaultChannels(region)` (rule R270). -/
def RegionPort.askDefaultChannels (p : RegionPort) (region : Word) : ChannelList :=
  p.defaultChannels.ask [region.toNat]

/-- `Region.defaultSettings(region)` (rule R270). -/
def RegionPort.askDefaultSettings (p : RegionPort) (region : Word) : DefaultSettings :=
  p.defaultSettings.ask [region.toNat]

/-- `Region.validate(region, freq)` (rule R270). -/
def RegionPort.askValidate (p : RegionPort) (region freq : Word) : Validation :=
  p.validate.ask [region.toNat, freq.toNat]

/-- `Region.offTime(region, b)` (rule R270). -/
def RegionPort.askOffTime (p : RegionPort) (region : Word) (b : Nat) : Word :=
  p.offTime.ask [region.toNat, b]

/-- `Region.rx1Rate(region, tx, off)` (rule R270). -/
def RegionPort.askRx1Rate (p : RegionPort) (region : Word) (tx off : Byte) : Byte :=
  p.rx1Rate.ask [region.toNat, tx.toNat, off.toNat]

/-- A spreading-factor code (rule R271): 0 for FSK, or 6 to 12. -/
def sfOk (sf : Nat) : Bool := sf == 0 || (decide (6 ≤ sf) && decide (sf ≤ 12))

/-- A bandwidth code (rule R271): 0 to 3. -/
def bwOk (bw : Nat) : Bool := decide (bw ≤ 3)

/-- A pair of codes of rule R271. -/
def RateCodes.ok (c : RateCodes) : Bool := sfOk c.sf && bwOk c.bw

/-- `Region.rateParams(region, rate)` (rule R270); an answer outside the codes is treated as absent
(rule R271). -/
def RegionPort.askRateParams (p : RegionPort) (region : Word) (rate : Byte) : Option RateCodes :=
  (p.rateParams.ask [region.toNat, rate.toNat]).filter RateCodes.ok

/-- `BWHz` (rule R271) of the LoRa bandwidth codes. -/
def bwHz (bw : Nat) : Nat :=
  match bw with
  | 0 => 125000
  | 1 => 250000
  | _ => 500000

/-- `ceil(n / d)` for any sign of `n` and positive `d` (00_scope.md rule R8). -/
def ceilDiv (n d : Int) : Int := -((-n) / d)

/-- The symbol period in microseconds (rule R273). -/
def symbolTime (sf bw : Nat) : Nat := (2 ^ sf * 1000000) / bwHz bw

/-- 1 for an explicit header, 0 at SF6 only (rule R273). -/
def headerOn (sf : Nat) : Nat := if sf = 6 then 0 else 1

/-- 1 for low-data-rate optimisation: 125 kHz at SF11 and SF12 (rule R273). -/
def lowDataRate (sf bw : Nat) : Nat := if bw = 0 ∧ (sf = 11 ∨ sf = 12) then 1 else 0

/-- The number of payload symbols (rule R273); CR is 1. -/
def payloadSymbols (sf bw len : Nat) : Int :=
  8 + ceilDiv (8 * len - 4 * sf + 28 + 16 - 20 * headerOn sf : Int) (4 * (sf - 2 * lowDataRate sf bw))
    * (1 + 4)

/-- `airtime(sf, bw, L)` in microseconds (rule R273); 0 for the FSK class. -/
def airtime (sf bw len : Nat) : Nat :=
  if sf = 0 ∨ bw = 3 then 0
  else
    12 * symbolTime sf bw + symbolTime sf bw / 4 +
      (payloadSymbols sf bw len).toNat * symbolTime sf bw

end Sys2Proof
end

