-- ==== Sys2Proof/Machine/Channel.lean ====
section
/-! DEFINITION. The channel engine: its internal functions (42_channel_engine.md rules R274 to R279) and
the commands CE_INIT to TIME_ON_AIR (rules R280 to R293). -/

namespace Sys2Proof.Machine

open Sys2Proof

/-- A present and unmasked slot of a band (00_scope.md rule R11). -/
def Channel.eligible (c : Channel) (b : Nat) : Bool :=
  c.freq != 0 && c.band.toNat == b && !c.masked

/-- `InternalFault()` (rule R279): the selection is cleared and IFAULT is set. -/
def ChanEngine.internalFault (ce : ChanEngine) : ChanEngine := { ce with sel := none, ifault := true }

/-- One comparison of the scan for the earliest band (rule R274): a band replaces the best only when its
ready-time is strictly earlier, so that ties go to the lowest index. -/
def earlierBand (best : Option (Nat × Time)) (b : Nat) (band : Band) : Option (Nat × Time) :=
  if band.num = 0 then best
  else
    match best with
    | none => some (b, band.ready)
    | some (b₀, r₀) => if band.ready < r₀ then some (b, band.ready) else some (b₀, r₀)

/-- The scan of the band table from index `b` on (rule R274). -/
def scanBands (best : Option (Nat × Time)) (b : Nat) : List Band → Option (Nat × Time)
  | [] => best
  | band :: rest => scanBands (earlierBand best b band) (b + 1) rest

/-- The band with unmasked channels and the earliest ready-time (rule R274). -/
def ChanEngine.bestBand (ce : ChanEngine) : Option Nat := (scanBands none 0 ce.bands).map Prod.fst

/-- The slot the round-robin scan of a band starts at: just after the last-used one (rule R274). -/
def ChanEngine.scanStart (ce : ChanEngine) (b : Nat) : Nat :=
  match ce.bands[b]? with
  | some band => (match band.last with | some c => c + 1 | none => 0)
  | none => 0

/-- Whether slot `c` is present, belongs to band `b` and is unmasked. -/
def ChanEngine.eligibleAt (ce : ChanEngine) (b c : Nat) : Bool :=
  match ce.chans[c]? with
  | some ch => ch.eligible b
  | none => false

/-- The first eligible slot of a band after its last-used one, wrapping at the capacity (rule R274). -/
def ChanEngine.nextSlot (ce : ChanEngine) (b : Nat) : Option Nat :=
  ((List.range ce.nch).map (fun k => (ce.scanStart b + k) % ce.nch)).find? (ce.eligibleAt b)

/-- The selection made: recorded as the band's last-used slot and as the engine's selection (R274). -/
def ChanEngine.choose (ce : ChanEngine) (b c : Nat) : ChanEngine :=
  { ce with
    bands := ce.bands.modify b (fun band => { band with last := some c })
    sel := some ⟨b, c⟩ }

/-- `cycleChannel()` (rule R274). -/
def ChanEngine.cycleChannel (ce : ChanEngine) : ChanEngine :=
  match ce.bestBand with
  | none => { ce with sel := none }
  | some b =>
    match ce.nextSlot b with
    | some c => ce.choose b c
    | none => ce.internalFault

/-- One eligible slot fewer in a band and in all (rules R275 and R277). -/
def ChanEngine.countDown (ce : ChanEngine) (b : Nat) : ChanEngine :=
  { ce with
    bands := ce.bands.modify b (fun band => { band with num := band.num - 1 })
    total := ce.total - 1 }

/-- One eligible slot more in a band and in all (rules R276 and R278). -/
def ChanEngine.countUp (ce : ChanEngine) (b : Nat) : ChanEngine :=
  { ce with
    bands := ce.bands.modify b (fun band => { band with num := band.num + 1 })
    total := ce.total + 1 }

/-- A slot of the channel table replaced. -/
def ChanEngine.setSlot (ce : ChanEngine) (i : Nat) (ch : Channel) : ChanEngine :=
  { ce with chans := ce.chans.set i ch }

/-- Recompute the selection if slot `i` is the selected channel (rules R275 and R277). -/
def ChanEngine.reselectIf (ce : ChanEngine) (i : Nat) : ChanEngine :=
  match ce.sel with
  | some sel => if sel.chan = i then ce.cycleChannel else ce
  | none => ce

/-- Recompute the selection if the aggregate count has just become 1 (rules R276 and R278). -/
def ChanEngine.selectFirst (ce : ChanEngine) : ChanEngine := if ce.total = 1 then ce.cycleChannel else ce

/-- `remove(i)` (rule R275). -/
def ChanEngine.remove (ce : ChanEngine) (i : Nat) : ChanEngine :=
  match ce.chans[i]? with
  | none => ce
  | some ch =>
    if ch.freq = 0 then ce
    else
      ((if ch.masked then ce else ce.countDown ch.band.toNat).setSlot i
        { ch with freq := 0 }).reselectIf i

/-- The slot `add` puts into the table (rule R276): unmasked, whatever it was. -/
def newSlot (f : Word) (b : Nat) : Channel := ⟨f, BitVec.ofNat 8 b, false⟩

/-- `add(i, f)` (rule R276): the new state and the boolean result. -/
def ChanEngine.add (p : RegionPort) (ce : ChanEngine) (i : Nat) (f : Word) : ChanEngine × Bool :=
  if f = 0 then (ce.remove i, true)
  else if ce.nch ≤ i then (ce, false)
  else
    let v := p.askValidate ce.region f
    if !v.accepted || decide (ce.nband ≤ v.subBand) then (ce, false)
    else
      ((((ce.remove i).setSlot i (newSlot f v.subBand)).countUp v.subBand).selectFirst, true)

/-- `mask(i)` (rule R277). -/
def ChanEngine.mask (ce : ChanEngine) (i : Nat) : ChanEngine × Bool :=
  match ce.chans[i]? with
  | none => (ce, false)
  | some ch =>
    if ch.freq ≠ 0 ∧ ch.masked = false then
      (((ce.setSlot i { ch with masked := true }).countDown ch.band.toNat).reselectIf i, true)
    else (ce.setSlot i { ch with masked := true }, true)

/-- `unmask(i)` (rule R278). -/
def ChanEngine.unmask (ce : ChanEngine) (i : Nat) : ChanEngine × Bool :=
  match ce.chans[i]? with
  | none => (ce, false)
  | some ch =>
    if ch.freq ≠ 0 ∧ ch.masked = true then
      (((ce.setSlot i { ch with masked := false }).countUp ch.band.toNat).selectFirst, true)
    else (ce.setSlot i { ch with masked := false }, true)

/-- A boolean result as a result code (rules R281, R283 and R284). -/
def boolResult (ok : Bool) : ResultCode := if ok then .ok else .fail

/-- The default channels added in order, results ignored (rule R280). -/
def ChanEngine.addAll (p : RegionPort) (ce : ChanEngine) : ChannelList → ChanEngine
  | [] => ce
  | (i, f) :: rest => ChanEngine.addAll p (ce.add p i f).1 rest

/-- The tables emptied for a region (rule R280); the settings and IFAULT are not touched here. -/
def ChanEngine.emptyFor (ce : ChanEngine) (region : Word) : ChanEngine :=
  { ce with
    region := region
    chans := List.replicate ce.nch Channel.empty
    bands := List.replicate ce.nband Band.empty
    sel := none
    total := 0 }

/-- The default settings loaded, RX1 offset 0 (rule R280). -/
def ChanEngine.loadSettings (ce : ChanEngine) (d : DefaultSettings) : ChanEngine :=
  { ce with
    rate := d.initTxRate
    power := d.initTxPower
    rx2Freq := d.rx2Freq
    rx2Rate := d.rx2Rate
    rx1Offset := 0 }

/-- The channel engine initialised for a region (rule R280). -/
def ChanEngine.initFor (p : RegionPort) (ce : ChanEngine) (region : Word) : ChanEngine :=
  (ChanEngine.addAll p (ce.emptyFor region) (p.askDefaultChannels region)).loadSettings
    (p.askDefaultSettings region)

/-- CE_INIT (rule R280). -/
def execCeInit (s : State) : Host.Outcome State Fault Refusal :=
  .next ((s.setCe (ChanEngine.initFor s.regionPort s.ce s.regionArg)).finish .ok)

/-- CE_ADD (rule R281). -/
def execCeAdd (idx : BitVec 8) (s : State) : Host.Outcome State Fault Refusal :=
  let r := ChanEngine.add s.regionPort s.ce idx.toNat s.freqArg
  .next ((s.setCe r.1).finish (boolResult r.2))

/-- CE_REMOVE (rule R282). -/
def execCeRemove (idx : BitVec 8) (s : State) : Host.Outcome State Fault Refusal :=
  .next ((s.setCe (s.ce.remove idx.toNat)).finish .ok)

/-- CE_MASK (rule R283). -/
def execCeMask (idx : BitVec 8) (s : State) : Host.Outcome State Fault Refusal :=
  let r := s.ce.mask idx.toNat
  .next ((s.setCe r.1).finish (boolResult r.2))

/-- CE_UNMASK (rule R284). -/
def execCeUnmask (idx : BitVec 8) (s : State) : Host.Outcome State Fault Refusal :=
  let r := s.ce.unmask idx.toNat
  .next ((s.setCe r.1).finish (boolResult r.2))

/-- CE_SET_RATE_POWER (rule R285): any value is stored. -/
def execCeSetRatePower (s : State) : Host.Outcome State Fault Refusal :=
  .next ((s.setCe { s.ce with rate := s.rateArg, power := s.powerArg }).finish .ok)

/-- The ready-time of a band; 0 for a band outside the table (log entry 10). -/
def ChanEngine.readyOf (ce : ChanEngine) (b : Nat) : Time :=
  match ce.bands[b]? with
  | some band => band.ready
  | none => 0

/-- The frequency of a slot; 0 for a slot outside the table (log entry 10). -/
def ChanEngine.freqOf (ce : ChanEngine) (c : Nat) : Word :=
  match ce.chans[c]? with
  | some ch => ch.freq
  | none => 0

/-- The remaining back-off of the selected band (rule R286). -/
def ChanEngine.waitTime (ce : ChanEngine) (now : Time) : Time :=
  match ce.sel with
  | none => 0
  | some sel => if now < ce.readyOf sel.band then ce.readyOf sel.band - now else 0

/-- CE_WAIT_TIME (rule R286). -/
def execCeWaitTime (s : State) : Host.Outcome State Fault Refusal :=
  let w := s.ce.waitTime s.nowArg
  .next (((s.setRes0 (w.extractLsb' 0 32)).setRes1 (w.extractLsb' 32 32)).finish .ok)

/-- RES1 of a radio setting (rule R287): SF code, BW code and CR code 1. -/
def settingWord (c : RateCodes) : Word :=
  BitVec.ofNat 32 c.sf ||| BitVec.ofNat 32 c.bw <<< 8 ||| 1 <<< 16

/-- `resolve(f, r)` and the end of the command (rule R287). -/
def resolveSetting (s : State) (f : Word) (r : Byte) : State :=
  match s.regionPort.askRateParams s.ce.region r with
  | none => s.finish .fail
  | some c => ((s.setRes0 f).setRes1 (settingWord c)).finish .ok

/-- A settings command: FAIL when no channel is selected, else the frequency and rate index the command
gives, resolved (rules R288 to R290). -/
def settingOf (s : State) (f : Selection → Word) (r : Byte) : State :=
  match s.ce.sel with
  | none => s.finish .fail
  | some sel => resolveSetting s (f sel) r

/-- CE_TX_SETTING (rule R288). -/
def execCeTxSetting (s : State) : Host.Outcome State Fault Refusal :=
  .next (settingOf s (fun sel => s.ce.freqOf sel.chan) s.ce.rate)

/-- CE_RX1_SETTING (rule R289). -/
def execCeRx1Setting (s : State) : Host.Outcome State Fault Refusal :=
  .next (settingOf s (fun sel => s.ce.freqOf sel.chan)
    (s.regionPort.askRx1Rate s.ce.region s.ce.rate s.ce.rx1Offset))

/-- CE_RX2_SETTING (rule R290). -/
def execCeRx2Setting (s : State) : Host.Outcome State Fault Refusal :=
  .next (settingOf s (fun _ => s.ce.rx2Freq) s.ce.rx2Rate)

/-- The airtime of a transmission at a rate index; 0 when the rate has no parameters (rule R291). -/
def txAirtime (p : RegionPort) (region : Word) (rate : Byte) (len : Nat) : Nat :=
  match p.askRateParams region rate with
  | none => 0
  | some c => airtime c.sf c.bw len

/-- The ready-time a transmission leaves its band with: `now + t × factor`, modulo 2^64 (rule R272). -/
def readyAfter (now : Time) (t : Nat) (factor : Word) : Time := BitVec.ofNat 64 (now.toNat + t * factor.toNat)

/-- A band's ready-time set (rule R291). -/
def ChanEngine.setReady (ce : ChanEngine) (b : Nat) (r : Time) : ChanEngine :=
  { ce with bands := ce.bands.modify b (fun band => { band with ready := r }) }

/-- `registerTransmission` (rule R291): nothing happens when no band is selected. -/
def ChanEngine.registerTx (p : RegionPort) (ce : ChanEngine) (now : Time) (len : Nat) : ChanEngine :=
  match ce.sel with
  | none => ce
  | some sel =>
    (ce.setReady sel.band
      (readyAfter now (txAirtime p ce.region ce.rate len) (p.askOffTime ce.region sel.band))).cycleChannel

/-- CE_REGISTER_TX (rule R291). -/
def execCeRegisterTx (s : State) : Host.Outcome State Fault Refusal :=
  .next ((s.setCe (ChanEngine.registerTx s.regionPort s.ce s.nowArg s.txLen)).finish .ok)

/-- CE_CAPACITY (rule R292). -/
def execCeCapacity (s : State) : Host.Outcome State Fault Refusal :=
  .next ((s.setRes0 (BitVec.ofNat 32 s.ce.nch)).finish .ok)

/-- TIME_ON_AIR (rule R293): FAIL for a code outside rule R271. -/
def timeOnAirEffect (s : State) : State :=
  if sfOk s.sfArg && bwOk s.bwArg then
    (s.setRes0 (BitVec.ofNat 32 (airtime s.sfArg s.bwArg s.airLen))).finish .ok
  else s.finish .fail

/-- TIME_ON_AIR (rule R293). -/
def execTimeOnAir (s : State) : Host.Outcome State Fault Refusal := .next (timeOnAirEffect s)

end Sys2Proof.Machine
end

