-- ==== Sys2Proof/Machine/Aes.lean ====
section
/-! DEFINITION. The cipher and MAC functions (41_crypto.md rules R220 to R226 and R230 to R235): AES-128
and its inverse, AES-CMAC, the MIC, and the LoRaWAN counter-mode blocks. -/

namespace Sys2Proof

/-- SBOX (rule R221): row `hi`, its first entry in the most significant byte. -/
def sboxRows : List (BitVec 128) :=
  [0x637c777bf26b6fc53001672bfed7ab76, 0xca82c97dfa5947f0add4a2af9ca472c0,
   0xb7fd9326363ff7cc34a5e5f171d83115, 0x04c723c31896059a071280e2eb27b275,
   0x09832c1a1b6e5aa0523bd6b329e32f84, 0x53d100ed20fcb15b6acbbe394a4c58cf,
   0xd0efaafb434d338545f9027f503c9fa8, 0x51a3408f929d38f5bcb6da2110fff3d2,
   0xcd0c13ec5f974417c4a77e3d645d1973, 0x60814fdc222a908846eeb814de5e0bdb,
   0xe0323a0a4906245cc2d3ac629195e479, 0xe7c8376d8dd54ea96c56f4ea657aae08,
   0xba78252e1ca6b4c6e8dd741f4bbd8b8a, 0x703eb5664803f60e613557b986c11d9e,
   0xe1f8981169d98e949b1e87e9ce5528df, 0x8ca1890dbfe6426841992d0fb054bb16]

/-- INV_SBOX (rule R226): row `hi`, its first entry in the most significant byte. -/
def invSboxRows : List (BitVec 128) :=
  [0x52096ad53036a538bf40a39e81f3d7fb, 0x7ce339829b2fff87348e4344c4dee9cb,
   0x547b9432a6c2233dee4c950b42fac34e, 0x082ea16628d924b2765ba2496d8bd125,
   0x72f8f66486689816d4a45ccc5d65b692, 0x6c704850fdedb9da5e154657a78d9d84,
   0x90d8ab008cbcd30af7e45805b8b34506, 0xd02c1e8fca3f0f02c1afbd0301138a6b,
   0x3a9111414f67dcea97f2cfcef0b4e673, 0x96ac7422e7ad3585e2f937e81c75df6e,
   0x47f11a711d29c5896fb7620eaa18be1b, 0xfc563e4bc6d279209adbc0fe78cd5af4,
   0x1fdda8338807c731b11210592780ec5f, 0x60517fa919b54a0d2de57a9f93c99cef,
   0xa0e03b4dae2af5b0c8ebbb3c83539961, 0x172b047eba77d626e169146355210c7d]

/-- Entry `x` of a table of sixteen rows of sixteen bytes. -/
def tableByte (rows : List (BitVec 128)) (x : Byte) : Byte :=
  (rows.getD (x.toNat / 16) 0).extractLsb' (8 * (15 - x.toNat % 16)) 8

/-- SBOX[x] (rule R221). -/
def sbox (x : Byte) : Byte := tableByte sboxRows x

/-- INV_SBOX[x] (rule R226). -/
def invSbox (x : Byte) : Byte := tableByte invSboxRows x

/-- A function applied to every byte of a column. -/
def Col.map (f : Byte → Byte) (c : Col) : Col := ⟨f c.b0, f c.b1, f c.b2, f c.b3⟩

/-- A function applied to every column of a block. -/
def Block.mapCols (f : Col → Col) (s : Block) : Block := ⟨f s.c0, f s.c1, f s.c2, f s.c3⟩

/-- SubBytes (rule R220). -/
def subBytes (s : Block) : Block := s.mapCols (Col.map sbox)

/-- InvSubBytes (rule R226). -/
def invSubBytes (s : Block) : Block := s.mapCols (Col.map invSbox)

/-- ShiftRows (rule R222): row r of column c comes from column (c + r) mod 4. -/
def shiftRows (s : Block) : Block :=
  ⟨⟨s.c0.b0, s.c1.b1, s.c2.b2, s.c3.b3⟩, ⟨s.c1.b0, s.c2.b1, s.c3.b2, s.c0.b3⟩,
   ⟨s.c2.b0, s.c3.b1, s.c0.b2, s.c1.b3⟩, ⟨s.c3.b0, s.c0.b1, s.c1.b2, s.c2.b3⟩⟩

/-- InvShiftRows (rule R226): row r of column c comes from column (c - r) mod 4. -/
def invShiftRows (s : Block) : Block :=
  ⟨⟨s.c0.b0, s.c3.b1, s.c2.b2, s.c1.b3⟩, ⟨s.c1.b0, s.c0.b1, s.c3.b2, s.c2.b3⟩,
   ⟨s.c2.b0, s.c1.b1, s.c0.b2, s.c3.b3⟩, ⟨s.c3.b0, s.c2.b1, s.c1.b2, s.c0.b3⟩⟩

/-- `xtime` (rule R223): multiplication by 02 in GF(2^8) modulo 0x11B. -/
def xtime (a : Byte) : Byte := if a.getLsbD 7 then (a <<< 1) ^^^ 0x1B else a <<< 1

/-- Multiplication in GF(2^8) modulo 0x11B by a factor below 16 (rule R223), from its four bits. -/
def gfMul (k : BitVec 4) (a : Byte) : Byte :=
  (if k.getLsbD 0 then a else 0) ^^^ (if k.getLsbD 1 then xtime a else 0) ^^^
  (if k.getLsbD 2 then xtime (xtime a) else 0) ^^^ (if k.getLsbD 3 then xtime (xtime (xtime a)) else 0)

/-- One column times the circulant matrix whose first row is the four factors (rules R223 and R226). -/
def mixWith (k0 k1 k2 k3 : BitVec 4) (c : Col) : Col :=
  ⟨gfMul k0 c.b0 ^^^ gfMul k1 c.b1 ^^^ gfMul k2 c.b2 ^^^ gfMul k3 c.b3,
   gfMul k3 c.b0 ^^^ gfMul k0 c.b1 ^^^ gfMul k1 c.b2 ^^^ gfMul k2 c.b3,
   gfMul k2 c.b0 ^^^ gfMul k3 c.b1 ^^^ gfMul k0 c.b2 ^^^ gfMul k1 c.b3,
   gfMul k1 c.b0 ^^^ gfMul k2 c.b1 ^^^ gfMul k3 c.b2 ^^^ gfMul k0 c.b3⟩

/-- MixColumns (rule R223). -/
def mixColumns (s : Block) : Block := s.mapCols (mixWith 0x2 0x3 0x1 0x1)

/-- InvMixColumns (rule R226). -/
def invMixColumns (s : Block) : Block := s.mapCols (mixWith 0xe 0xb 0xd 0x9)

/-- Rcon[1..10] (rule R225). -/
def rcon : List Byte := [0x01, 0x02, 0x04, 0x08, 0x10, 0x20, 0x40, 0x80, 0x1b, 0x36]

/-- `SubWord(RotWord(w)) ⊕ (rc, 0, 0, 0)` (rule R224). -/
def keyCore (rc : Byte) (w : Col) : Col :=
  (Col.map sbox ⟨w.b1, w.b2, w.b3, w.b0⟩).xor ⟨rc, 0, 0, 0⟩

/-- RK_j from RK_{j-1} (rule R224): its four words are w_{4j} to w_{4j+3}, each the word four before
exclusive-or the word before, the first of them through `keyCore`. -/
def nextRoundKey (rc : Byte) (k : Block) : Block :=
  let w0 := k.c0.xor (keyCore rc k.c3)
  let w1 := k.c1.xor w0
  let w2 := k.c2.xor w1
  let w3 := k.c3.xor w2
  ⟨w0, w1, w2, w3⟩

/-- A round key and the ones that follow it, one for each round constant. -/
def roundKeysFrom : List Byte → Block → List Block
  | [], k => [k]
  | rc :: rcs, k => k :: roundKeysFrom rcs (nextRoundKey rc k)

/-- RK_0 to RK_10 (rule R224). -/
def roundKeys (key : Block) : List Block := roundKeysFrom rcon key

/-- The rounds of the forward cipher over the round keys that are left; the last has no MixColumns. -/
def cipherRounds : List Block → Block → Block
  | [], s => s
  | [rk], s => (shiftRows (subBytes s)).xor rk
  | rk :: rk' :: rks, s => cipherRounds (rk' :: rks) ((mixColumns (shiftRows (subBytes s))).xor rk)

/-- The rounds of the inverse cipher over the round keys that are left; the last has no InvMixColumns. -/
def invCipherRounds : List Block → Block → Block
  | [], s => s
  | [rk], s => (invSubBytes (invShiftRows s)).xor rk
  | rk :: rk' :: rks, s =>
    invCipherRounds (rk' :: rks) (invMixColumns ((invSubBytes (invShiftRows s)).xor rk))

/-- The first of a list of round keys added, then the rounds of the rest. -/
def withRoundKeys (rounds : List Block → Block → Block) : List Block → Block → Block
  | [], b => b
  | rk :: rks, b => rounds rks (b.xor rk)

/-- `AES(K, B)` (rule R220). -/
def aes (key b : Block) : Block := withRoundKeys cipherRounds (roundKeys key) b

/-- `AESinv(K, B)` (rule R226). -/
def aesInv (key b : Block) : Block := withRoundKeys invCipherRounds (roundKeys key).reverse b

/-- A block read as a 128-bit big-endian integer (rule R230). -/
def Block.toBE (b : Block) : BitVec 128 :=
  b.c0.b0 ++ b.c0.b1 ++ b.c0.b2 ++ b.c0.b3 ++ b.c1.b0 ++ b.c1.b1 ++ b.c1.b2 ++ b.c1.b3 ++
  b.c2.b0 ++ b.c2.b1 ++ b.c2.b2 ++ b.c2.b3 ++ b.c3.b0 ++ b.c3.b1 ++ b.c3.b2 ++ b.c3.b3

/-- Four bytes of a 128-bit big-endian integer, the first at bits `hi+7:hi`. -/
def Col.ofBE (v : BitVec 128) (hi : Nat) : Col :=
  ⟨v.extractLsb' hi 8, v.extractLsb' (hi - 8) 8, v.extractLsb' (hi - 16) 8, v.extractLsb' (hi - 24) 8⟩

/-- The block of a 128-bit big-endian integer (rule R230). -/
def Block.ofBE (v : BitVec 128) : Block := ⟨Col.ofBE v 120, Col.ofBE v 88, Col.ofBE v 56, Col.ofBE v 24⟩

/-- `dbl` on integers (rule R230): shift left by one, exclusive-or 0x87 if the top bit was 1. -/
def dblBE (v : BitVec 128) : BitVec 128 := if v.getLsbD 127 then (v <<< 1) ^^^ 0x87 else v <<< 1

/-- `dbl` on blocks (rule R230). -/
def dbl (b : Block) : Block := Block.ofBE (dblBE b.toBE)

/-- K1 (rule R230). -/
def cmacK1 (key : Block) : Block := dbl (aes key Block.zero)

/-- K2 (rule R230). -/
def cmacK2 (key : Block) : Block := dbl (cmacK1 key)

/-- The last block of a CMAC (rule R230): a complete one with K1, else padded with 0x80 and zeros, with K2. -/
def cmacLast (key : Block) (m : List Byte) : Block :=
  if m.length = 16 then (Block.ofBytes m).xor (cmacK1 key)
  else (Block.ofBytes (m ++ [0x80])).xor (cmacK2 key)

/-- The chain of a CMAC over `n` whole blocks and then the last one (rule R230). -/
def cmacChain (key : Block) : Nat → Block → List Byte → Block
  | 0, x, m => aes key (x.xor (cmacLast key m))
  | n + 1, x, m => cmacChain key n (aes key (x.xor (Block.ofBytes m))) (m.drop 16)

/-- `CMAC(K, M)` (rule R230): `max(1, ceil(m / 16))` blocks, all but the last chained whole. -/
def cmacTag (key : Block) (m : List Byte) : Block := cmacChain key ((m.length - 1) / 16) Block.zero m

/-- `MIC32(T)` (rule R231): the first four bytes of a tag. -/
def mic32 (t : Block) : List Byte := t.c0.bytes

/-- The direction byte of the keystream and MIC blocks: 1 for a downlink (40_frame_codec.md rule R165). -/
def dirByte (down : Bool) : Byte := if down then 1 else 0

/-- The bytes `A(i, d, a, n)` and `B0(d, a, n, m)` share (rules R232 and R233): a first byte, the direction,
the address, the counter and a last byte. -/
def lorawanBlock (first : Byte) (down : Bool) (addr fcnt : Word) (last : Byte) : Block :=
  ⟨⟨first, 0, 0, 0⟩,
   ⟨0, dirByte down, addr.extractLsb' 0 8, addr.extractLsb' 8 8⟩,
   ⟨addr.extractLsb' 16 8, addr.extractLsb' 24 8, fcnt.extractLsb' 0 8, fcnt.extractLsb' 8 8⟩,
   ⟨fcnt.extractLsb' 16 8, fcnt.extractLsb' 24 8, 0, last⟩⟩

/-- `A(i, d, a, n)` (rule R232). -/
def ctrBlock (i : Nat) (down : Bool) (addr fcnt : Word) : Block :=
  lorawanBlock 0x01 down addr fcnt (BitVec.ofNat 8 i)

/-- `B0(d, a, n, m)` (rule R233). -/
def micBlock (down : Bool) (addr fcnt : Word) (m : Nat) : Block :=
  lorawanBlock 0x49 down addr fcnt (BitVec.ofNat 8 m)

/-- `n` keystream blocks from block index `i` on, as bytes (rule R234). -/
def keystream (key : Block) (down : Bool) (addr fcnt : Word) (i : Nat) : Nat → List Byte
  | 0 => []
  | n + 1 => (aes key (ctrBlock i down addr fcnt)).bytes ++ keystream key down addr fcnt (i + 1) n

/-- `ctrXor(K, d, a, n, P)` (rule R234): `ceil(p / 16)` keystream blocks from index 1. -/
def ctrXor (key : Block) (down : Bool) (addr fcnt : Word) (p : List Byte) : List Byte :=
  xorBytes p (keystream key down addr fcnt 1 ((p.length + 15) / 16))

/-- `micData(K, d, a, n, M)` (rule R235). -/
def micData (key : Block) (down : Bool) (addr fcnt : Word) (m : List Byte) : List Byte :=
  mic32 (cmacTag key ((micBlock down addr fcnt m.length).bytes ++ m))

/-- A byte string with `f` applied to each of its whole 16-byte blocks, for `n` blocks (40_frame_codec.md
rules R169 and R171: the join-accept cipher). -/
def mapBlocks (f : Block → Block) : Nat → List Byte → List Byte
  | 0, _ => []
  | n + 1, m => (f (Block.ofBytes m)).bytes ++ mapBlocks f n (m.drop 16)

end Sys2Proof
end

