-- ==== Sys2Proof/Machine/Cipher.lean ====
section
/-! DEFINITION. The cipher and MAC commands (41_crypto.md rules R227 to R229 and R236 to R239). -/

namespace Sys2Proof.Machine

open Sys2Proof

/-- A command that reads KSEL: with the key it selects it has its effect, all three keys are then cleared
and it ends (rule R239); with a key select that names no key it is ILLEGAL and changes nothing else
(30_encoding.md rule R136). -/
def withKey (ksel : BitVec 4) (s : State) (effect : Block → State × ResultCode) : State :=
  match s.keys.select ksel with
  | none => s.finish .illegal
  | some k => ((effect k).1.zeroizeKeys).finish (effect k).2

/-- An effect on a range of WBUF: FAIL with nothing changed when the range passes the buffer's end (rules
R236 to R238). -/
def onRange (s : State) (effect : State) : State × ResultCode :=
  if s.rangeOff + s.rangeLen > 256 then (s, .fail) else (effect, .ok)

/-- The bytes of the range ARG0 names. -/
def State.rangeBytes (s : State) : List Byte := s.wbufBytes s.rangeOff s.rangeLen

/-- AES_ENC (rule R228). -/
def execAesEnc (ksel : BitVec 4) (s : State) : Host.Outcome State Fault Refusal :=
  .next (withKey ksel s (fun k => (s.setBlk (aes k s.blk), .ok)))

/-- AES_DEC (rule R229). -/
def execAesDec (ksel : BitVec 4) (s : State) : Host.Outcome State Fault Refusal :=
  .next (withKey ksel s (fun k => (s.setBlk (aesInv k s.blk), .ok)))

/-- CTR_XOR (rule R236). -/
def execCtrXor (ksel : BitVec 4) (s : State) : Host.Outcome State Fault Refusal :=
  .next (withKey ksel s (fun k =>
    onRange s (s.setWbuf s.rangeOff (ctrXor k s.dirArg s.devAddrArg s.fCntArg s.rangeBytes))))

/-- CMAC (rule R237). -/
def execCmac (ksel : BitVec 4) (s : State) : Host.Outcome State Fault Refusal :=
  .next (withKey ksel s (fun k => onRange s (s.setBlk (cmacTag k s.rangeBytes))))

/-- MIC_DATA (rule R238): the MIC bytes go into RES0 in wire order. -/
def execMicData (ksel : BitVec 4) (s : State) : Host.Outcome State Fault Refusal :=
  .next (withKey ksel s (fun k =>
    onRange s (s.setRes0 (wordLe (micData k s.dirArg s.devAddrArg s.fCntArg s.rangeBytes)))))

end Sys2Proof.Machine
end

