-- ==== Sys2Proof/Machine/Codec.lean ====
section
/-! DEFINITION. The frame codec: ENCODE, DECODE, PHY_SIZE and IS_UPSTREAM (40_frame_codec.md rules R160 to
R173). -/

namespace Sys2Proof.Machine

open Sys2Proof

/-- `isUp(t)` (rule R165): JoinRequest, UnconfirmedUp and ConfirmedUp. -/
def isUp (t : BitVec 3) : Bool := t == 0 || t == 2 || t == 4

/-- `dir(t)` (rule R165): true is the direction byte 1, downlink. -/
def isDown (t : BitVec 3) : Bool := !isUp t

/-- MHDR (rule R161): the type code in bits 7:5, RFU and Major 0. -/
def mhdr (t : BitVec 3) : Byte := t ++ (0 : BitVec 5)

/-- `payKey(port)` (rule R166): NwkSKey for port 0, AppSKey for any other. -/
def Keys.payKey (k : Keys) (port : Byte) : Block := if port = 0 then k.nwkS else k.appS

/-- A message with the MIC of a join frame after it (rules R162 and R163). -/
def withJoinMic (key : Block) (msg : List Byte) : List Byte := msg ++ mic32 (cmacTag key msg)

/-- The message of a JoinRequest (rule R168), before its MIC. -/
def joinRequestMsg (fd : FrameDesc) : List Byte :=
  mhdr 0 :: (le (fd.appEuiHi ++ fd.appEuiLo) 8 ++ le (fd.devEuiHi ++ fd.devEuiLo) 8 ++ le fd.devNonce 2)

/-- `encJoinRequest()` (rule R168). -/
def encJoinRequest (fd : FrameDesc) (keys : Keys) : List Byte := withJoinMic keys.app (joinRequestMsg fd)

/-- DLSettings (rule R163): bit 7 RFU, RX1_DR_OFFSET, RX2_DR. -/
def JoinFields.dlSettings (ja : JoinFields) : Byte := (0 : BitVec 1) ++ ja.rx1DrOffset ++ ja.rx2Dr

/-- RxDelay (rule R163): bits 7:4 RFU, RX_DELAY. -/
def JoinFields.rxDelayByte (ja : JoinFields) : Byte := (0 : BitVec 4) ++ ja.rxDelay

/-- The plaintext body of a JoinAccept (rule R169), between MHDR and MIC. -/
def joinAcceptBody (fd : FrameDesc) : List Byte :=
  le fd.appNonce 3 ++ le fd.netId 3 ++ le fd.devAddr 4 ++ [fd.ja.dlSettings, fd.ja.rxDelayByte] ++
    (if fd.ja.cfListPresent then fd.cfList.bytes else [])

/-- `encJoinAccept()` (rule R169): body and MIC enciphered block by block with `AESinv`, MHDR not. -/
def encJoinAccept (fd : FrameDesc) (keys : Keys) : List Byte :=
  let plain := withJoinMic keys.app (mhdr 1 :: joinAcceptBody fd)
  mhdr 1 :: mapBlocks (aesInv keys.app) ((plain.length - 1) / 16) (plain.drop 1)

/-- FCtrl (rule R164): ADR, ADRACKREQ on an uplink, ACK, PENDING on a downlink, FOptsLen. -/
def fCtrl (t : BitVec 3) (fl : FrameFlags) (ol : BitVec 4) : Byte :=
  BitVec.ofBool fl.adr ++ BitVec.ofBool (isUp t && fl.adrAckReq) ++ BitVec.ofBool fl.ack ++
    BitVec.ofBool (isDown t && fl.pending) ++ ol

/-- MHDR and FHDR of a data frame (rule R170). -/
def dataHeader (t : BitVec 3) (fd : FrameDesc) : List Byte :=
  mhdr t :: (le fd.devAddr 4 ++ [fCtrl t fd.flags (fd.len.optsLen.setWidth 4)] ++ le fd.fCnt 2 ++
    fd.opts.bytes.take fd.len.optsLen.toNat)

/-- FPort and the enciphered FRMPayload, when a port is present (rule R170). -/
def dataPayload (t : BitVec 3) (fd : FrameDesc) (keys : Keys) (payload : List Byte) : List Byte :=
  if fd.flags.portPresent then
    fd.port :: ctrXor (keys.payKey fd.port) (isDown t) fd.devAddr fd.fCnt payload
  else []

/-- `encData(t)` (rule R170) with the plaintext FRMPayload given; none is FAIL. -/
def encData (t : BitVec 3) (fd : FrameDesc) (keys : Keys) (payload : List Byte) : Option (List Byte) :=
  if fd.len.optsLen.toNat > 15 then none
  else if fd.flags.portPresent = false ∧ fd.len.dataLen.toNat > 0 then none
  else
    let msg := dataHeader t fd ++ dataPayload t fd keys payload
    some (msg ++ micData keys.nwkS (isDown t) fd.devAddr fd.fCnt msg)

/-- The frame the descriptor names (rule R167): none is FAIL. -/
def encodeFrame (s : State) : Option (List Byte) :=
  match s.fd.type.toNat with
  | 0 => some (encJoinRequest s.fd s.keys)
  | 1 => some (encJoinAccept s.fd s.keys)
  | 2 | 3 | 4 | 5 => encData s.fd.type s.fd s.keys (s.pbufBytes 0 s.fd.len.dataLen.toNat)
  | _ => none

/-- The frame when it also fits MAXLEN (rule R167). -/
def frameToWrite (s : State) : Option (List Byte) :=
  (encodeFrame s).filter (fun out => decide (out.length ≤ s.maxLen))

/-- ENCODE's effect (rule R167). -/
def encodeEffect (s : State) : State :=
  match frameToWrite s with
  | none => (s.setRes0 0).zeroizeKeys.finish .fail
  | some out =>
    (((s.setWbuf 0 out).setRes0 (BitVec.ofNat 32 out.length)).zeroizeKeys).finish .ok

/-- ENCODE (rule R167). -/
def execEncode (s : State) : Host.Outcome State Fault Refusal := .next (encodeEffect s)

/-- OK when the MIC matches, else MIC (rule R171). -/
def micResult (ok : Bool) : ResultCode := if ok then .ok else .mic

/-- DECODE of a JoinRequest (rule R171). -/
def decJoinRequest (len : Nat) (s : State) : State × ResultCode :=
  if len = 23 then
    (s.setFd { s.fd with
      type := 0
      appEuiLo := wordLe (s.wbufBytes 1 4)
      appEuiHi := wordLe (s.wbufBytes 5 4)
      devEuiLo := wordLe (s.wbufBytes 9 4)
      devEuiHi := wordLe (s.wbufBytes 13 4)
      devNonce := BitVec.ofNat 16 (uintLe (s.wbufBytes 17 2)) },
     micResult (mic32 (cmacTag s.keys.app (s.wbufBytes 0 19)) == s.wbufBytes 19 4))
  else (s, .bad)

/-- The join-accept body and MIC deciphered in place (rule R171). -/
def decipherJoinAccept (len : Nat) (s : State) : State :=
  s.setWbuf 1 (mapBlocks (aes s.keys.app) ((len - 1) / 16) (s.wbufBytes 1 (len - 1)))

/-- The descriptor DECODE writes from the plaintext of a JoinAccept (rule R171). -/
def joinAcceptFields (len : Nat) (s : State) : FrameDesc :=
  { s.fd with
    type := 1
    appNonce := BitVec.ofNat 24 (uintLe (s.wbufBytes 1 3))
    netId := BitVec.ofNat 24 (uintLe (s.wbufBytes 4 3))
    devAddr := wordLe (s.wbufBytes 7 4)
    ja :=
      { rx1DrOffset := (s.wbuf 11).extractLsb' 4 3
        rx2Dr := (s.wbuf 11).extractLsb' 0 4
        rxDelay := (s.wbuf 12).extractLsb' 0 4
        cfListPresent := decide (len = 33) }
    cfList := if len = 33 then Block.ofBytes (s.wbufBytes 13 16) else s.fd.cfList }

/-- DECODE of a JoinAccept (rule R171): deciphered first, then checked and parsed. -/
def decJoinAccept (len : Nat) (s : State) : State × ResultCode :=
  if len = 17 ∨ len = 33 then
    let s' := decipherJoinAccept len s
    (s'.setFd (joinAcceptFields len s'),
     micResult (mic32 (cmacTag s.keys.app (s'.wbufBytes 0 (len - 4))) == s'.wbufBytes (len - 4) 4))
  else (s, .bad)

/-- FOptsLen of the frame in WBUF (rule R164). -/
def State.wireOptsLen (s : State) : Nat := ((s.wbuf 5).extractLsb' 0 4).toNat

/-- DevAddr of the data frame in WBUF (rule R171). -/
def State.wireDevAddr (s : State) : Word := wordLe (s.wbufBytes 1 4)

/-- FCnt of the data frame in WBUF, 16 bits widened with zeros (rule R171). -/
def State.wireFCnt (s : State) : Word := wordLe (s.wbufBytes 6 2)

/-- Whether the data frame of `len` bytes in WBUF has a port (rule R164). -/
def State.wirePort (s : State) (len : Nat) : Bool := decide (12 + s.wireOptsLen < len)

/-- FPort of the data frame in WBUF (rule R171). -/
def State.wireFPort (s : State) : Byte := s.wbuf (8 + s.wireOptsLen)

/-- FRMPayload's length (rule R171): 0 without a port. -/
def State.wireDataLen (s : State) (len : Nat) : Nat :=
  if s.wirePort len then len - 13 - s.wireOptsLen else 0

/-- FRMPayload's offset (rule R171): 0 without a port. -/
def State.wireDataOff (s : State) (len : Nat) : Nat :=
  if s.wirePort len then 9 + s.wireOptsLen else 0

/-- FRMPayload deciphered in place, when there is a port (rule R171). -/
def decipherPayload (t : BitVec 3) (len : Nat) (s : State) : State :=
  if s.wirePort len then
    s.setWbuf (s.wireDataOff len)
      (ctrXor (s.keys.payKey s.wireFPort) (isDown t) s.wireDevAddr s.wireFCnt
        (s.wbufBytes (s.wireDataOff len) (s.wireDataLen len)))
  else s

/-- The flags DECODE reports (rule R171): the flag of the other direction is 0. -/
def decodedFlags (t : BitVec 3) (fc : Byte) (port : Bool) : FrameFlags :=
  { ack := fc.getLsbD 5
    adr := fc.getLsbD 7
    adrAckReq := isUp t && fc.getLsbD 6
    pending := isDown t && fc.getLsbD 4
    portPresent := port }

/-- The descriptor DECODE writes from a data frame (rule R171). -/
def dataFields (t : BitVec 3) (len : Nat) (s : State) : FrameDesc :=
  { s.fd with
    type := t
    devAddr := s.wireDevAddr
    fCnt := s.wireFCnt
    flags := decodedFlags t (s.wbuf 5) (s.wirePort len)
    port := if s.wirePort len then s.wireFPort else s.fd.port
    len :=
      { optsLen := BitVec.ofNat 8 s.wireOptsLen
        dataLen := BitVec.ofNat 8 (s.wireDataLen len)
        dataOff := BitVec.ofNat 8 (s.wireDataOff len)
        optsOff := 8 }
    opts := s.fd.opts.overwrite (s.wbufBytes 8 s.wireOptsLen) }

/-- Whether the MIC of the data frame of `len` bytes in WBUF is right, over the received bytes (R171). -/
def dataMicOk (t : BitVec 3) (len : Nat) (s : State) : Bool :=
  micData s.keys.nwkS (isDown t) s.wireDevAddr s.wireFCnt (s.wbufBytes 0 (len - 4)) ==
    s.wbufBytes (len - 4) 4

/-- DECODE of a data frame (rule R171). -/
def decData (t : BitVec 3) (len : Nat) (s : State) : State × ResultCode :=
  if len < 12 then (s, .bad)
  else if len < 12 + s.wireOptsLen then (s, .bad)
  else ((decipherPayload t len s).setFd (dataFields t len s), micResult (dataMicOk t len s))

/-- The type code of the frame in WBUF (rule R161). -/
def State.wireType (s : State) : BitVec 3 := (s.wbuf 0).extractLsb' 5 3

/-- DECODE's parse (rule R171), before the keys are cleared and the command ends. -/
def decodeFrame (len : Nat) (s : State) : State × ResultCode :=
  if len = 0 then (s, .bad)
  else if s.wireType.toNat > 5 ∨ (s.wbuf 0).extractLsb' 0 2 ≠ 0 then (s, .bad)
  else
    match s.wireType.toNat with
    | 0 => decJoinRequest len s
    | 1 => decJoinAccept len s
    | _ => decData s.wireType len s

/-- DECODE's effect (rule R171). -/
def decodeEffect (s : State) : State :=
  let r := decodeFrame s.frameLen s
  r.1.zeroizeKeys.finish r.2

/-- DECODE (rule R171). -/
def execDecode (s : State) : Host.Outcome State Fault Refusal := .next (decodeEffect s)

/-- The size PHY_SIZE answers (rule R172). -/
def phySize (dl ol : Nat) : Nat := 8 + ol + (if dl > 0 then 1 + dl else 0) + 4

/-- PHY_SIZE (rule R172). -/
def execPhySize (s : State) : Host.Outcome State Fault Refusal :=
  .next ((s.setRes0 (BitVec.ofNat 32 (phySize s.sizeDataLen s.sizeOptsLen))).finish .ok)

/-- IS_UPSTREAM (rule R173). -/
def execIsUpstream (s : State) : Host.Outcome State Fault Refusal :=
  .next ((s.setRes0 (if isUp s.typeArg then 1 else 0)).finish .ok)

end Sys2Proof.Machine
end

