-- ==== Sys2Proof/Machine/System.lean ====
section
/-! DEFINITION. The system family: NOP (43_system.md rule R340). -/

namespace Sys2Proof.Machine

open Sys2Proof

/-- NOP (rule R340): completes with OK and does nothing else. -/
def execNop (s : State) : Host.Outcome State Fault Refusal := .next (s.finish .ok)

end Sys2Proof.Machine
end

