-- ==== Sys2Proof/Machine/Dispatch.lean ====
section
/-! DEFINITION. One arm per command: the rule the opcode table names (43_system.md rule R344). -/

namespace Sys2Proof.Machine

open Sys2Proof

-- One command, with its operands already decoded.
def exec (i : Instr) (s : State) : Host.Outcome State Fault Refusal :=
  match i with
  | .nop => Sys2Proof.Machine.execNop s
  | .encode => Sys2Proof.Machine.execEncode s
  | .decode => Sys2Proof.Machine.execDecode s
  | .phySize => Sys2Proof.Machine.execPhySize s
  | .isUpstream => Sys2Proof.Machine.execIsUpstream s
  | .aesEnc ksel => Sys2Proof.Machine.execAesEnc ksel s
  | .aesDec ksel => Sys2Proof.Machine.execAesDec ksel s
  | .ctrXor ksel => Sys2Proof.Machine.execCtrXor ksel s
  | .cmac ksel => Sys2Proof.Machine.execCmac ksel s
  | .micData ksel => Sys2Proof.Machine.execMicData ksel s
  | .ceInit => Sys2Proof.Machine.execCeInit s
  | .ceAdd idx => Sys2Proof.Machine.execCeAdd idx s
  | .ceRemove idx => Sys2Proof.Machine.execCeRemove idx s
  | .ceMask idx => Sys2Proof.Machine.execCeMask idx s
  | .ceUnmask idx => Sys2Proof.Machine.execCeUnmask idx s
  | .ceSetRatePower => Sys2Proof.Machine.execCeSetRatePower s
  | .ceWaitTime => Sys2Proof.Machine.execCeWaitTime s
  | .ceTxSetting => Sys2Proof.Machine.execCeTxSetting s
  | .ceRx1Setting => Sys2Proof.Machine.execCeRx1Setting s
  | .ceRx2Setting => Sys2Proof.Machine.execCeRx2Setting s
  | .ceRegisterTx => Sys2Proof.Machine.execCeRegisterTx s
  | .ceCapacity => Sys2Proof.Machine.execCeCapacity s
  | .timeOnAir => Sys2Proof.Machine.execTimeOnAir s

end Sys2Proof.Machine
end

