-- ==== Sys2Proof/Machine/Flags.lean ====
section
/-! DEFINITION. The flags: the STATUS and CTRL words, what writing them does, the result code's number and
the interrupt output (10_state.md rules R36, R37 and R39, 60_exceptions.md rules R360 and R369). The engine
has no condition codes (10_state.md rule R65). -/

namespace Sys2Proof.Machine

open Sys2Proof

/-- The number of a result code (60_exceptions.md rule R360). -/
def ResultCode.code : ResultCode → Byte
  | .ok => 0x00
  | .fail => 0x01
  | .bad => 0x02
  | .mic => 0x03
  | .illegal => 0x0F

/-- A flag as a bit of a word. -/
def flagBit (b : Bool) (k : Nat) : Word := if b then 1 <<< k else 0

/-- STATUS as the host reads it (10_state.md rule R37). -/
def State.statusWord (s : State) : Word :=
  flagBit s.busy 0 ||| flagBit s.done 1 ||| flagBit s.errBusy 2 ||| flagBit s.ce.ifault 3

/-- CTRL as the host reads it: SRST reads 0 (10_state.md rule R36). -/
def State.ctrlWord (s : State) : Word := flagBit s.ie 0

/-- A write of STATUS: DONE and ERR_BUSY are cleared by writing 1, the rest is not writable (43_system.md
rule R341). -/
def State.writeStatus (s : State) (v : Word) : State :=
  { s with
    done := s.done && !(v.getLsbD 1)
    errBusy := s.errBusy && !(v.getLsbD 2) }

/-- A write of CTRL: bit 1 performs a soft reset and bit 0 is then ignored, else bit 0 is IE
(43_system.md rule R341). -/
def State.writeCtrl (s : State) (v : Word) : State :=
  if v.getLsbD 1 then s.softReset else { s with ie := v.getLsbD 0 }

/-- The IRQ output (60_exceptions.md rule R369). -/
def State.irq (s : State) : Bool := s.done && s.ie

end Sys2Proof.Machine
end

