-- ==== Sys2Proof/Machine/RegMap.lean ====
section
/-! DEFINITION. The register map (10_state.md rule R31): which location an offset names, what a read of it
returns and what a write of it stores (20_memory.md rules R105, R108 and R109, 10_state.md rule R64). -/

namespace Sys2Proof

/-- The registers below the buffers that stand alone, by offset (rule R31). -/
def singleAt (o : Nat) : Option Reg :=
  match o with
  | 0x000 => some .id
  | 0x004 => some .cfg
  | 0x008 => some .ctrl
  | 0x00C => some .status
  | 0x010 => some .cmd
  | 0x014 => some .result
  | 0x018 => some (.arg 0)
  | 0x01C => some (.arg 1)
  | 0x020 => some (.arg 2)
  | 0x024 => some (.arg 3)
  | 0x028 => some (.res 0)
  | 0x02C => some (.res 1)
  | 0x030 => some (.res 2)
  | 0x034 => some (.res 3)
  | 0x040 => some .fdType
  | 0x044 => some .fdFlags
  | 0x048 => some .fdLen
  | 0x04C => some .fdDevAddr
  | 0x050 => some .fdFCnt
  | 0x054 => some .fdPort
  | 0x058 => some .fdAppEuiLo
  | 0x05C => some .fdAppEuiHi
  | 0x060 => some .fdDevEuiLo
  | 0x064 => some .fdDevEuiHi
  | 0x068 => some .fdDevNonce
  | 0x06C => some .fdAppNonce
  | 0x070 => some .fdNetId
  | 0x074 => some .fdJa
  | _ => none

/-- The packed 16-byte strings, by offset (rule R31): four words each. -/
def packedAt (o : Nat) : Option Reg :=
  let j : Fin 4 := Fin.ofNat 4 (o / 4)
  match o / 16 with
  | 0x08 => some (.fdCfList j)
  | 0x09 => some (.fdOpts j)
  | 0x0A => some (.keyApp j)
  | 0x0B => some (.keyNwkS j)
  | 0x0C => some (.keyAppS j)
  | 0x0D => some (.blk j)
  | _ => none

/-- The channel engine's scalar registers, by offset (rule R31). -/
def ceScalarAt (o : Nat) : Option Reg :=
  match o with
  | 0x300 => some .ceRegion
  | 0x304 => some .ceSel
  | 0x308 => some .ceCount
  | 0x30C => some .ceRatePwr
  | 0x310 => some .ceRx1Off
  | 0x314 => some .ceRx2Freq
  | 0x318 => some .ceRx2Rate
  | _ => none

/-- The channel table view (rule R31): eight bytes a slot. -/
def channelAt (nch o : Nat) : Option Reg :=
  let i := (o - 0x400) / 8
  if nch ≤ i then none else if (o - 0x400) % 8 = 0 then some (.chFreq i) else some (.chStat i)

/-- The band table view (rule R31): sixteen bytes a band. -/
def bandAt (nband o : Nat) : Option Reg :=
  let b := (o - 0x600) / 16
  if nband ≤ b then none
  else
    match (o - 0x600) % 16 / 4 with
    | 0 => some (.bandReadyLo b)
    | 1 => some (.bandReadyHi b)
    | 2 => some (.bandLast b)
    | _ => some (.bandNum b)

/-- The location an aligned offset names in an instance with the given capacities (rule R31); none for a
reserved offset (rule R64). -/
def regAt (nch nband o : Nat) : Option Reg :=
  if o < 0x080 then singleAt o
  else if o < 0x100 then packedAt o
  else if o < 0x200 then some (.wbuf ((o - 0x100) / 4))
  else if o < 0x300 then some (.pbuf ((o - 0x200) / 4))
  else if o < 0x400 then ceScalarAt o
  else if o < 0x600 then channelAt nch o
  else if o < 0x800 then bandAt nband o
  else none

/-- The offset of a register name (rule R31), for the assembler's lines (30_encoding.md rule R139). -/
def Reg.offset : Reg → Nat
  | .id => 0x000
  | .cfg => 0x004
  | .ctrl => 0x008
  | .status => 0x00C
  | .cmd => 0x010
  | .result => 0x014
  | .arg k => 0x018 + 4 * k.val
  | .res k => 0x028 + 4 * k.val
  | .fdType => 0x040
  | .fdFlags => 0x044
  | .fdLen => 0x048
  | .fdDevAddr => 0x04C
  | .fdFCnt => 0x050
  | .fdPort => 0x054
  | .fdAppEuiLo => 0x058
  | .fdAppEuiHi => 0x05C
  | .fdDevEuiLo => 0x060
  | .fdDevEuiHi => 0x064
  | .fdDevNonce => 0x068
  | .fdAppNonce => 0x06C
  | .fdNetId => 0x070
  | .fdJa => 0x074
  | .fdCfList j => 0x080 + 4 * j.val
  | .fdOpts j => 0x090 + 4 * j.val
  | .keyApp j => 0x0A0 + 4 * j.val
  | .keyNwkS j => 0x0B0 + 4 * j.val
  | .keyAppS j => 0x0C0 + 4 * j.val
  | .blk j => 0x0D0 + 4 * j.val
  | .wbuf k => 0x100 + 4 * k
  | .pbuf k => 0x200 + 4 * k
  | .ceRegion => 0x300
  | .ceSel => 0x304
  | .ceCount => 0x308
  | .ceRatePwr => 0x30C
  | .ceRx1Off => 0x310
  | .ceRx2Freq => 0x314
  | .ceRx2Rate => 0x318
  | .chFreq i => 0x400 + 8 * i
  | .chStat i => 0x404 + 8 * i
  | .bandReadyLo b => 0x600 + 16 * b
  | .bandReadyHi b => 0x604 + 16 * b
  | .bandLast b => 0x608 + 16 * b
  | .bandNum b => 0x60C + 16 * b

/-- Whether an instance with the given capacities has the register (rule R31). -/
def Reg.present (nch nband : Nat) : Reg → Bool
  | .wbuf k => decide (k < 64)
  | .pbuf k => decide (k < 64)
  | .chFreq i => decide (i < nch)
  | .chStat i => decide (i < nch)
  | .bandReadyLo b => decide (b < nband)
  | .bandReadyHi b => decide (b < nband)
  | .bandLast b => decide (b < nband)
  | .bandNum b => decide (b < nband)
  | _ => true

/-- The writable locations other than CTRL and STATUS (43_system.md rule R341). -/
def Reg.writable : Reg → Bool
  | .cmd => true
  | .arg _ => true
  | .fdType => true
  | .fdFlags => true
  | .fdLen => true
  | .fdDevAddr => true
  | .fdFCnt => true
  | .fdPort => true
  | .fdAppEuiLo => true
  | .fdAppEuiHi => true
  | .fdDevEuiLo => true
  | .fdDevEuiHi => true
  | .fdDevNonce => true
  | .fdAppNonce => true
  | .fdNetId => true
  | .fdJa => true
  | .fdCfList _ => true
  | .fdOpts _ => true
  | .keyApp _ => true
  | .keyNwkS _ => true
  | .keyAppS _ => true
  | .blk _ => true
  | .wbuf _ => true
  | .pbuf _ => true
  | .id => false
  | .cfg => false
  | .ctrl => false
  | .status => false
  | .result => false
  | .res _ => false
  | .ceRegion => false
  | .ceSel => false
  | .ceCount => false
  | .ceRatePwr => false
  | .ceRx1Off => false
  | .ceRx2Freq => false
  | .ceRx2Rate => false
  | .chFreq _ => false
  | .chStat _ => false
  | .bandReadyLo _ => false
  | .bandReadyHi _ => false
  | .bandLast _ => false
  | .bandNum _ => false

end Sys2Proof

namespace Sys2Proof.Machine

open Sys2Proof

/-- A natural shown in an 8-bit field. -/
def natByte (n : Nat) : Byte := BitVec.ofNat 8 n

/-- Four bytes as a register word, the first in bits 7:0. -/
def fourBytes (b0 b1 b2 b3 : Byte) : Word := (Col.mk b0 b1 b2 b3).toWord

/-- FD_FLAGS as the host reads it (10_state.md rule R41). -/
def FrameFlags.word (f : FrameFlags) : Word :=
  flagBit f.ack 0 ||| flagBit f.adr 1 ||| flagBit f.adrAckReq 2 ||| flagBit f.pending 3 |||
    flagBit f.portPresent 4

/-- FD_FLAGS as the host writes it (rule R41). -/
def FrameFlags.ofWord (v : Word) : FrameFlags :=
  ⟨v.getLsbD 0, v.getLsbD 1, v.getLsbD 2, v.getLsbD 3, v.getLsbD 4⟩

/-- FD_LEN as the host reads it (rule R42). -/
def FrameLen.word (l : FrameLen) : Word := fourBytes l.optsLen l.dataLen l.dataOff l.optsOff

/-- FD_LEN as the host writes it (rule R42). -/
def FrameLen.ofWord (v : Word) : FrameLen :=
  ⟨v.extractLsb' 0 8, v.extractLsb' 8 8, v.extractLsb' 16 8, v.extractLsb' 24 8⟩

/-- FD_JA as the host reads it (rule R47): bits 31:13 and bit 3 reserved. -/
def JoinFields.word (j : JoinFields) : Word :=
  (0 : BitVec 19) ++ BitVec.ofBool j.cfListPresent ++ j.rxDelay ++ j.rx2Dr ++ (0 : BitVec 1) ++
    j.rx1DrOffset

/-- FD_JA as the host writes it (rule R47). -/
def JoinFields.ofWord (v : Word) : JoinFields :=
  ⟨v.extractLsb' 0 3, v.extractLsb' 4 4, v.extractLsb' 8 4, v.getLsbD 12⟩

/-- CE_SEL (rule R56): 0xFFFF without VALID when nothing is selected. -/
def selWord (sel : Option Selection) : Word :=
  match sel with
  | none => 0x0000FFFF
  | some sel => fourBytes (natByte sel.chan) (natByte sel.band) 1 0

/-- CH_STAT[i] (rule R54). -/
def Channel.statWord (c : Channel) : Word := c.band.setWidth 32 ||| flagBit c.masked 8

/-- BAND_LAST[b] (rule R55): -1 is shown as 0xFF. -/
def Band.lastWord (b : Band) : Word :=
  match b.last with
  | none => 0xFF
  | some c => (natByte c).setWidth 32

/-- A view of a channel slot. -/
def ChanEngine.viewSlot (ce : ChanEngine) (i : Nat) (view : Channel → Word) : Word :=
  match ce.chans[i]? with
  | some ch => view ch
  | none => 0

/-- A view of a band slot. -/
def ChanEngine.viewBand (ce : ChanEngine) (b : Nat) (view : Band → Word) : Word :=
  match ce.bands[b]? with
  | some band => view band
  | none => 0

/-- The current value of a location, reserved bits 0 (20_memory.md rule R108). -/
def State.readReg (s : State) : Reg → Word
  | .id => 0x4C444C45
  | .cfg => fourBytes (natByte s.ce.nch) (natByte s.ce.nband) 0 0
  | .ctrl => s.ctrlWord
  | .status => s.statusWord
  | .cmd => s.cmd
  | .result => s.result.code.setWidth 32
  | .arg k => s.args.get k
  | .res k => s.ress.get k
  | .fdType => s.fd.type.setWidth 32
  | .fdFlags => s.fd.flags.word
  | .fdLen => s.fd.len.word
  | .fdDevAddr => s.fd.devAddr
  | .fdFCnt => s.fd.fCnt
  | .fdPort => s.fd.port.setWidth 32
  | .fdAppEuiLo => s.fd.appEuiLo
  | .fdAppEuiHi => s.fd.appEuiHi
  | .fdDevEuiLo => s.fd.devEuiLo
  | .fdDevEuiHi => s.fd.devEuiHi
  | .fdDevNonce => s.fd.devNonce.setWidth 32
  | .fdAppNonce => s.fd.appNonce.setWidth 32
  | .fdNetId => s.fd.netId.setWidth 32
  | .fdJa => s.fd.ja.word
  | .fdCfList j => s.fd.cfList.word j
  | .fdOpts j => s.fd.opts.word j
  | .keyApp _ => 0
  | .keyNwkS _ => 0
  | .keyAppS _ => 0
  | .blk j => s.blk.word j
  | .wbuf k => s.mem.readWord (wbufBase + 4 * k)
  | .pbuf k => s.mem.readWord (pbufBase + 4 * k)
  | .ceRegion => s.ce.region
  | .ceSel => selWord s.ce.sel
  | .ceCount => s.ce.total.setWidth 32
  | .ceRatePwr => fourBytes s.ce.rate s.ce.power 0 0
  | .ceRx1Off => s.ce.rx1Offset.setWidth 32
  | .ceRx2Freq => s.ce.rx2Freq
  | .ceRx2Rate => s.ce.rx2Rate.setWidth 32
  | .chFreq i => s.ce.viewSlot i Channel.freq
  | .chStat i => s.ce.viewSlot i Channel.statWord
  | .bandReadyLo b => s.ce.viewBand b (fun band => band.ready.extractLsb' 0 32)
  | .bandReadyHi b => s.ce.viewBand b (fun band => band.ready.extractLsb' 32 32)
  | .bandLast b => s.ce.viewBand b Band.lastWord
  | .bandNum b => s.ce.viewBand b (fun band => band.num.setWidth 32)

/-- The word a host read of an offset returns (43_system.md rule R342): 0 for a reserved offset. -/
def State.readAt (s : State) (o : Nat) : Word :=
  match regAt s.ce.nch s.ce.nband o with
  | some r => s.readReg r
  | none => 0

/-- Command issue (43_system.md rule R343). -/
def State.issue (s : State) (v : Word) : State := { s with cmd := v, busy := true, done := false }

/-- A write of a writable location while no command is pending (rule R341): CMD issues, every other one
stores its defined bits; a location that is not writable keeps its value. -/
def State.writeReg (s : State) (r : Reg) (v : Word) : State :=
  match r with
  | .cmd => s.issue v
  | .arg k => { s with args := s.args.set k v }
  | .fdType => s.setFd { s.fd with type := v.extractLsb' 0 3 }
  | .fdFlags => s.setFd { s.fd with flags := FrameFlags.ofWord v }
  | .fdLen => s.setFd { s.fd with len := FrameLen.ofWord v }
  | .fdDevAddr => s.setFd { s.fd with devAddr := v }
  | .fdFCnt => s.setFd { s.fd with fCnt := v }
  | .fdPort => s.setFd { s.fd with port := v.extractLsb' 0 8 }
  | .fdAppEuiLo => s.setFd { s.fd with appEuiLo := v }
  | .fdAppEuiHi => s.setFd { s.fd with appEuiHi := v }
  | .fdDevEuiLo => s.setFd { s.fd with devEuiLo := v }
  | .fdDevEuiHi => s.setFd { s.fd with devEuiHi := v }
  | .fdDevNonce => s.setFd { s.fd with devNonce := v.extractLsb' 0 16 }
  | .fdAppNonce => s.setFd { s.fd with appNonce := v.extractLsb' 0 24 }
  | .fdNetId => s.setFd { s.fd with netId := v.extractLsb' 0 24 }
  | .fdJa => s.setFd { s.fd with ja := JoinFields.ofWord v }
  | .fdCfList j => s.setFd { s.fd with cfList := s.fd.cfList.setWord j v }
  | .fdOpts j => s.setFd { s.fd with opts := s.fd.opts.setWord j v }
  | .keyApp j => { s with keys := { s.keys with app := s.keys.app.setWord j v } }
  | .keyNwkS j => { s with keys := { s.keys with nwkS := s.keys.nwkS.setWord j v } }
  | .keyAppS j => { s with keys := { s.keys with appS := s.keys.appS.setWord j v } }
  | .blk j => s.setBlk (s.blk.setWord j v)
  | .wbuf k => { s with mem := s.mem.writeWord (wbufBase + 4 * k) v }
  | .pbuf k => { s with mem := s.mem.writeWord (pbufBase + 4 * k) v }
  | .id => s
  | .cfg => s
  | .ctrl => s
  | .status => s
  | .result => s
  | .res _ => s
  | .ceRegion => s
  | .ceSel => s
  | .ceCount => s
  | .ceRatePwr => s
  | .ceRx1Off => s
  | .ceRx2Freq => s
  | .ceRx2Rate => s
  | .chFreq _ => s
  | .chStat _ => s
  | .bandReadyLo _ => s
  | .bandReadyHi _ => s
  | .bandLast _ => s
  | .bandNum _ => s

/-- What a host write of a location does (43_system.md rule R341): CTRL and STATUS always performed, a
location that is not writable never, any other dropped with ERR_BUSY while a command is pending. -/
def State.hostStore (s : State) (r : Reg) (v : Word) : State :=
  match r with
  | .ctrl => s.writeCtrl v
  | .status => s.writeStatus v
  | r =>
    if r.writable then
      if s.busy then { s with errBusy := true } else s.writeReg r v
    else s

/-- What a host write of an offset does (43_system.md rule R341); nothing at a reserved offset. -/
def State.writeAt (s : State) (o : Nat) (v : Word) : State :=
  match regAt s.ce.nch s.ce.nband o with
  | some r => s.hostStore r v
  | none => s

end Sys2Proof.Machine
end

