-- ==== Sys2Proof/Machine/HostPort.lean ====
section
/-! DEFINITION. The host agent: its steps (43_system.md rules R341 and R342, 30_encoding.md rule R139), the
placing of an address in the window (20_memory.md rule R102) and the expansion of pseudo-instructions
(30_encoding.md rule R140). -/

namespace Sys2Proof.Machine

open Sys2Proof

/-- An access at an absolute address, for a block at BASE (20_memory.md rule R102, 43_system.md rule R341):
an address outside the 4 KiB window is not an access to this block. -/
def lineAt (base addr : Nat) (access : BitVec 12 → HostLine) : HostLine :=
  if base ≤ addr ∧ addr - base ≤ 0xFFF then access (BitVec.ofNat 12 (addr - base)) else .elsewhere

/-- The host's program moved past its current line. -/
def State.nextLine (s : State) : State :=
  { s with host := { s.host with program := s.host.program.tail } }

/-- A word a host read returned, recorded with the host (log entry 3). -/
def State.receive (s : State) (w : Word) : State :=
  { s with host := { s.host with received := w :: s.host.received } }

/-- A host access that is not four bytes wide or not aligned is a BusError (20_memory.md rule R103), any
other has the given effect. -/
def onBus (offset : BitVec 12) (width : Nat) (s : State) : Host.Outcome State Fault Refusal :=
  if accessOk offset width then .next s else .fault (.busError offset width)

/-- One line of the host's program (43_system.md rules R341 and R342, 30_encoding.md rule R139): the
program moves past it unless it is a POLL whose word does not match yet. -/
def hostLine (line : HostLine) (s : State) : Host.Outcome State Fault Refusal :=
  match line with
  | .write offset width v => onBus offset width (s.nextLine.writeAt offset.toNat v)
  | .read offset width => onBus offset width (s.nextLine.receive (s.readAt offset.toNat))
  | .poll offset mask value =>
    onBus offset 4 (if s.readAt offset.toNat &&& mask = value then s.nextLine else s)
  | .elsewhere => .next s.nextLine
  | .hardReset => .next s.nextLine.hardReset

end Sys2Proof.Machine

namespace Sys2Proof

/-- `WR <reg>, <value>` (30_encoding.md rule R139). -/
def wr (r : Reg) (v : Word) : HostLine := .write (BitVec.ofNat 12 r.offset) 4 v

/-- `RD <reg>` (rule R139). -/
def rd (r : Reg) : HostLine := .read (BitVec.ofNat 12 r.offset) 4

/-- `WAIT` (rule R140): POLL STATUS, 0x1, 0x0. -/
def waitLine : HostLine := .poll (BitVec.ofNat 12 (Reg.status).offset) 1 0

/-- The four writes of a packed 16-byte string (rule R140). -/
def wrBlock (r : Fin 4 → Reg) (k : Block) : List HostLine :=
  [wr (r 0) (k.word 0), wr (r 1) (k.word 1), wr (r 2) (k.word 2), wr (r 3) (k.word 3)]

/-- BUFW's writes (rule R140), from word `k` of the window on: one a word, bytes past the end 0. -/
def wrWords (r : Nat → Reg) (k : Nat) : Nat → List Byte → List HostLine
  | 0, _ => []
  | n + 1, bs => wr (r k) (Col.ofBytes bs 0).toWord :: wrWords r (k + 1) n (bs.drop 4)

/-- BUFW (rule R140). -/
def wrBuf (r : Nat → Reg) (o : Nat) (bs : List Byte) : List HostLine :=
  wrWords r (o / 4) ((bs.length + 3) / 4) bs

/-- The command word of a command and the WAIT after it (rule R140). -/
def issueAndWait (op : BitVec 8) (idx : BitVec 8) (ksel : BitVec 4) : List HostLine :=
  [wr .cmd ((0 : BitVec 12) ++ ksel ++ idx ++ op), waitLine]

/-- ARG0 of CTR_XOR and MIC_DATA (30_encoding.md rule R133). -/
def rangeWord (off len : Byte) (dir : Bool) : Word :=
  (0 : BitVec 15) ++ BitVec.ofBool dir ++ len ++ off

/-- The expansions of rule R140. -/
def Pseudo.expand : Pseudo → List HostLine
  | .wait => [waitLine]
  | .keyApp k => wrBlock .keyApp k
  | .keyNwkS k => wrBlock .keyNwkS k
  | .keyAppS k => wrBlock .keyAppS k
  | .blkw k => wrBlock .blk k
  | .bufwWbuf o bs => wrBuf .wbuf o bs
  | .bufwPbuf o bs => wrBuf .pbuf o bs
  | .nop => issueAndWait 0x00 0 0
  | .encode m => wr (.arg 0) m :: issueAndWait 0x10 0 0
  | .decode n => wr (.arg 0) n :: issueAndWait 0x11 0 0
  | .phySize d o => wr (.arg 0) d :: wr (.arg 1) o :: issueAndWait 0x12 0 0
  | .isUpstream t => wr (.arg 0) t :: issueAndWait 0x13 0 0
  | .aesEnc s => issueAndWait 0x20 0 s
  | .aesDec s => issueAndWait 0x21 0 s
  | .ctrXor s off len dir addr fcnt =>
    wr (.arg 0) (rangeWord off len dir) :: wr (.arg 1) addr :: wr (.arg 2) fcnt :: issueAndWait 0x22 0 s
  | .cmac s off len => wr (.arg 0) (rangeWord off len false) :: issueAndWait 0x23 0 s
  | .micData s off len dir addr fcnt =>
    wr (.arg 0) (rangeWord off len dir) :: wr (.arg 1) addr :: wr (.arg 2) fcnt :: issueAndWait 0x24 0 s
  | .ceInit r => wr (.arg 0) r :: issueAndWait 0x30 0 0
  | .ceAdd i f => wr (.arg 0) f :: issueAndWait 0x31 i 0
  | .ceRemove i => issueAndWait 0x32 i 0
  | .ceMask i => issueAndWait 0x33 i 0
  | .ceUnmask i => issueAndWait 0x34 i 0
  | .ceSetRatePower r p => wr (.arg 0) r :: wr (.arg 1) p :: issueAndWait 0x35 0 0
  | .ceWaitTime t =>
    wr (.arg 0) (t.extractLsb' 0 32) :: wr (.arg 1) (t.extractLsb' 32 32) :: issueAndWait 0x36 0 0
  | .ceTxSetting => issueAndWait 0x37 0 0
  | .ceRx1Setting => issueAndWait 0x38 0 0
  | .ceRx2Setting => issueAndWait 0x39 0 0
  | .ceRegisterTx t l =>
    wr (.arg 0) (t.extractLsb' 0 32) :: wr (.arg 1) (t.extractLsb' 32 32) :: wr (.arg 2) l ::
      issueAndWait 0x3A 0 0
  | .ceCapacity => issueAndWait 0x3B 0 0
  | .timeOnAir sf bw l =>
    wr (.arg 0) ((0 : BitVec 16) ++ bw ++ sf) :: wr (.arg 1) l :: issueAndWait 0x3C 0 0

end Sys2Proof
end

