-- ==== Sys2Proof/Machine/Engine.lean ====
section
/-! DEFINITION. The engine step, the turn of the two agents, and the fetch of the next command (43_system.md
rule R344, 10_state.md rule R30). -/

namespace Sys2Proof.Machine

open Sys2Proof

/-- The engine step (43_system.md rule R344): the command word in CMD, executed whole; a word that is no
command completes with ILLEGAL (30_encoding.md rule R136). -/
def engineStep (s : State) : Host.Outcome State Fault Refusal :=
  match decode s.cmd with
  | .command i => exec i s
  | .illegal _ => .next (s.finish .illegal)

/-- The turn list moved past its first entry (log entry 1). -/
def State.nextTurn (s : State) : State := { s with host := { s.host with turns := s.host.turns.tail } }

/-- The host's next line, if it has one. -/
def State.line? (s : State) : Option HostLine := s.host.program.head?

/-- Who steps while a command is pending (log entry 1): the agent the turn list names; the engine when the
list is used up, or when the host has no line left. -/
def State.pendingTurn (s : State) : Agent :=
  match s.host.turns.head?, s.line? with
  | some .host, some _ => .host
  | _, _ => .engine

/-- The host's step: its next line, or nothing when it has none (the block waits, 60_exceptions.md R380). -/
def hostStep (s : State) : Host.Outcome State Fault Refusal :=
  match s.line? with
  | some line => hostLine line s
  | none => .next s

/-- The next step: the host's while no command is pending, else the agent's whose turn it is (rule R344). -/
def nextStep (s : State) : Host.Outcome State Fault Refusal :=
  if s.busy then
    match s.pendingTurn with
    | .engine => engineStep s.nextTurn
    | .host => hostStep s.nextTurn
  else hostStep s

/-- The state with a command word pending and the engine's turn next (log entry 2). -/
def State.withPending (s : State) (w : Word) : State :=
  { s with
    cmd := w
    busy := true
    done := false
    host := { s.host with turns := .engine :: s.host.turns } }

end Sys2Proof.Machine
end

