-- ==== Sys2Proof/Machine/Step.lean ====
section
/-! DEFINITION. The step of the machine, and a command word placed where the next step runs it. -/

namespace Sys2Proof.Machine

open Sys2Proof

/-- One step of the machine: a host access or the engine step (43_system.md rules R341 to R344). -/
def step (s : State) : Host.Outcome State Fault Refusal := nextStep s

/-- The state with a command word issued and the engine's turn next, so that the very next step runs it.
The engine fetches nothing: the command it runs is the word in CMD (10_state.md rule R33). -/
def State.withFetchWord (s : State) (nbits w : Nat) : State :=
  s.withPending (BitVec.ofNat 32 (w % 2 ^ nbits))

end Sys2Proof.Machine
end

