-- ==== Sys2Proof/Safety.lean ====
section
/-! DEFINITION. The vocabulary of the claims: the invariants of the machine (10_state.md rule R61), what no
command changes, the malformed frames (60_exceptions.md rule R363), the defined bits of the writable
registers (10_state.md rules R31 and R64) and the field GF(2^8) the S-box is built on (41_crypto.md R221). -/

namespace Sys2Proof

/-- The defined bits of a writable register (10_state.md rules R31 and R40 to R49). -/
def definedBits : Reg → Word
  | .fdType => 0x00000007
  | .fdFlags => 0x0000001F
  | .fdPort => 0x000000FF
  | .fdDevNonce => 0x0000FFFF
  | .fdAppNonce => 0x00FFFFFF
  | .fdNetId => 0x00FFFFFF
  | .fdJa => 0x00001FF7
  | _ => 0xFFFFFFFF

/-- A key register (10_state.md rule R50). -/
def Reg.isKey : Reg → Bool
  | .keyApp _ => true
  | .keyNwkS _ => true
  | .keyAppS _ => true
  | _ => false

/-- The opcodes of 30_encoding.md rule R135. -/
def opcodeTable : List (BitVec 8) :=
  [0x00, 0x10, 0x11, 0x12, 0x13, 0x20, 0x21, 0x22, 0x23, 0x24, 0x30, 0x31, 0x32, 0x33, 0x34, 0x35,
   0x36, 0x37, 0x38, 0x39, 0x3A, 0x3B, 0x3C]

/-- An illegal command word (30_encoding.md rule R136), causes (a), (b) and (c). -/
def IllegalWord (w : Word) : Prop :=
  rsvField w ≠ 0 ∨ opField w ∉ opcodeTable ∨
  (0x20 ≤ (opField w).toNat ∧ (opField w).toNat ≤ 0x24 ∧ 3 ≤ (kselField w).toNat)

/-- A command that reads the keys (41_crypto.md rule R239). -/
def Instr.readsKeys : Instr → Bool
  | .encode => true
  | .decode => true
  | .aesEnc _ => true
  | .aesDec _ => true
  | .ctrXor _ => true
  | .cmac _ => true
  | .micData _ => true
  | _ => false

/-- Eight steps of the product of two bytes in GF(2^8) modulo 0x11B (41_crypto.md rule R223), one for each
bit of the second from bit `k` on. -/
def gfTimesFrom (a b : Byte) (k : Nat) : Nat → Byte
  | 0 => 0
  | n + 1 => (if b.getLsbD k then a else 0) ^^^ gfTimesFrom (xtime a) b (k + 1) n

/-- The product of two bytes in GF(2^8) modulo 0x11B (41_crypto.md rule R223). -/
def gfTimes (a b : Byte) : Byte := gfTimesFrom a b 0 8

/-- The affine map of the S-box (41_crypto.md rule R221). -/
def sboxAffine (b : Byte) : Byte :=
  b ^^^ b.rotateLeft 1 ^^^ b.rotateLeft 2 ^^^ b.rotateLeft 3 ^^^ b.rotateLeft 4 ^^^ 0x63

/-- A word with an opcode and its reserved bits 0 (30_encoding.md rules R130 and R135). -/
def CommandWord (op : BitVec 8) (w : Word) : Prop := opField w = op ∧ rsvField w = 0

/-- A command that reads IDX (30_encoding.md rule R135, column "uses IDX"). -/
def Instr.usesIdx : Instr → Bool
  | .ceAdd _ => true
  | .ceRemove _ => true
  | .ceMask _ => true
  | .ceUnmask _ => true
  | _ => false

/-- A command that reads KSEL (30_encoding.md rule R135, column "uses KSEL"). -/
def Instr.usesKsel : Instr → Bool
  | .aesEnc _ => true
  | .aesDec _ => true
  | .ctrXor _ => true
  | .cmac _ => true
  | .micData _ => true
  | _ => false

end Sys2Proof

namespace Sys2Proof.Machine

open Sys2Proof

/-- How many slots of the channel table are eligible in a band (10_state.md rule R61, invariant 1). -/
def ChanEngine.liveCount (ce : ChanEngine) (b : Nat) : Nat := ce.chans.countP (fun ch => ch.eligible b)

/-- The sum of the per-band counts (rule R61, invariant 2). -/
def ChanEngine.bandSum (ce : ChanEngine) : Nat := (ce.bands.map (fun band => band.num.toNat)).sum

/-- The capacities an instance may have (00_scope.md rule R7). -/
structure ChanEngine.Sized (ce : ChanEngine) : Prop where
  nch_pos   : 1 ≤ ce.nch
  nch_le    : ce.nch ≤ 64
  nband_pos : 1 ≤ ce.nband
  nband_le  : ce.nband ≤ 32

/-- The invariants of the channel engine (10_state.md rule R61), for an instance of legal capacities. -/
structure ChanEngine.Inv (ce : ChanEngine) : Prop where
  sized    : ce.Sized
  counts   : ∀ b band, ce.bands[b]? = some band → band.num.toNat = ce.liveCount b
  total_eq : ce.total.toNat = ce.bandSum
  assigned : ∀ (i : Nat) (ch : Channel), ce.chans[i]? = some ch → ch.freq ≠ 0 → ch.band.toNat < ce.nband
  sel_none : ce.sel = none ↔ ce.total = 0
  sel_live : ∀ sel, ce.sel = some sel → ce.eligibleAt sel.band sel.chan = true
  sel_last : ∀ sel, ce.sel = some sel →
    ∃ band, ce.bands[sel.band]? = some band ∧ band.last = some sel.chan
  last_lt  : ∀ (b : Nat) (band : Band) (c : Nat),
    ce.bands[b]? = some band → band.last = some c → c < ce.nch

/-- The invariant of the whole machine: rule R61 and the canonical form of the buffers' cells. -/
structure State.Inv (s : State) : Prop where
  channels : s.ce.Inv
  buffers  : s.mem.wf = true

/-- What no command changes: the instance's parameters, CTRL, ERR_BUSY, CMD, ARG0 to ARG3, RES2 and RES3,
the bytes of PBUF, and the host (10_state.md rules R32 to R37 and R53, 30_encoding.md rule R134). -/
structure Untouched (s t : State) : Prop where
  regionPort : t.regionPort = s.regionPort
  nch        : t.ce.nch = s.ce.nch
  nband      : t.ce.nband = s.ce.nband
  ie         : t.ie = s.ie
  errBusy    : t.errBusy = s.errBusy
  cmd        : t.cmd = s.cmd
  args       : t.args = s.args
  res2       : t.ress.r2 = s.ress.r2
  res3       : t.ress.r3 = s.ress.r3
  pbuf       : ∀ o, o < 256 → t.pbuf o = s.pbuf o
  host       : t.host = s.host

/-- A command ended (60_exceptions.md rule R360): RESULT holds the code, BUSY is 0 and DONE is 1. -/
structure Ended (t : State) (code : ResultCode) : Prop where
  result : t.result = code
  busy   : t.busy = false
  done   : t.done = true

/-- A malformed frame (60_exceptions.md rule R363): the length ARG0 gives and the bytes of WBUF. -/
def BadFrame (s : State) : Prop :=
  s.frameLen = 0 ∨ 6 ≤ s.wireType.toNat ∨ (s.wbuf 0).extractLsb' 0 2 ≠ 0 ∨
  (s.wireType = 0 ∧ s.frameLen ≠ 23) ∨
  (s.wireType = 1 ∧ s.frameLen ≠ 17 ∧ s.frameLen ≠ 33) ∨
  (2 ≤ s.wireType.toNat ∧ (s.frameLen < 12 ∨ s.frameLen < 12 + s.wireOptsLen))

/-- `n` recomputations of the selection (42_channel_engine.md rule R297). -/
def ChanEngine.cycles : Nat → ChanEngine → ChanEngine
  | 0, ce => ce
  | n + 1, ce => ChanEngine.cycles n ce.cycleChannel

/-- The exact length of the data frame the descriptor names (40_frame_codec.md rule R164). -/
def FrameDesc.dataFrameLen (fd : FrameDesc) : Nat :=
  if fd.flags.portPresent then 13 + fd.len.optsLen.toNat + fd.len.dataLen.toNat
  else 12 + fd.len.optsLen.toNat

/-- The exact length of the JoinAccept the descriptor names (40_frame_codec.md rule R163). -/
def FrameDesc.joinAcceptLen (fd : FrameDesc) : Nat := if fd.ja.cfListPresent then 33 else 17

/-- The state DECODE meets when the host loads the same keys again after an ENCODE, lets the descriptor be
anything and gives the length ENCODE answered (40_frame_codec.md rule R174). -/
def State.reload (t : State) (keys : Keys) (fd : FrameDesc) : State :=
  { t with keys := keys, fd := fd, args := { t.args with r0 := t.ress.r0 } }

end Sys2Proof.Machine
end

