-- ==== Sys2Proof/Certificates/Slice0/Obligations.lean ====
section
/-! DEFINITION. The statements for the provers: the rules of the spec as claims about the machine. Each
docstring names the rule it formalises; a clause that rests on a choice of the model says so. -/

open Sys2Proof Sys2Proof.Machine

/-- Words written out from the spec's encoding decode to the command or the illegality the rules give
(30_encoding.md rules R130, R135 to R137; 95_test_vectors.md part 4.1). -/
def Obligations.SpecWordsDecode : Prop :=
  decode 0x00000000 = .command .nop ∧ decode 0x00000100 = .command .nop ∧
  decode 0x00100000 = .illegal .reservedBits ∧ decode 0x80000010 = .illegal .reservedBits ∧
  decode 0x00000014 = .illegal .unknownOpcode ∧ decode 0x00000025 = .illegal .unknownOpcode ∧
  decode 0x0000003D = .illegal .unknownOpcode ∧ decode 0x000000FF = .illegal .unknownOpcode ∧
  decode 0x00030020 = .illegal .illegalKeySelect ∧ decode 0x000F0024 = .illegal .illegalKeySelect ∧
  decode 0x00050013 = .command .isUpstream ∧ decode 0x00020023 = .command (.cmac 2) ∧
  decode 0x0000FF3B = .command .ceCapacity ∧ decode 0x00001031 = .command (.ceAdd 16)

/-- Every well-formed command is read back from its own command word (rules R130, R132 and R135). -/
def Obligations.DecodeReadsBackEncode : Prop :=
  ∀ i : Instr, i.wf = true → decode (encode i) = .command i

/-- The opcode table: a word with reserved bits 0 decodes to the command of its opcode, with IDX taken from
the word where the command uses it and KSEL where it uses that, every other IDX and KSEL bit ignored; and a
command is decoded from no other word (30_encoding.md rules R130, R132, R135 and R137). -/
def Obligations.DecodeFollowsTheOpcodeTable : Prop :=
  ∀ (w : Word) (i : Instr), i.wf = true →
    (decode w = .command i ↔
      rsvField w = 0 ∧ i.opcode = opField w ∧ (i.usesIdx = true → i.idx = idxField w) ∧
        (i.usesKsel = true → i.ksel = kselField w))

/-- A command word is illegal exactly for the causes of rule R136, checked in that order, and the engine step on
it completes with ILLEGAL and changes RESULT, BUSY and DONE only (30_encoding.md rule R136, 60_exceptions.md
rule R365). -/
def Obligations.IllegalWordOnlyCompletes : Prop :=
  (∀ w : Word,
    ((∃ r, decode w = .illegal r) ↔ IllegalWord w) ∧
    (rsvField w ≠ 0 → decode w = .illegal .reservedBits) ∧
    (rsvField w = 0 → opField w ∉ opcodeTable → decode w = .illegal .unknownOpcode) ∧
    (rsvField w = 0 → 0x20 ≤ (opField w).toNat → (opField w).toNat ≤ 0x24 → 3 ≤ (kselField w).toNat →
      decode w = .illegal .illegalKeySelect)) ∧
  (∀ s : State, IllegalWord s.cmd →
    engineStep s = .next { s with result := .illegal, busy := false, done := true })

/-- With a command pending and the engine's turn, the step is the engine step, and that runs the command the word
in CMD decodes to (43_system.md rule R344); around it the step only moves the model's turn list on (log
entry 1). -/
def Obligations.StepRunsDecodedCommand : Prop :=
  ∀ s : State, s.busy = true → s.pendingTurn = .engine →
    step s = engineStep { s with host := { s.host with turns := s.host.turns.tail } } ∧
    (∀ i : Instr, decode s.cmd = .command i →
      step s = exec i { s with host := { s.host with turns := s.host.turns.tail } })

/-- While a command is pending and the host has a line left, either agent may take the next step: each of
the two steps is the machine's step for some turn list (rule R344, "any interleaving"; log entry 1). With no
command pending the host's line is the step. -/
def Obligations.EitherAgentMayStep : Prop :=
  ∀ (s : State) (line : HostLine), s.host.program.head? = some line →
    (s.busy = false → step s = hostLine line s) ∧
    (s.busy = true →
      step { s with host := { s.host with turns := .host :: s.host.turns } } = hostLine line s ∧
      step { s with host := { s.host with turns := .engine :: s.host.turns } } = engineStep s)

/-- Every command ends, on every state: RESULT, BUSY and DONE as `finish` leaves them, and the parameters,
CTRL, ERR_BUSY, CMD, the ARG registers, RES2, RES3 and PBUF unchanged (rules R344 and R360; 10_state.md
rules R32, R34 and R53; 30_encoding.md rule R134). -/
def Obligations.EveryCommandEnds : Prop :=
  ∀ (i : Instr) (s : State), ∃ t c, exec i s = .next t ∧ Ended t c ∧ Untouched s t

/-- Each command writes only the registers the spec lists for it: the descriptor by DECODE, BLK by AES_ENC,
AES_DEC and CMAC, the buffers by ENCODE, DECODE and CTR_XOR, RES0 and RES1 as rule R134 lists, the channel
engine by its own commands, its settings and region by CE_INIT (and rate and power by CE_SET_RATE_POWER)
(10_state.md rules R35, R51, R58, R59 and R60; 30_encoding.md rule R134). -/
def Obligations.OnlyListedCommandsWrite : Prop :=
  ∀ (i : Instr) (s t : State), exec i s = .next t →
    (i ≠ .decode → t.fd = s.fd) ∧
    ((∀ k, i ≠ .aesEnc k ∧ i ≠ .aesDec k ∧ i ≠ .cmac k) → t.blk = s.blk) ∧
    ((∀ k, i ≠ .ctrXor k) → i ≠ .encode → i ≠ .decode → t.mem = s.mem) ∧
    ((∀ k, i ≠ .micData k) → i ∉ [.encode, .phySize, .isUpstream, .ceWaitTime, .ceTxSetting,
      .ceRx1Setting, .ceRx2Setting, .ceCapacity, .timeOnAir] → t.ress.r0 = s.ress.r0) ∧
    (i ∉ [.ceWaitTime, .ceTxSetting, .ceRx1Setting, .ceRx2Setting] → t.ress.r1 = s.ress.r1) ∧
    ((∀ k, i ≠ .ceAdd k ∧ i ≠ .ceRemove k ∧ i ≠ .ceMask k ∧ i ≠ .ceUnmask k) → i ≠ .ceInit →
      i ≠ .ceRegisterTx → i ≠ .ceSetRatePower → t.ce = s.ce) ∧
    (i ≠ .ceInit → t.ce.region = s.ce.region ∧ t.ce.rx1Offset = s.ce.rx1Offset ∧
      t.ce.rx2Freq = s.ce.rx2Freq ∧ t.ce.rx2Rate = s.ce.rx2Rate) ∧
    (i ≠ .ceInit → i ≠ .ceSetRatePower → t.ce.rate = s.ce.rate ∧ t.ce.power = s.ce.power)

/-- NOP completes with OK and changes nothing else; the keys are not cleared (43_system.md rule R340). -/
def Obligations.NopOnlyCompletes : Prop :=
  (∀ w, CommandWord 0x00 w → decode w = .command .nop) ∧ decode 0x00100000 = .illegal .reservedBits ∧
  (∀ s : State, exec .nop s = .next { s with result := .ok, busy := false, done := true })

/-- A JoinRequest is encoded as its 23-byte layout says, and WBUF past it is unchanged (40_frame_codec.md
rules R162 and R168). -/
def Obligations.EncodeJoinRequestLayout : Prop :=
  ∀ s : State, s.fd.type = 0 → 23 ≤ s.maxLen →
    ∃ t, exec .encode s = .next t ∧ Ended t .ok ∧ Untouched s t ∧
      t.ress.r0 = 23 ∧ t.keys = Keys.zero ∧ t.fd = s.fd ∧ t.blk = s.blk ∧ t.ce = s.ce ∧
      t.ress.r1 = s.ress.r1 ∧
      t.wbuf 0 = 0x00 ∧
      t.wbufBytes 1 8 = le s.fd.appEuiLo 4 ++ le s.fd.appEuiHi 4 ∧
      t.wbufBytes 9 8 = le s.fd.devEuiLo 4 ++ le s.fd.devEuiHi 4 ∧
      t.wbufBytes 17 2 = le s.fd.devNonce 2 ∧
      t.wbufBytes 19 4 = mic32 (cmacTag s.keys.app (t.wbufBytes 0 19)) ∧
      (∀ a, a < wbufBase ∨ wbufBase + 23 ≤ a → t.mem.read a = s.mem.read a)

/-- A JoinAccept is encoded as its layout says: MHDR in the clear, then body and MIC, the MIC over the
plaintext, enciphered block by block with the inverse cipher (40_frame_codec.md rules R163 and R169). -/
def Obligations.EncodeJoinAcceptLayout : Prop :=
  ∀ s : State, s.fd.type = 1 → s.fd.joinAcceptLen ≤ s.maxLen →
    ∃ t msg, exec .encode s = .next t ∧ Ended t .ok ∧ Untouched s t ∧
      t.ress.r0.toNat = s.fd.joinAcceptLen ∧ t.keys = Keys.zero ∧ t.fd = s.fd ∧ t.blk = s.blk ∧
      t.ce = s.ce ∧ t.ress.r1 = s.ress.r1 ∧
      msg = 0x20 :: (le s.fd.appNonce 3 ++ le s.fd.netId 3 ++ le s.fd.devAddr 4 ++
        [BitVec.ofNat 8 (16 * s.fd.ja.rx1DrOffset.toNat + s.fd.ja.rx2Dr.toNat),
         BitVec.ofNat 8 s.fd.ja.rxDelay.toNat] ++
        (if s.fd.ja.cfListPresent then s.fd.cfList.bytes else [])) ∧
      t.wbuf 0 = 0x20 ∧
      t.wbufBytes 1 (s.fd.joinAcceptLen - 1) =
        mapBlocks (aesInv s.keys.app) ((s.fd.joinAcceptLen - 1) / 16)
          (msg.drop 1 ++ mic32 (cmacTag s.keys.app msg)) ∧
      (∀ a, a < wbufBase ∨ wbufBase + s.fd.joinAcceptLen ≤ a → t.mem.read a = s.mem.read a)

/-- A data frame is encoded as its layout says: FCtrl bit by bit, the low 16 bits of the counter, the options
in the clear, the port and the enciphered payload when a port is present, the MIC over all of it
(40_frame_codec.md rules R164 and R170). -/
def Obligations.EncodeDataFrameLayout : Prop :=
  ∀ s : State, 2 ≤ s.fd.type.toNat → s.fd.type.toNat ≤ 5 → s.fd.len.optsLen.toNat ≤ 15 →
    (s.fd.flags.portPresent = true ∨ s.fd.len.dataLen = 0) → s.fd.dataFrameLen ≤ s.maxLen →
    ∃ t, exec .encode s = .next t ∧ Ended t .ok ∧ Untouched s t ∧
      t.ress.r0.toNat = s.fd.dataFrameLen ∧ t.keys = Keys.zero ∧ t.fd = s.fd ∧ t.blk = s.blk ∧
      t.ce = s.ce ∧ t.ress.r1 = s.ress.r1 ∧
      (t.wbuf 0).toNat = 32 * s.fd.type.toNat ∧
      t.wbufBytes 1 4 = le s.fd.devAddr 4 ∧
      (t.wbuf 5).getLsbD 7 = s.fd.flags.adr ∧
      (t.wbuf 5).getLsbD 6 = (isUp s.fd.type && s.fd.flags.adrAckReq) ∧
      (t.wbuf 5).getLsbD 5 = s.fd.flags.ack ∧
      (t.wbuf 5).getLsbD 4 = (!isUp s.fd.type && s.fd.flags.pending) ∧
      (t.wbuf 5).toNat % 16 = s.fd.len.optsLen.toNat ∧
      t.wbufBytes 6 2 = le s.fd.fCnt 2 ∧
      t.wbufBytes 8 s.fd.len.optsLen.toNat = s.fd.opts.bytes.take s.fd.len.optsLen.toNat ∧
      (s.fd.flags.portPresent = true →
        t.wbuf (8 + s.fd.len.optsLen.toNat) = s.fd.port ∧
        t.wbufBytes (9 + s.fd.len.optsLen.toNat) s.fd.len.dataLen.toNat =
          ctrXor (if s.fd.port = 0 then s.keys.nwkS else s.keys.appS) (!isUp s.fd.type) s.fd.devAddr
            s.fd.fCnt (s.pbufBytes 0 s.fd.len.dataLen.toNat)) ∧
      t.wbufBytes (s.fd.dataFrameLen - 4) 4 =
        micData s.keys.nwkS (!isUp s.fd.type) s.fd.devAddr s.fd.fCnt
          (t.wbufBytes 0 (s.fd.dataFrameLen - 4)) ∧
      (∀ a, a < wbufBase ∨ wbufBase + s.fd.dataFrameLen ≤ a → t.mem.read a = s.mem.read a)

/-- OP 0x10 is ENCODE; it fails for the causes of rule R362's ENCODE row, and then writes RES0 = 0, clears the
keys and changes nothing else (60_exceptions.md rule R362, 40_frame_codec.md rule R167). -/
def Obligations.EncodeFailuresChangeNothingElse : Prop :=
  (∀ w, CommandWord 0x10 w → decode w = .command .encode) ∧
  ∀ s : State,
    (6 ≤ s.fd.type.toNat ∨
      (s.fd.type = 0 ∧ s.maxLen < 23) ∨ (s.fd.type = 1 ∧ s.maxLen < s.fd.joinAcceptLen) ∨
      (2 ≤ s.fd.type.toNat ∧
        (15 < s.fd.len.optsLen.toNat ∨ (s.fd.flags.portPresent = false ∧ s.fd.len.dataLen ≠ 0) ∨
          s.maxLen < s.fd.dataFrameLen))) →
    exec .encode s = .next { s with
      ress := { s.ress with r0 := 0 }
      keys := Keys.zero
      result := .fail
      busy := false
      done := true }

/-- OP 0x11 is DECODE; it reports BAD for exactly the malformed frames of rule R363, and then clears the keys
and changes nothing else; for every other frame it reports OK or MIC. -/
def Obligations.DecodeBadExactlyForMalformed : Prop :=
  (∀ w, CommandWord 0x11 w → decode w = .command .decode) ∧
  ∀ s : State,
    (BadFrame s → exec .decode s = .next { s with
      keys := Keys.zero
      result := .bad
      busy := false
      done := true }) ∧
    (¬ BadFrame s → ∃ t, exec .decode s = .next t ∧ (t.result = .ok ∨ t.result = .mic))

/-- DECODE of a well-formed JoinRequest writes its fields whatever the MIC is, and reports whether the MIC
matches (40_frame_codec.md rule R171, 60_exceptions.md rule R364). -/
def Obligations.DecodeJoinRequestFields : Prop :=
  ∀ s : State, ¬ BadFrame s → s.wireType = 0 →
    ∃ t, exec .decode s = .next t ∧ Untouched s t ∧
      Ended t (if mic32 (cmacTag s.keys.app (s.wbufBytes 0 19)) = s.wbufBytes 19 4 then .ok else .mic) ∧
      t.keys = Keys.zero ∧ t.mem = s.mem ∧ t.blk = s.blk ∧ t.ce = s.ce ∧ t.ress = s.ress ∧
      t.fd = { s.fd with
        type := 0
        appEuiLo := wordLe (s.wbufBytes 1 4)
        appEuiHi := wordLe (s.wbufBytes 5 4)
        devEuiLo := wordLe (s.wbufBytes 9 4)
        devEuiHi := wordLe (s.wbufBytes 13 4)
        devNonce := BitVec.ofNat 16 (uintLe (s.wbufBytes 17 2)) }

/-- DECODE of a well-formed JoinAccept deciphers bytes 1 to len-1 in place with the forward cipher, compares
the MIC over the plaintext and writes the fields from it, whatever the MIC is (rules R163 and R171). -/
def Obligations.DecodeJoinAcceptFields : Prop :=
  ∀ s : State, ¬ BadFrame s → s.wireType = 1 →
    ∃ t, exec .decode s = .next t ∧ Untouched s t ∧
      Ended t (if mic32 (cmacTag s.keys.app (t.wbufBytes 0 (s.frameLen - 4))) =
        t.wbufBytes (s.frameLen - 4) 4 then .ok else .mic) ∧
      t.keys = Keys.zero ∧ t.blk = s.blk ∧ t.ce = s.ce ∧ t.ress = s.ress ∧
      t.wbuf 0 = s.wbuf 0 ∧
      t.wbufBytes 1 (s.frameLen - 1) =
        mapBlocks (aes s.keys.app) ((s.frameLen - 1) / 16) (s.wbufBytes 1 (s.frameLen - 1)) ∧
      (∀ a, a < wbufBase ∨ wbufBase + s.frameLen ≤ a → t.mem.read a = s.mem.read a) ∧
      t.fd = { s.fd with
        type := 1
        appNonce := BitVec.ofNat 24 (uintLe (t.wbufBytes 1 3))
        netId := BitVec.ofNat 24 (uintLe (t.wbufBytes 4 3))
        devAddr := wordLe (t.wbufBytes 7 4)
        ja :=
          { rx1DrOffset := (t.wbuf 11).extractLsb' 4 3
            rx2Dr := (t.wbuf 11).extractLsb' 0 4
            rxDelay := (t.wbuf 12).extractLsb' 0 4
            cfListPresent := decide (s.frameLen = 33) }
        cfList := if s.frameLen = 33 then Block.ofBytes (t.wbufBytes 13 16) else s.fd.cfList }

/-- DECODE of a well-formed data frame compares the MIC over the received bytes, deciphers the payload in
place and writes the fields, whatever the MIC is; FD_PORT and the options past FOptsLen keep their values
when the frame has none (rules R164, R166 and R171). -/
def Obligations.DecodeDataFrameFields : Prop :=
  ∀ (s : State) (ol dl doff : Nat) (port : Bool), ¬ BadFrame s → 2 ≤ s.wireType.toNat →
    ol = (s.wbuf 5).toNat % 16 → port = decide (12 + ol < s.frameLen) →
    dl = (if port then s.frameLen - 13 - ol else 0) → doff = (if port then 9 + ol else 0) →
    ∃ t, exec .decode s = .next t ∧ Untouched s t ∧
      Ended t (if micData s.keys.nwkS (!isUp s.wireType) (wordLe (s.wbufBytes 1 4))
        (wordLe (s.wbufBytes 6 2)) (s.wbufBytes 0 (s.frameLen - 4)) = s.wbufBytes (s.frameLen - 4) 4
        then .ok else .mic) ∧
      t.keys = Keys.zero ∧ t.blk = s.blk ∧ t.ce = s.ce ∧ t.ress = s.ress ∧
      (port = true → t.wbufBytes doff dl =
        ctrXor (if s.wbuf (8 + ol) = 0 then s.keys.nwkS else s.keys.appS) (!isUp s.wireType)
          (wordLe (s.wbufBytes 1 4)) (wordLe (s.wbufBytes 6 2)) (s.wbufBytes doff dl)) ∧
      (∀ a, a < wbufBase + doff ∨ wbufBase + doff + dl ≤ a → t.mem.read a = s.mem.read a) ∧
      t.fd = { s.fd with
        type := s.wireType
        devAddr := wordLe (s.wbufBytes 1 4)
        fCnt := wordLe (s.wbufBytes 6 2)
        flags :=
          { ack := (s.wbuf 5).getLsbD 5
            adr := (s.wbuf 5).getLsbD 7
            adrAckReq := isUp s.wireType && (s.wbuf 5).getLsbD 6
            pending := !isUp s.wireType && (s.wbuf 5).getLsbD 4
            portPresent := port }
        port := if port then s.wbuf (8 + ol) else s.fd.port
        len := ⟨BitVec.ofNat 8 ol, BitVec.ofNat 8 dl, BitVec.ofNat 8 doff, 8⟩
        opts := Block.ofBytes (s.wbufBytes 8 ol ++ s.fd.opts.bytes.drop ol) }

/-- DECODE neither reads nor writes a byte outside WBUF[0..len): its answer is the same for any two buffers
that agree there, and every other byte keeps its value (40_frame_codec.md rules R171 and R176). -/
def Obligations.DecodeStaysInsideTheFrame : Prop :=
  ∀ (s : State) (m : Memory),
    (∀ o, o < s.frameLen → m.read (wbufBase + o) = s.mem.read (wbufBase + o)) →
    ∃ t u, exec .decode s = .next t ∧ exec .decode { s with mem := m } = .next u ∧
      t.result = u.result ∧ t.fd = u.fd ∧
      (∀ o, o < s.frameLen → t.mem.read (wbufBase + o) = u.mem.read (wbufBase + o)) ∧
      (∀ a, a < wbufBase ∨ wbufBase + s.frameLen ≤ a →
        t.mem.read a = s.mem.read a ∧ u.mem.read a = m.read a)

/-- A JoinRequest that ENCODE built decodes to OK, with the fields ENCODE read (40_frame_codec.md R174). -/
def Obligations.RoundTripJoinRequest : Prop :=
  ∀ (s t : State) (fd : FrameDesc), s.fd.type = 0 → exec .encode s = .next t → t.result = .ok →
    ∃ u, exec .decode (t.reload s.keys fd) = .next u ∧ u.result = .ok ∧
      u.fd = { fd with
        type := 0
        appEuiLo := s.fd.appEuiLo
        appEuiHi := s.fd.appEuiHi
        devEuiLo := s.fd.devEuiLo
        devEuiHi := s.fd.devEuiHi
        devNonce := s.fd.devNonce }

/-- A JoinAccept that ENCODE built decodes to OK, with the fields ENCODE read and its whole plaintext back in
WBUF: MHDR, the body (DLSettings, RxDelay and the CFList when present among it) and the MIC over them
(40_frame_codec.md rule R174). -/
def Obligations.RoundTripJoinAccept : Prop :=
  ∀ (s t : State) (fd : FrameDesc) (msg : List Byte), s.fd.type = 1 → exec .encode s = .next t →
    t.result = .ok →
    msg = 0x20 :: (le s.fd.appNonce 3 ++ le s.fd.netId 3 ++ le s.fd.devAddr 4 ++
      [BitVec.ofNat 8 (16 * s.fd.ja.rx1DrOffset.toNat + s.fd.ja.rx2Dr.toNat),
       BitVec.ofNat 8 s.fd.ja.rxDelay.toNat] ++
      (if s.fd.ja.cfListPresent then s.fd.cfList.bytes else [])) →
    ∃ u, exec .decode (t.reload s.keys fd) = .next u ∧ u.result = .ok ∧
      u.wbufBytes 0 s.fd.joinAcceptLen = msg ++ mic32 (cmacTag s.keys.app msg) ∧
      u.fd = { fd with
        type := 1
        appNonce := s.fd.appNonce
        netId := s.fd.netId
        devAddr := s.fd.devAddr
        ja := s.fd.ja
        cfList := if s.fd.ja.cfListPresent then s.fd.cfList else fd.cfList }

/-- A data frame that ENCODE built with a counter below 2^16 decodes to OK, with the fields ENCODE read
(flags of the other direction 0) and the plaintext payload in WBUF (40_frame_codec.md rule R174,
90_conflicts.md C4). -/
def Obligations.RoundTripDataFrame : Prop :=
  ∀ (s t : State) (fd : FrameDesc), 2 ≤ s.fd.type.toNat → s.fd.type.toNat ≤ 5 →
    s.fd.fCnt.toNat < 2 ^ 16 → exec .encode s = .next t → t.result = .ok →
    ∃ u, exec .decode (t.reload s.keys fd) = .next u ∧ u.result = .ok ∧
      (s.fd.flags.portPresent = true →
        u.wbufBytes (9 + s.fd.len.optsLen.toNat) s.fd.len.dataLen.toNat =
          s.pbufBytes 0 s.fd.len.dataLen.toNat) ∧
      u.fd = { fd with
        type := s.fd.type
        devAddr := s.fd.devAddr
        fCnt := s.fd.fCnt
        flags := { s.fd.flags with
          adrAckReq := isUp s.fd.type && s.fd.flags.adrAckReq
          pending := !isUp s.fd.type && s.fd.flags.pending }
        port := if s.fd.flags.portPresent then s.fd.port else fd.port
        len :=
          { optsLen := s.fd.len.optsLen
            dataLen := s.fd.len.dataLen
            dataOff := if s.fd.flags.portPresent then 9 + s.fd.len.optsLen else 0
            optsOff := 8 }
        opts := Block.ofBytes (s.fd.opts.bytes.take s.fd.len.optsLen.toNat ++
          fd.opts.bytes.drop s.fd.len.optsLen.toNat) }

/-- PHY_SIZE answers the size formula, IS_UPSTREAM answers 1 for type codes 0, 2 and 4 and 0 for every other
3-bit code, both complete with OK, change nothing else and read no other ARG bits; with a port and no payload
PHY_SIZE answers one less than the frame's length (40_frame_codec.md rules R172 and R173). -/
def Obligations.CodecHelpersAnswer : Prop :=
  (∀ w, CommandWord 0x12 w → decode w = .command .phySize) ∧
  (∀ w, CommandWord 0x13 w → decode w = .command .isUpstream) ∧
  (∀ (s : State) (dl ol : Nat), dl = s.args.r0.toNat % 256 → ol = s.args.r1.toNat % 256 →
    ∃ t, exec .phySize s = .next t ∧
      t = { s with
        ress := { s.ress with r0 := t.ress.r0 }
        result := .ok
        busy := false
        done := true } ∧
      t.ress.r0.toNat = 8 + ol + (if dl > 0 then 1 + dl else 0) + 4 ∧
      12 ≤ t.ress.r0.toNat ∧ t.ress.r0.toNat ≤ 523 ∧
      (∀ fd : FrameDesc, fd.flags.portPresent = true → fd.len.dataLen = 0 → fd.len.optsLen.toNat = ol →
        dl = 0 → t.ress.r0.toNat + 1 = fd.dataFrameLen)) ∧
  (∀ (s : State) (ty : Nat), ty = s.args.r0.toNat % 8 →
    exec .isUpstream s = .next { s with
      ress := { s.ress with r0 := if ty = 0 ∨ ty = 2 ∨ ty = 4 then 1 else 0 }
      result := .ok
      busy := false
      done := true })

/-- The inverse cipher undoes the forward cipher and the other way round, for every key and block, and the
counter-mode function undoes itself (41_crypto.md rules R226 and R234). -/
def Obligations.CiphersUndoThemselves : Prop :=
  (∀ k b : Block, aesInv k (aes k b) = b ∧ aes k (aesInv k b) = b) ∧
  (∀ (k : Block) (d : Bool) (a n : Word) (p : List Byte), p.length ≤ 256 →
    ctrXor k d a n (ctrXor k d a n p) = p ∧ (ctrXor k d a n p).length = p.length)

/-- Every S-box entry is the affine map of the inverse in GF(2^8), with 0 mapped to 0, and INV_SBOX is the
inverse permutation (41_crypto.md rules R221 and R226). -/
def Obligations.SboxIsAffineOfInverse : Prop :=
  (∀ x : Byte, ∃ b : Byte, (if x = 0 then b = 0 else gfTimes x b = 1) ∧ sbox x = sboxAffine b) ∧
  (∀ x : Byte, invSbox (sbox x) = x)

/-- AES_ENC and AES_DEC replace BLK by its image under the selected key, clear the keys and complete with
OK; the engine step on such a word with a key select of 3 or more completes with ILLEGAL and changes nothing
else (41_crypto.md rules R227, R228 and R229). -/
def Obligations.AesBlockCommands : Prop :=
  (∀ w, CommandWord 0x20 w → (kselField w).toNat < 3 → decode w = .command (.aesEnc (kselField w))) ∧
  (∀ w, CommandWord 0x20 w → 3 ≤ (kselField w).toNat → decode w = .illegal .illegalKeySelect) ∧
  (∀ w, CommandWord 0x21 w → (kselField w).toNat < 3 → decode w = .command (.aesDec (kselField w))) ∧
  (∀ w, CommandWord 0x21 w → 3 ≤ (kselField w).toNat → decode w = .illegal .illegalKeySelect) ∧
  (∀ s : State, CommandWord 0x20 s.cmd ∨ CommandWord 0x21 s.cmd → 3 ≤ (kselField s.cmd).toNat →
    engineStep s = .next { s with result := .illegal, busy := false, done := true }) ∧
  ∀ (s : State) (ksel : BitVec 4) (k : Block),
    ((ksel = 0 ∧ k = s.keys.app) ∨ (ksel = 1 ∧ k = s.keys.nwkS) ∨ (ksel = 2 ∧ k = s.keys.appS) →
      exec (.aesEnc ksel) s = .next { s with
        blk := aes k s.blk, keys := Keys.zero, result := .ok, busy := false, done := true } ∧
      exec (.aesDec ksel) s = .next { s with
        blk := aesInv k s.blk, keys := Keys.zero, result := .ok, busy := false, done := true })

/-- CTR_XOR enciphers the range of WBUF in place, clears the keys and completes with OK; a range past the
end of WBUF completes with FAIL, and then nothing but the keys changes (41_crypto.md rule R236). -/
def Obligations.CtrXorCommand : Prop :=
  (∀ w, CommandWord 0x22 w → (kselField w).toNat < 3 → decode w = .command (.ctrXor (kselField w))) ∧
  (∀ w, CommandWord 0x22 w → 3 ≤ (kselField w).toNat → decode w = .illegal .illegalKeySelect) ∧
  (∀ s : State, CommandWord 0x22 s.cmd → 3 ≤ (kselField s.cmd).toNat →
    engineStep s = .next { s with result := .illegal, busy := false, done := true }) ∧
  ∀ (s : State) (ksel : BitVec 4) (k : Block) (off len : Nat),
    off = s.args.r0.toNat % 256 → len = s.args.r0.toNat / 256 % 256 →
    ((ksel = 0 ∧ k = s.keys.app) ∨ (ksel = 1 ∧ k = s.keys.nwkS) ∨ (ksel = 2 ∧ k = s.keys.appS) →
      (off + len ≤ 256 → ∃ t, exec (.ctrXor ksel) s = .next t ∧
        t = { s with mem := t.mem, keys := Keys.zero, result := .ok, busy := false, done := true } ∧
        t.wbufBytes off len =
          ctrXor k (s.args.r0.getLsbD 16) s.args.r1 s.args.r2 (s.wbufBytes off len) ∧
        (∀ a, a < wbufBase + off ∨ wbufBase + off + len ≤ a → t.mem.read a = s.mem.read a)) ∧
      (256 < off + len → exec (.ctrXor ksel) s = .next { s with
        keys := Keys.zero, result := .fail, busy := false, done := true }))

/-- CMAC writes the tag of the range of WBUF into BLK, clears the keys and completes with OK; a range past
the end of WBUF completes with FAIL, and then nothing but the keys changes (41_crypto.md rule R237). -/
def Obligations.CmacCommand : Prop :=
  (∀ w, CommandWord 0x23 w → (kselField w).toNat < 3 → decode w = .command (.cmac (kselField w))) ∧
  (∀ w, CommandWord 0x23 w → 3 ≤ (kselField w).toNat → decode w = .illegal .illegalKeySelect) ∧
  (∀ s : State, CommandWord 0x23 s.cmd → 3 ≤ (kselField s.cmd).toNat →
    engineStep s = .next { s with result := .illegal, busy := false, done := true }) ∧
  ∀ (s : State) (ksel : BitVec 4) (k : Block) (off len : Nat),
    off = s.args.r0.toNat % 256 → len = s.args.r0.toNat / 256 % 256 →
    ((ksel = 0 ∧ k = s.keys.app) ∨ (ksel = 1 ∧ k = s.keys.nwkS) ∨ (ksel = 2 ∧ k = s.keys.appS) →
      (off + len ≤ 256 → exec (.cmac ksel) s = .next { s with
        blk := cmacTag k (s.wbufBytes off len), keys := Keys.zero, result := .ok, busy := false,
        done := true }) ∧
      (256 < off + len → exec (.cmac ksel) s = .next { s with
        keys := Keys.zero, result := .fail, busy := false, done := true }))

/-- MIC_DATA writes the MIC of the range of WBUF into RES0, first MIC byte lowest, clears the keys and
completes with OK; a range past the end of WBUF completes with FAIL, and then nothing but the keys changes
(41_crypto.md rule R238). -/
def Obligations.MicDataCommand : Prop :=
  (∀ w, CommandWord 0x24 w → (kselField w).toNat < 3 → decode w = .command (.micData (kselField w))) ∧
  (∀ w, CommandWord 0x24 w → 3 ≤ (kselField w).toNat → decode w = .illegal .illegalKeySelect) ∧
  (∀ s : State, CommandWord 0x24 s.cmd → 3 ≤ (kselField s.cmd).toNat →
    engineStep s = .next { s with result := .illegal, busy := false, done := true }) ∧
  ∀ (s : State) (ksel : BitVec 4) (k : Block) (off len : Nat),
    off = s.args.r0.toNat % 256 → len = s.args.r0.toNat / 256 % 256 →
    ((ksel = 0 ∧ k = s.keys.app) ∨ (ksel = 1 ∧ k = s.keys.nwkS) ∨ (ksel = 2 ∧ k = s.keys.appS) →
      (off + len ≤ 256 → ∃ t, exec (.micData ksel) s = .next t ∧
        t = { s with ress := { s.ress with r0 := t.ress.r0 }, keys := Keys.zero, result := .ok,
                     busy := false, done := true } ∧
        le t.ress.r0 4 =
          micData k (s.args.r0.getLsbD 16) s.args.r1 s.args.r2 (s.wbufBytes off len)) ∧
      (256 < off + len → exec (.micData ksel) s = .next { s with
        keys := Keys.zero, result := .fail, busy := false, done := true }))

/-- Every key-reading command clears all three keys on every result, every other command leaves them, and an
ILLEGAL word leaves them (41_crypto.md rule R239). -/
def Obligations.KeysClearedByKeyReaders : Prop :=
  (∀ (i : Instr) (s : State), i.wf = true →
    ∃ t, exec i s = .next t ∧ t.keys = (if i.readsKeys then Keys.zero else s.keys)) ∧
  (∀ s : State, IllegalWord s.cmd → ∃ t, engineStep s = .next t ∧ t.keys = s.keys)

/-- CE_INIT empties the tables, adds the region's default channels in order, each as CE_ADD adds and its result
ignored, loads the default settings, sets the RX1 offset to 0, does not clear IFAULT, and completes with OK
(42_channel_engine.md rule R280). -/
def Obligations.CeInitBuildsTheRegion : Prop :=
  (∀ w, CommandWord 0x30 w → decode w = .command .ceInit) ∧
  (∀ (s : State) (idx : BitVec 8), ∃ t, exec (.ceAdd idx) s = .next t ∧
    t.ce = (ChanEngine.add s.regionPort s.ce idx.toNat s.args.r0).1) ∧
  (∀ (p : RegionPort) (ce : ChanEngine) (i : Nat) (f : Word), ce.nch ≤ i →
    (ChanEngine.add p ce i f).1 = ce) ∧
  ∀ (s : State) (d : DefaultSettings) (ce : ChanEngine),
    d = s.regionPort.askDefaultSettings s.args.r0 →
    ce = (s.regionPort.askDefaultChannels s.args.r0).foldl
      (fun ce entry => (ChanEngine.add s.regionPort ce entry.1 entry.2).1)
      { s.ce with
        region := s.args.r0
        chans := List.replicate s.ce.nch ⟨0, 0, false⟩
        bands := List.replicate s.ce.nband ⟨0, none, 0⟩
        sel := none
        total := 0 } →
    exec .ceInit s = .next { s with
      ce := { ce with
        rate := d.initTxRate, power := d.initTxPower, rx2Freq := d.rx2Freq, rx2Rate := d.rx2Rate,
        rx1Offset := 0 }
      result := .ok
      busy := false
      done := true } ∧
    ce.nch = s.ce.nch ∧ ce.nband = s.ce.nband ∧ ce.region = s.args.r0 ∧
    (s.ce.ifault = true → ce.ifault = true)

/-- CE_ADD with frequency 0 is a remove that always succeeds; an index past P_NCH, a rejected frequency or a
band past P_NBAND is FAIL and changes nothing; every other add removes what the slot held, writes the slot,
unmasked, counts it in its band and in all, recomputes the selection when the aggregate count is then 1, and
completes with OK; the selection else moves only when the slot was the selected channel (42_channel_engine.md
rules R276 and R281). -/
def Obligations.CeAddConfiguresOrRejects : Prop :=
  (∀ w, CommandWord 0x31 w → decode w = .command (.ceAdd (idxField w))) ∧
  ∀ (s : State) (idx : BitVec 8) (v : Validation), v = s.regionPort.askValidate s.ce.region s.args.r0 →
    (s.args.r0 = 0 → exec (.ceAdd idx) s = exec (.ceRemove idx) s) ∧
    (s.args.r0 ≠ 0 → (s.ce.nch ≤ idx.toNat ∨ v.accepted = false ∨ s.ce.nband ≤ v.subBand) →
      exec (.ceAdd idx) s = .next { s with result := .fail, busy := false, done := true }) ∧
    (s.args.r0 ≠ 0 → idx.toNat < s.ce.nch → v.accepted = true → v.subBand < s.ce.nband →
      ∃ (u t : State) (base : ChanEngine),
        exec (.ceRemove idx) s = .next u ∧ exec (.ceAdd idx) s = .next t ∧
        base = { u.ce with
          chans := u.ce.chans.set idx.toNat ⟨s.args.r0, BitVec.ofNat 8 v.subBand, false⟩
          bands := u.ce.bands.modify v.subBand (fun band => { band with num := band.num + 1 })
          total := u.ce.total + 1 } ∧
        t = { s with
          ce := if base.total = 1 then base.cycleChannel else base
          result := .ok
          busy := false
          done := true } ∧
        t.ce.chans = s.ce.chans.set idx.toNat ⟨s.args.r0, BitVec.ofNat 8 v.subBand, false⟩ ∧
        (s.Inv → s.ce.total = 0 → t.ce.sel = some ⟨v.subBand, idx.toNat⟩) ∧
        (s.Inv → ∀ sel, s.ce.sel = some sel → sel.chan ≠ idx.toNat → t.ce.sel = s.ce.sel))

/-- CE_REMOVE of a present slot clears its frequency, takes it out of the counts if it was unmasked and
recomputes the selection if it was the selected channel; of an absent or out-of-range slot it does nothing; it
always completes with OK (42_channel_engine.md rules R275 and R282). -/
def Obligations.CeRemoveClearsTheSlot : Prop :=
  (∀ w, CommandWord 0x32 w → decode w = .command (.ceRemove (idxField w))) ∧
  ∀ (s : State) (idx : BitVec 8),
    ((∀ ch, s.ce.chans[idx.toNat]? = some ch → ch.freq = 0) →
      exec (.ceRemove idx) s = .next { s with result := .ok, busy := false, done := true }) ∧
    (∀ (ch : Channel) (base : ChanEngine), s.ce.chans[idx.toNat]? = some ch → ch.freq ≠ 0 →
      ch.band.toNat < s.ce.nband →
      base = { s.ce with
        chans := s.ce.chans.set idx.toNat { ch with freq := 0 }
        bands := if ch.masked then s.ce.bands
          else s.ce.bands.modify ch.band.toNat (fun band => { band with num := band.num - 1 })
        total := if ch.masked then s.ce.total else s.ce.total - 1 } →
      exec (.ceRemove idx) s = .next { s with
        ce := if s.ce.sel.map Selection.chan = some idx.toNat then base.cycleChannel else base
        result := .ok
        busy := false
        done := true })

/-- CE_MASK is FAIL past P_NCH; of a present unmasked slot it sets the mask, takes it out of the counts and
recomputes the selection if it was the selected channel; of any other slot it only sets the flag
(42_channel_engine.md rules R277 and R283). -/
def Obligations.CeMaskMakesIneligible : Prop :=
  (∀ w, CommandWord 0x33 w → decode w = .command (.ceMask (idxField w))) ∧
  ∀ (s : State) (idx : BitVec 8),
    (s.ce.nch ≤ idx.toNat →
      exec (.ceMask idx) s = .next { s with result := .fail, busy := false, done := true }) ∧
    (∀ ch, s.ce.chans[idx.toNat]? = some ch → ch.freq = 0 ∨ ch.masked = true →
      exec (.ceMask idx) s = .next { s with
        ce := { s.ce with chans := s.ce.chans.set idx.toNat { ch with masked := true } }
        result := .ok
        busy := false
        done := true }) ∧
    (∀ (ch : Channel) (base : ChanEngine), s.ce.chans[idx.toNat]? = some ch → ch.freq ≠ 0 →
      ch.masked = false → ch.band.toNat < s.ce.nband →
      base = { s.ce with
        chans := s.ce.chans.set idx.toNat { ch with masked := true }
        bands := s.ce.bands.modify ch.band.toNat (fun band => { band with num := band.num - 1 })
        total := s.ce.total - 1 } →
      exec (.ceMask idx) s = .next { s with
        ce := if s.ce.sel.map Selection.chan = some idx.toNat then base.cycleChannel else base
        result := .ok
        busy := false
        done := true })

/-- CE_UNMASK is FAIL past P_NCH; of a present masked slot it clears the mask, puts it into the counts, and
recomputes the selection only when the aggregate count becomes 1; of any other slot it only clears the flag
(42_channel_engine.md rules R278 and R284). -/
def Obligations.CeUnmaskMakesEligible : Prop :=
  (∀ w, CommandWord 0x34 w → decode w = .command (.ceUnmask (idxField w))) ∧
  ∀ (s : State) (idx : BitVec 8),
    (s.ce.nch ≤ idx.toNat →
      exec (.ceUnmask idx) s = .next { s with result := .fail, busy := false, done := true }) ∧
    (∀ ch, s.ce.chans[idx.toNat]? = some ch → ch.freq = 0 ∨ ch.masked = false →
      exec (.ceUnmask idx) s = .next { s with
        ce := { s.ce with chans := s.ce.chans.set idx.toNat { ch with masked := false } }
        result := .ok
        busy := false
        done := true }) ∧
    (∀ (ch : Channel) (base : ChanEngine), s.ce.chans[idx.toNat]? = some ch → ch.freq ≠ 0 →
      ch.masked = true → ch.band.toNat < s.ce.nband →
      base = { s.ce with
        chans := s.ce.chans.set idx.toNat { ch with masked := false }
        bands := s.ce.bands.modify ch.band.toNat (fun band => { band with num := band.num + 1 })
        total := s.ce.total + 1 } →
      exec (.ceUnmask idx) s = .next { s with
        ce := if base.total = 1 then base.cycleChannel else base
        result := .ok
        busy := false
        done := true })

/-- `cycleChannel` selects, in the band with eligible channels that has the earliest ready-time (lowest index
on a tie), the first eligible slot after the band's last-used one, wrapping, and records it there; with no
such band the selection is none; with no such slot it is the internal consistency fault (rules R274, R279). -/
def Obligations.CycleChannelPicksEarliestBand : Prop :=
  ∀ ce : ChanEngine,
    ((∀ band ∈ ce.bands, band.num = 0) → ce.cycleChannel = { ce with sel := none }) ∧
    (∀ (b start : Nat) (band : Band), ce.bands[b]? = some band → band.num ≠ 0 →
      (∀ (b' : Nat) (band' : Band), ce.bands[b']? = some band' → band'.num ≠ 0 →
        band.ready ≤ band'.ready ∧ (band'.ready = band.ready → b ≤ b')) →
      start = (match band.last with | none => 0 | some c => c + 1) →
      ((∀ c, c < ce.nch → ce.eligibleAt b c = false) →
        ce.cycleChannel = { ce with sel := none, ifault := true }) ∧
      (∀ k, k < ce.nch → ce.eligibleAt b ((start + k) % ce.nch) = true →
        (∀ j, j < k → ce.eligibleAt b ((start + j) % ce.nch) = false) →
        ce.cycleChannel = { ce with
          sel := some ⟨b, (start + k) % ce.nch⟩
          bands := ce.bands.set b { band with last := some ((start + k) % ce.nch) } }))

/-- CE_SET_RATE_POWER stores the low bytes of ARG0 and ARG1 unchecked and completes with OK
(42_channel_engine.md rule R285). -/
def Obligations.SetRatePowerStoresAnyValue : Prop :=
  (∀ w, CommandWord 0x35 w → decode w = .command .ceSetRatePower) ∧
  ∀ s : State, ∃ t, exec .ceSetRatePower s = .next t ∧
    t = { s with ce := { s.ce with rate := t.ce.rate, power := t.ce.power }, result := .ok,
                 busy := false, done := true } ∧
    t.ce.rate.toNat = s.args.r0.toNat % 256 ∧ t.ce.power.toNat = s.args.r1.toNat % 256

/-- CE_WAIT_TIME answers 0 when no band is selected, else the time left until the selected band's ready-time,
0 once it has passed, low word in RES0 and high word in RES1, and always completes with OK (42_channel_engine.md
rule R286). -/
def Obligations.WaitTimeIsTimeLeft : Prop :=
  (∀ w, CommandWord 0x36 w → decode w = .command .ceWaitTime) ∧
  ∀ (s : State) (now : Nat), now = 2 ^ 32 * s.args.r1.toNat + s.args.r0.toNat →
    ∃ (t : State) (left : Nat), exec .ceWaitTime s = .next t ∧
      t = { s with ress := { s.ress with r0 := t.ress.r0, r1 := t.ress.r1 }, result := .ok,
                   busy := false, done := true } ∧
      2 ^ 32 * t.ress.r1.toNat + t.ress.r0.toNat = left ∧
      (s.ce.sel = none → left = 0) ∧
      (∀ (sel : Selection) (band : Band), s.ce.sel = some sel → s.ce.bands[sel.band]? = some band →
        left = band.ready.toNat - now)

/-- The three settings commands fail with nothing changed when no channel is selected or their rate has no
parameters, and otherwise answer the frequency in RES0 and SF, BW and CR = 1 in RES1: TX the selected
channel at the current rate, RX1 the selected channel at the region's RX1 rate, RX2 the RX2 frequency and
rate (42_channel_engine.md rules R287 to R290). -/
def Obligations.SettingsCommandsAnswerRadioSetting : Prop :=
  (∀ w, CommandWord 0x37 w → decode w = .command .ceTxSetting) ∧
  (∀ w, CommandWord 0x38 w → decode w = .command .ceRx1Setting) ∧
  (∀ w, CommandWord 0x39 w → decode w = .command .ceRx2Setting) ∧
  ∀ (i : Instr) (s : State) (r : Byte),
    (i = .ceTxSetting ∧ r = s.ce.rate) ∨
      (i = .ceRx1Setting ∧ r = s.regionPort.askRx1Rate s.ce.region s.ce.rate s.ce.rx1Offset) ∨
      (i = .ceRx2Setting ∧ r = s.ce.rx2Rate) →
    (s.ce.sel = none ∨ s.regionPort.askRateParams s.ce.region r = none →
      exec i s = .next { s with result := .fail, busy := false, done := true }) ∧
    (∀ (sel : Selection) (ch : Channel) (c : RateCodes), s.ce.sel = some sel →
      s.ce.chans[sel.chan]? = some ch → s.regionPort.askRateParams s.ce.region r = some c →
      ∃ t, exec i s = .next t ∧
        t = { s with
          ress := { s.ress with
            r0 := if i = .ceRx2Setting then s.ce.rx2Freq else ch.freq
            r1 := t.ress.r1 }
          result := .ok
          busy := false
          done := true } ∧
        t.ress.r1.toNat = c.sf + 256 * c.bw + 65536 ∧
        (c.sf = 0 ∨ (6 ≤ c.sf ∧ c.sf ≤ 12)) ∧ c.bw ≤ 3)

/-- CE_REGISTER_TX does nothing when no band is selected; else it sets the selected band's ready-time to now
plus airtime times off-time factor modulo 2^64 (airtime 0 for a rate without parameters), leaves the other
ready-times, and recomputes the selection; it always completes with OK (rules R272 and R291). -/
def Obligations.RegisterTxAdvancesTheGate : Prop :=
  (∀ w, CommandWord 0x3A w → decode w = .command .ceRegisterTx) ∧
  ∀ (s : State) (now len air : Nat),
    now = 2 ^ 32 * s.args.r1.toNat + s.args.r0.toNat → len = s.args.r2.toNat % 256 →
    air = (match s.regionPort.askRateParams s.ce.region s.ce.rate with
      | none => 0
      | some c => airtime c.sf c.bw len) →
    (s.ce.sel = none →
      exec .ceRegisterTx s = .next { s with result := .ok, busy := false, done := true }) ∧
    (∀ (sel : Selection) (band : Band), s.ce.sel = some sel → s.ce.bands[sel.band]? = some band →
      ∃ t, exec .ceRegisterTx s = .next t ∧
        t = { s with ce := t.ce, result := .ok, busy := false, done := true } ∧
        t.ce.readyOf sel.band =
          BitVec.ofNat 64 (now + air * (s.regionPort.askOffTime s.ce.region sel.band).toNat) ∧
        (∀ b, b ≠ sel.band → t.ce.readyOf b = s.ce.readyOf b) ∧
        t.ce.chans = s.ce.chans ∧ t.ce.total = s.ce.total ∧
        t.ce.bands.map Band.num = s.ce.bands.map Band.num ∧
        t.ce = (ChanEngine.cycleChannel
          { s.ce with bands := s.ce.bands.set sel.band { band with ready := t.ce.readyOf sel.band } }))

/-- CE_CAPACITY answers P_NCH, the value CFG[7:0] shows, and changes nothing else (42_channel_engine.md R292). -/
def Obligations.CapacityAnswersPnch : Prop :=
  (∀ w, CommandWord 0x3B w → decode w = .command .ceCapacity) ∧
  ∀ s : State, s.ce.Sized → ∃ t, exec .ceCapacity s = .next t ∧
    t = { s with ress := { s.ress with r0 := t.ress.r0 }, result := .ok, busy := false, done := true } ∧
    t.ress.r0.toNat = s.ce.chans.length ∧ t.ress.r0.toNat = (s.readReg .cfg).toNat % 256

/-- TIME_ON_AIR answers the airtime for codes of rule R271 and fails, changing nothing, for any other
(42_channel_engine.md rule R293). -/
def Obligations.TimeOnAirAnswersAirtime : Prop :=
  (∀ w, CommandWord 0x3C w → decode w = .command .timeOnAir) ∧
  ∀ (s : State) (sf bw len : Nat),
    sf = s.args.r0.toNat % 256 → bw = s.args.r0.toNat / 256 % 256 → len = s.args.r1.toNat % 256 →
    ((sf = 0 ∨ (6 ≤ sf ∧ sf ≤ 12)) ∧ bw ≤ 3 →
      ∃ t, exec .timeOnAir s = .next t ∧
        t = { s with ress := { s.ress with r0 := t.ress.r0 }, result := .ok, busy := false,
                     done := true } ∧
        t.ress.r0.toNat = airtime sf bw len) ∧
    (¬ ((sf = 0 ∨ (6 ≤ sf ∧ sf ≤ 12)) ∧ bw ≤ 3) →
      exec .timeOnAir s = .next { s with result := .fail, busy := false, done := true })

/-- The airtime formula's derived bounds: 0 for the FSK class, never a negative symbol count, at most 9019392
microseconds, and the quotients by the bandwidth and by 4 are exact (42_channel_engine.md rule R273). -/
def Obligations.AirtimeIsBounded : Prop :=
  ∀ sf bw len : Nat, len ≤ 255 → bw ≤ 3 → (sf = 0 ∨ (6 ≤ sf ∧ sf ≤ 12)) →
    airtime sf bw len ≤ 9019392 ∧
    (sf = 0 ∨ bw = 3 → airtime sf bw len = 0) ∧
    (sf ≠ 0 → bw ≠ 3 → 8 ≤ payloadSymbols sf bw len ∧
      symbolTime sf bw * bwHz bw = 2 ^ sf * 1000000 ∧ symbolTime sf bw % 4 = 0)

/-- With every configured channel masked CE_TX_SETTING fails, and unmasking any one of them restores a valid
selection, that channel (42_channel_engine.md rule R296). -/
def Obligations.ExhaustionAndRecovery : Prop :=
  ∀ s : State, s.Inv →
    (∀ (i : Nat) (ch : Channel), s.ce.chans[i]? = some ch → ch.freq ≠ 0 → ch.masked = true) →
    exec .ceTxSetting s = .next { s with result := .fail, busy := false, done := true } ∧
    (∀ (idx : BitVec 8) (ch : Channel), s.ce.chans[idx.toNat]? = some ch → ch.freq ≠ 0 →
      ∃ t, exec (.ceUnmask idx) s = .next t ∧ t.result = .ok ∧
        t.ce.sel = some ⟨ch.band.toNat, idx.toNat⟩)

/-- When one band alone has eligible channels, as many recomputations as it has eligible channels select
every one of them (42_channel_engine.md rule R297). -/
def Obligations.RoundRobinVisitsEveryChannel : Prop :=
  ∀ (ce : ChanEngine) (b c : Nat), ce.Inv →
    (∀ (b' : Nat) (band : Band), ce.bands[b']? = some band → b' ≠ b → band.num = 0) →
    ce.eligibleAt b c = true →
    ∃ k, 1 ≤ k ∧ k ≤ ce.liveCount b ∧ (ChanEngine.cycles k ce).sel = some ⟨b, c⟩

/-- After CE_REGISTER_TX, with the same band selected again and no wrap, CE_WAIT_TIME answers the off-time
less the time elapsed, and exactly 0 once it has elapsed (42_channel_engine.md rule R298). -/
def Obligations.DutyCycleIsMonotone : Prop :=
  ∀ (s t : State) (args : Quad) (sel sel' : Selection) (off now' : Nat), s.Inv →
    s.ce.sel = some sel → exec .ceRegisterTx s = .next t →
    t.ce.sel = some sel' → sel'.band = sel.band →
    off = txAirtime s.regionPort s.ce.region s.ce.rate s.txLen *
      (s.regionPort.askOffTime s.ce.region sel.band).toNat →
    s.nowArg.toNat + off < 2 ^ 64 →
    now' = 2 ^ 32 * args.r1.toNat + args.r0.toNat →
    ∃ u, exec .ceWaitTime { t with args := args } = .next u ∧
      2 ^ 32 * u.ress.r1.toNat + u.ress.r0.toNat = s.nowArg.toNat + off - now'

/-- Every step keeps the invariants of rule R61 and the canonical form of the buffers, from every state that
has them (10_state.md rule R61; 42_channel_engine.md rule R295). -/
def Obligations.StepKeepsTheInvariants : Prop :=
  ∀ s t : State, s.Inv → step s = .next t → t.Inv

/-- The state after a hardware reset has the invariants, for every REGION and host and every legal pair of
capacities (70_reset_and_hazards.md rule R402, 10_state.md rule R61). -/
def Obligations.ResetHasTheInvariants : Prop :=
  State.reset.Inv ∧
  ∀ (port : RegionPort) (nch nband resets : Nat) (host : HostAgent),
    1 ≤ nch → nch ≤ 64 → 1 ≤ nband → nband ≤ 32 →
    (State.init port nch nband ⟨[], resets⟩ host).Inv

/-- The internal consistency fault cannot occur: from a state with the invariants no step sets IFAULT
(42_channel_engine.md rule R279). -/
def Obligations.InternalFaultUnreachable : Prop :=
  ∀ s t : State, s.Inv → step s = .next t → t.ce.ifault = true → s.ce.ifault = true

/-- No step changes REGION, P_NCH or P_NBAND, so ID and CFG read the same for ever (10_state.md rule R32,
70_reset_and_hazards.md rule R410). -/
def Obligations.ParametersAreConstant : Prop :=
  ∀ s t : State, step s = .next t →
    t.regionPort = s.regionPort ∧ t.ce.nch = s.ce.nch ∧ t.ce.nband = s.ce.nband ∧
    t.readReg .id = 0x4C444C45 ∧ t.readReg .cfg = s.readReg .cfg ∧
    (s.ce.Sized → (t.readReg .cfg).toNat = s.ce.nch + 256 * s.ce.nband)

/-- The register map: every register of the instance is found at its offset, offsets are aligned and in the
window, and an aligned offset names at most that register (10_state.md rule R31). -/
def Obligations.RegisterMapRoundTrip : Prop :=
  ∀ nch nband : Nat, nch ≤ 64 → nband ≤ 32 →
    (∀ r : Reg, r.present nch nband = true →
      r.offset % 4 = 0 ∧ r.offset < 0x800 ∧ regAt nch nband r.offset = some r) ∧
    (∀ (o : Nat) (r : Reg), o % 4 = 0 → regAt nch nband o = some r →
      r.offset = o ∧ r.present nch nband = true)

/-- Every register but the buffers reads its reset value after a reset, and the keys are 0 (10_state.md rule
R31, 70_reset_and_hazards.md rule R402). -/
def Obligations.ResetValuesOfEveryRegister : Prop :=
  ∀ (port : RegionPort) (nch nband : Nat) (mem : Memory) (host : HostAgent) (r : Reg),
    nch ≤ 64 → nband ≤ 32 → r.present nch nband = true → (∀ k, r ≠ .wbuf k ∧ r ≠ .pbuf k) →
    (State.init port nch nband mem host).keys = ⟨Block.zero, Block.zero, Block.zero⟩ ∧
    ((State.init port nch nband mem host).readReg r).toNat =
      (match r with
       | .id => 0x4C444C45
       | .cfg => nch + 256 * nband
       | .ceSel => 0x0000FFFF
       | .bandLast _ => 0x000000FF
       | _ => 0)

/-- With no command pending, a write of a writable location stores its defined bits: it reads back as the
value's defined bits (a key register as 0, its word stored in the key), and every other location reads as
before, but for STATUS when the write is to CMD (20_memory.md rules R105 and R109, 10_state.md R64). -/
def Obligations.WriteThenReadBack : Prop :=
  ∀ (s : State) (r : Reg) (v : Word), s.busy = false → r.present s.ce.nch s.ce.nband = true →
    r.writable = true →
    (s.hostStore r v).readReg r = (if r.isKey then 0 else v &&& definedBits r) ∧
    (∀ r' : Reg, r'.present s.ce.nch s.ce.nband = true → r' ≠ r → (r = .cmd → r' ≠ .status) →
      (s.hostStore r v).readReg r' = s.readReg r') ∧
    (∀ j, r = .keyApp j →
      (s.hostStore r v).keys = { s.keys with app := s.keys.app.setWord j v }) ∧
    (∀ j, r = .keyNwkS j →
      (s.hostStore r v).keys = { s.keys with nwkS := s.keys.nwkS.setWord j v }) ∧
    (∀ j, r = .keyAppS j →
      (s.hostStore r v).keys = { s.keys with appS := s.keys.appS.setWord j v }) ∧
    (r.isKey = false → (s.hostStore r v).keys = s.keys)

/-- A write of CMD with no command pending stores the word, sets BUSY, clears DONE and changes nothing else;
while a command is pending a write of any writable location is dropped and sets ERR_BUSY; a write of a
read-only location or a reserved offset changes nothing at any time (43_system.md rules R341 and R343,
20_memory.md rule R110, 60_exceptions.md rule R366, 10_state.md rule R64). -/
def Obligations.CmdWriteIssuesPendingWritesDrop : Prop :=
  ∀ (s : State) (r : Reg) (v : Word) (o : Nat),
    (s.busy = false → s.hostStore .cmd v = { s with cmd := v, busy := true, done := false }) ∧
    (s.busy = true → r.writable = true → s.hostStore r v = { s with errBusy := true }) ∧
    (r.writable = false → r ≠ .ctrl → r ≠ .status → s.hostStore r v = s) ∧
    (regAt s.ce.nch s.ce.nband o = none → s.writeAt o v = s ∧ s.readAt o = 0)

/-- A write of STATUS clears DONE when bit 1 is written 1 and ERR_BUSY when bit 2 is written 1, and changes
nothing else, pending command or not (10_state.md rule R37, 43_system.md rule R341). -/
def Obligations.StatusBitsClearByWritingOne : Prop :=
  ∀ (s : State) (v : Word) (t : State), t = s.hostStore .status v →
    t = { s with done := t.done, errBusy := t.errBusy } ∧
    (v.getLsbD 1 = true → t.done = false) ∧ (v.getLsbD 1 = false → t.done = s.done) ∧
    (v.getLsbD 2 = true → t.errBusy = false) ∧ (v.getLsbD 2 = false → t.errBusy = s.errBusy) ∧
    (s.statusWord.getLsbD 0 = s.busy ∧ s.statusWord.getLsbD 1 = s.done ∧
      s.statusWord.getLsbD 2 = s.errBusy ∧ s.statusWord.getLsbD 3 = s.ce.ifault ∧
      s.statusWord.toNat < 16)

/-- A write of CTRL with bit 1 set, at any time, leaves every register and table at its reset value, WBUF and PBUF
as they were, bit 0 ignored and a pending command cancelled; ID and CFG keep their values (43_system.md rule
R345). -/
def Obligations.SoftResetKeepsOnlyTheBuffers : Prop :=
  ∀ (s t : State) (v : Word), v.getLsbD 1 = true → t = s.hostStore .ctrl v →
    t.mem = s.mem ∧ t.host = s.host ∧ t.regionPort = s.regionPort ∧
    t.readReg .id = s.readReg .id ∧ t.readReg .cfg = s.readReg .cfg ∧
    t.ie = false ∧ t.statusWord = 0 ∧ t.cmd = 0 ∧ t.result = .ok ∧ t.args = ⟨0, 0, 0, 0⟩ ∧
    t.ress = ⟨0, 0, 0, 0⟩ ∧ t.fd = FrameDesc.zero ∧ t.keys = Keys.zero ∧ t.blk = Block.zero ∧
    t.ce.nch = s.ce.nch ∧ t.ce.nband = s.ce.nband ∧
    (∀ ch ∈ t.ce.chans, ch = ⟨0, 0, false⟩) ∧ (∀ band ∈ t.ce.bands, band = ⟨0, none, 0⟩) ∧
    t.ce.sel = none ∧ t.ce.total = 0 ∧ t.ce.rate = 0 ∧ t.ce.power = 0 ∧ t.ce.rx1Offset = 0 ∧
    t.ce.rx2Freq = 0 ∧ t.ce.rx2Rate = 0 ∧ t.ce.region = 0

/-- A hardware reset is a soft reset that also forgets the buffers: no byte written before it is read after it,
whatever the buffers held (70_reset_and_hazards.md rules R400 and R401). That the host's program goes on past the
reset line, and which byte is read then, are the model's own (log entries 8 and 9). -/
def Obligations.HardResetForgetsTheBuffers : Prop :=
  ∀ s : State, ∃ u, hostLine .hardReset s = .next u ∧
    u = { s.hostStore .ctrl 2 with
      mem := u.mem
      host := { s.host with program := s.host.program.tail } } ∧
    u.mem.wf = true ∧
    (∀ m : Memory, m.resets = s.mem.resets →
      ∃ u', hostLine .hardReset { s with mem := m } = .next u' ∧
        ∀ o, u'.mem.read o = u.mem.read o)

/-- A host access that is not four bytes wide or not aligned is a BusError, and every other access has its
effect: a write line stores into the register at its offset, a read line returns that register's word, a poll
line goes on exactly when the masked word matches (20_memory.md rule R103, 43_system.md rules R341 and R342,
30_encoding.md rule R139). Moving the program on a line and recording the word are the model's own (log entries
2 and 3). -/
def Obligations.BusErrorExactly : Prop :=
  (∀ (s : State) (o : BitVec 12) (width : Nat) (v mask : Word),
    ((width ≠ 4 ∨ o.toNat % 4 ≠ 0) →
      hostLine (.write o width v) s = .fault (.busError o width) ∧
      hostLine (.read o width) s = .fault (.busError o width)) ∧
    (o.toNat % 4 ≠ 0 → hostLine (.poll o mask v) s = .fault (.busError o 4)) ∧
    (o.toNat % 4 = 0 →
      hostLine (.write o 4 v) s = .next (({ s with
        host := { s.host with program := s.host.program.tail } } : State).writeAt o.toNat v) ∧
      hostLine (.read o 4) s = .next { s with
        host :=
          { program := s.host.program.tail
            received := s.readAt o.toNat :: s.host.received
            turns := s.host.turns } } ∧
      hostLine (.poll o mask v) s = .next (if s.readAt o.toNat &&& mask = v
        then { s with host := { s.host with program := s.host.program.tail } } else s))) ∧
  (∀ (s : State) (o : Nat) (r : Reg) (v : Word), regAt s.ce.nch s.ce.nband o = some r →
    s.writeAt o v = s.hostStore r v ∧ s.readAt o = s.readReg r)

/-- A read changes nothing in the block and returns the current value, and no read, pending command or not,
depends on the keys (20_memory.md rule R108, 43_system.md rule R342, 10_state.md rule R50). The record of the
word with the host is the model's (log entry 3). -/
def Obligations.ReadsChangeNothingAndHideKeys : Prop :=
  ∀ (s : State) (o : BitVec 12) (keys : Keys),
    (o.toNat % 4 = 0 → hostLine (.read o 4) s = .next { s with
      host :=
        { program := s.host.program.tail
          received := s.readAt o.toNat :: s.host.received
          turns := s.host.turns } }) ∧
    ({ s with keys := keys } : State).readAt o.toNat = s.readAt o.toNat

/-- IRQ is DONE and IE: with IE set it is asserted from the engine step that completes a command, and it is
deasserted when the host clears DONE, issues a command, clears IE or resets the block (60_exceptions.md rule
R369). A write of CTRL with bit 1 clear sets IE to bit 0 and changes nothing else, pending command or not, and
CTRL reads back as IE alone (10_state.md rule R36, 43_system.md rule R341). -/
def Obligations.InterruptFollowsDone : Prop :=
  (∀ s : State, s.irq = (s.done && s.ie) ∧ s.readReg .ctrl = (if s.ie then 1 else 0)) ∧
  (∀ (s : State) (v : Word), v.getLsbD 1 = false →
    s.hostStore .ctrl v = { s with ie := v.getLsbD 0 } ∧
    (s.hostStore .ctrl v).readReg .ctrl = v &&& 1) ∧
  (∀ s t : State, engineStep s = .next t → t.irq = s.ie) ∧
  (∀ s : State, s.hardReset.irq = false) ∧
  (∀ (s : State) (v : Word),
    (s.busy = false → (s.hostStore .cmd v).irq = false) ∧
    (v.getLsbD 1 = true → (s.hostStore .status v).irq = false ∧ (s.hostStore .ctrl v).irq = false) ∧
    (v.getLsbD 0 = false → (s.hostStore .ctrl v).irq = false))

/-- A WAIT after the issue of a command ends, whatever the interleaving, with the command completed: within
two steps more than the turns that were scheduled the program is past the WAIT and the block is exactly what
the engine step made of it (20_memory.md rule R114, 43_system.md rule R346). The model's own are the turn list
and the program moving on past the line (log entries 1 and 2), and that the words the WAIT's reads return are
not recorded with the host (log entry 3). -/
def Obligations.WaitSynchronisesWithTheEngine : Prop :=
  ∀ (s t : State) (rest : List HostLine), s.busy = true → s.host.program = waitLine :: rest →
    engineStep s = .next t →
    ∃ (n : Nat) (u : State), n ≤ s.host.turns.length + 2 ∧ Host.Core.run core n s = .next u ∧
      u.host.program = rest ∧ u.host.received = s.host.received ∧ u = { t with host := u.host }
end

