-- ==== Sys2Proof/Laws/Channel.lean ====
section
/-! SUPPORT. The channel engine: what the scan for the earliest band and the scan for the next slot find, what
recomputing the selection can do, and what every internal function keeps. -/

namespace Sys2Proof.Machine

open Sys2Proof

theorem earlierBand_zero (best : Option (Nat × Time)) (b : Nat) (x : Band) (h : x.num = 0) :
    earlierBand best b x = best := by
  unfold earlierBand; exact if_pos h

theorem earlierBand_none (b : Nat) (x : Band) (h : x.num ≠ 0) :
    earlierBand none b x = some (b, x.ready) := by
  unfold earlierBand; exact if_neg h

theorem earlierBand_lt (b₀ b : Nat) (r₀ : Time) (x : Band) (h : x.num ≠ 0) (hlt : x.ready < r₀) :
    earlierBand (some (b₀, r₀)) b x = some (b, x.ready) := by
  unfold earlierBand; rw [if_neg h]; exact if_pos hlt

theorem earlierBand_not_lt (b₀ b : Nat) (r₀ : Time) (x : Band) (h : x.num ≠ 0) (hlt : ¬ x.ready < r₀) :
    earlierBand (some (b₀, r₀)) b x = some (b₀, r₀) := by
  unfold earlierBand; rw [if_neg h]; exact if_neg hlt

/-- What the band scan answers: the earliest candidate, the lowest index on a tie (R274). -/
theorem scanBands_spec (l : List Band) (best : Option (Nat × Time)) (b : Nat)
    (hb : ∀ c r, best = some (c, r) → c < b) :
    (scanBands best b l = none → best = none ∧ ∀ (k : Nat) (band : Band), l[k]? = some band → band.num = 0) ∧
    (∀ c r, scanBands best b l = some (c, r) →
      (best = some (c, r) ∨
        ∃ (k : Nat) (band : Band), c = b + k ∧ l[k]? = some band ∧ band.num ≠ 0 ∧ band.ready = r) ∧
      (∀ c₀ r₀, best = some (c₀, r₀) → r ≤ r₀ ∧ (r₀ = r → c ≤ c₀)) ∧
      (∀ (k : Nat) (band : Band), l[k]? = some band → band.num ≠ 0 →
        r ≤ band.ready ∧ (band.ready = r → c ≤ b + k))) := by
  induction l generalizing best b with
  | nil =>
    refine ⟨fun h => ⟨h, by simp⟩, fun c r h => ⟨Or.inl h, ?_, by simp⟩⟩
    intro c₀ r₀ h₀
    simp only [scanBands] at h
    rw [h] at h₀
    simp only [Option.some.injEq, Prod.mk.injEq] at h₀
    obtain ⟨rfl, rfl⟩ := h₀
    exact ⟨BitVec.le_refl _, fun _ => Nat.le_refl _⟩
  | cons x rest ih =>
    have hb' : ∀ c r, earlierBand best b x = some (c, r) → c < b + 1 := by
      intro c r h
      by_cases hx : x.num = 0
      · rw [earlierBand_zero _ _ _ hx] at h
        have := hb c r h; omega
      · cases best with
        | none =>
          rw [earlierBand_none b x hx, Option.some.injEq, Prod.mk.injEq] at h
          omega
        | some p =>
          have := hb p.1 p.2 rfl
          by_cases hlt : x.ready < p.2
          · rw [earlierBand_lt _ _ _ _ hx hlt, Option.some.injEq, Prod.mk.injEq] at h
            omega
          · rw [earlierBand_not_lt _ _ _ _ hx hlt, Option.some.injEq, Prod.mk.injEq] at h
            omega
    obtain ⟨ihn, ihs⟩ := ih (earlierBand best b x) (b + 1) hb'
    refine ⟨?_, ?_⟩
    · intro h
      obtain ⟨he, hrest⟩ := ihn h
      unfold earlierBand at he
      split at he
      · rename_i hx
        refine ⟨he, fun k band hk => ?_⟩
        cases k with
        | zero => simp at hk; exact hk ▸ hx
        | succ k => exact hrest k band (by simpa using hk)
      · split at he
        · simp at he
        · split at he <;> simp at he
    · intro c r h
      obtain ⟨hsrc, hbest, hmin⟩ := ihs c r h
      by_cases hx : x.num = 0
      · rw [earlierBand_zero _ _ _ hx] at hsrc hbest
        refine ⟨?_, hbest, ?_⟩
        · rcases hsrc with h1 | ⟨k, band, hc, hk, hn, hr⟩
          · exact Or.inl h1
          · exact Or.inr ⟨k + 1, band, by omega, by simpa using hk, hn, hr⟩
        · intro k band hk hn
          cases k with
          | zero => simp at hk; exact absurd (hk ▸ hx) hn
          | succ k =>
            have := hmin k band (by simpa using hk) hn
            exact ⟨this.1, fun e => by have := this.2 e; omega⟩
      · have hself : r ≤ x.ready ∧ (x.ready = r → c ≤ b) := by
          cases best with
          | none => exact hbest b x.ready (earlierBand_none b x hx)
          | some p =>
            obtain ⟨b₀, r₀⟩ := p
            by_cases hlt : x.ready < r₀
            · exact hbest b x.ready (earlierBand_lt b₀ b r₀ x hx hlt)
            · have h1 := hbest b₀ r₀ (earlierBand_not_lt b₀ b r₀ x hx hlt)
              have h2 := hb b₀ r₀ rfl
              simp only [BitVec.lt_def, BitVec.le_def] at hlt h1 ⊢
              refine ⟨by omega, fun e' => ?_⟩
              have := h1.2 (BitVec.eq_of_toNat_eq (by have := congrArg BitVec.toNat e'; omega))
              omega
        refine ⟨?_, ?_, ?_⟩
        · rcases hsrc with h1 | ⟨k, band, hc, hk, hn, hr⟩
          · cases best with
            | none =>
              rw [earlierBand_none b x hx, Option.some.injEq, Prod.mk.injEq] at h1
              exact Or.inr ⟨0, x, by omega, by simp, hx, h1.2⟩
            | some p =>
              obtain ⟨b₀, r₀⟩ := p
              by_cases hlt : x.ready < r₀
              · rw [earlierBand_lt b₀ b r₀ x hx hlt, Option.some.injEq, Prod.mk.injEq] at h1
                exact Or.inr ⟨0, x, by omega, by simp, hx, h1.2⟩
              · rw [earlierBand_not_lt b₀ b r₀ x hx hlt] at h1
                exact Or.inl h1
          · exact Or.inr ⟨k + 1, band, by omega, by simpa using hk, hn, hr⟩
        · intro c₀ r₀ h₀
          subst h₀
          have h2 := hb c₀ r₀ rfl
          by_cases hlt : x.ready < r₀
          · have h1 := hbest b x.ready (earlierBand_lt c₀ b r₀ x hx hlt)
            simp only [BitVec.lt_def, BitVec.le_def] at hlt h1 ⊢
            refine ⟨by omega, fun e' => ?_⟩
            have := congrArg BitVec.toNat e'
            omega
          · exact hbest c₀ r₀ (earlierBand_not_lt c₀ b r₀ x hx hlt)
        · intro k band hk hn
          cases k with
          | zero => simp at hk; subst hk; simpa using hself
          | succ k =>
            have := hmin k band (by simpa using hk) hn
            exact ⟨this.1, fun e => by have := this.2 e; omega⟩

/-- No band has eligible channels: there is no best band. -/
theorem ChanEngine.bestBand_none (ce : ChanEngine) (h : ce.bestBand = none) (b : Nat) (band : Band)
    (hb : ce.bands[b]? = some band) : band.num = 0 := by
  simp only [ChanEngine.bestBand, Option.map_eq_none_iff] at h
  exact ((scanBands_spec ce.bands none 0 (by simp)).1 h).2 b band hb

/-- The best band has eligible channels and is the earliest that has, the lowest on a tie. -/
theorem ChanEngine.bestBand_some (ce : ChanEngine) (b : Nat) (h : ce.bestBand = some b) :
    ∃ band, ce.bands[b]? = some band ∧ band.num ≠ 0 ∧
      ∀ (b' : Nat) (band' : Band), ce.bands[b']? = some band' → band'.num ≠ 0 →
        band.ready ≤ band'.ready ∧ (band'.ready = band.ready → b ≤ b') := by
  simp only [ChanEngine.bestBand, Option.map_eq_some_iff] at h
  obtain ⟨⟨c, r⟩, hs, rfl⟩ := h
  obtain ⟨h1, -, h3⟩ := (scanBands_spec ce.bands none 0 (by simp)).2 c r hs
  rcases h1 with h1 | ⟨k, band, rfl, hk, hn, rfl⟩
  · simp at h1
  · refine ⟨band, by simpa using hk, hn, fun b' band' hb' hn' => ?_⟩
    simpa using h3 b' band' hb' hn'

/-- No slot is found only when no slot of the band is eligible. -/
theorem ChanEngine.nextSlot_none (ce : ChanEngine) (b : Nat) (h : ce.nextSlot b = none) (c : Nat)
    (hc : c < ce.nch) : ce.eligibleAt b c = false := by
  simp only [ChanEngine.nextSlot, List.find?_eq_none, List.mem_map, List.mem_range] at h
  have h1 := h c ⟨(c + (ce.nch - ce.scanStart b % ce.nch)) % ce.nch, Nat.mod_lt _ (by omega), ?_⟩
  · simpa using h1
  · have hs := Nat.mod_lt (ce.scanStart b) (show 0 < ce.nch by omega)
    rw [Nat.add_mod, Nat.mod_mod, ← Nat.add_mod, ← Nat.add_assoc, Nat.add_comm (ce.scanStart b) c,
      Nat.add_assoc, Nat.add_mod]
    have e : (ce.scanStart b + (ce.nch - ce.scanStart b % ce.nch)) % ce.nch = 0 := by
      have h2 := Nat.div_add_mod (ce.scanStart b) ce.nch
      rw [show ce.scanStart b + (ce.nch - ce.scanStart b % ce.nch) =
          ce.nch * (ce.scanStart b / ce.nch + 1) by rw [Nat.mul_add]; omega]
      exact Nat.mul_mod_right _ _
    rw [e, Nat.add_zero, Nat.mod_mod, Nat.mod_eq_of_lt hc]

/-- The slot found is the first eligible one from the scan's start on, wrapping at the capacity. -/
theorem ChanEngine.nextSlot_some (ce : ChanEngine) (b c : Nat) (h : ce.nextSlot b = some c) :
    ce.eligibleAt b c = true ∧ c < ce.nch ∧ ∃ k, k < ce.nch ∧ c = (ce.scanStart b + k) % ce.nch ∧
      ∀ j, j < k → ce.eligibleAt b ((ce.scanStart b + j) % ce.nch) = false := by
  simp only [ChanEngine.nextSlot] at h
  refine ⟨List.find?_some h, ?_, ?_⟩
  · have := List.mem_of_find?_eq_some h
    simp only [List.mem_map, List.mem_range] at this
    obtain ⟨k, hk, rfl⟩ := this
    exact Nat.mod_lt _ (by omega)
  · rw [List.find?_eq_some_iff_getElem] at h
    obtain ⟨-, k, hk, he, hmin⟩ := h
    simp only [List.length_map, List.length_range] at hk
    refine ⟨k, hk, by simpa using he.symm, fun j hj => ?_⟩
    simpa using hmin j hj

/-- What recomputing the selection keeps: all but the selection, the last-used slots and IFAULT. -/
structure ChanEngine.Reselected (ce ce' : ChanEngine) : Prop where
  chans     : ce'.chans = ce.chans
  total     : ce'.total = ce.total
  region    : ce'.region = ce.region
  rate      : ce'.rate = ce.rate
  power     : ce'.power = ce.power
  rx1Offset : ce'.rx1Offset = ce.rx1Offset
  rx2Freq   : ce'.rx2Freq = ce.rx2Freq
  rx2Rate   : ce'.rx2Rate = ce.rx2Rate
  ready     : ce'.bands.map Band.ready = ce.bands.map Band.ready
  num       : ce'.bands.map Band.num = ce.bands.map Band.num

theorem ChanEngine.Reselected.refl (ce : ChanEngine) : ChanEngine.Reselected ce ce :=
  ⟨rfl, rfl, rfl, rfl, rfl, rfl, rfl, rfl, rfl, rfl⟩

theorem map_modify_same {α β : Type} (g : α → β) (f : α → α) (h : ∀ x, g (f x) = g x) (l : List α) (b : Nat) :
    (l.modify b f).map g = l.map g := by
  apply List.ext_getElem?
  intro i
  rw [List.getElem?_map, List.getElem?_map, List.getElem?_modify]
  cases l[i]? with
  | none => rfl
  | some x =>
    by_cases e : b = i <;> simp [e, h]

/-- Recomputing the selection: nothing to select, a slot chosen, or the internal consistency fault (R274). -/
theorem ChanEngine.cycleChannel_cases (ce : ChanEngine) :
    (ce.bestBand = none ∧ ce.cycleChannel = { ce with sel := none }) ∨
    (∃ b c, ce.bestBand = some b ∧ ce.nextSlot b = some c ∧ ce.cycleChannel = ce.choose b c) ∨
    (∃ b, ce.bestBand = some b ∧ ce.nextSlot b = none ∧ ce.cycleChannel = ce.internalFault) := by
  unfold ChanEngine.cycleChannel
  cases hb : ce.bestBand with
  | none => exact Or.inl ⟨rfl, rfl⟩
  | some b =>
    cases hc : ce.nextSlot b with
    | none => exact Or.inr (Or.inr ⟨b, rfl, hc, by simp [hc]⟩)
    | some c => exact Or.inr (Or.inl ⟨b, c, rfl, hc, by simp [hc]⟩)

theorem ChanEngine.choose_reselected (ce : ChanEngine) (b c : Nat) :
    ChanEngine.Reselected ce (ce.choose b c) :=
  ⟨rfl, rfl, rfl, rfl, rfl, rfl, rfl, rfl,
    map_modify_same Band.ready (fun band => { band with last := some c }) (fun _ => rfl) ce.bands b,
    map_modify_same Band.num (fun band => { band with last := some c }) (fun _ => rfl) ce.bands b⟩

theorem ChanEngine.cycleChannel_reselected (ce : ChanEngine) :
    ChanEngine.Reselected ce ce.cycleChannel := by
  rcases ce.cycleChannel_cases with ⟨-, h⟩ | ⟨b, c, -, -, h⟩ | ⟨b, -, -, h⟩ <;> rw [h]
  · exact ⟨rfl, rfl, rfl, rfl, rfl, rfl, rfl, rfl, rfl, rfl⟩
  · exact ce.choose_reselected b c
  · exact ⟨rfl, rfl, rfl, rfl, rfl, rfl, rfl, rfl, rfl, rfl⟩

theorem ChanEngine.reselectIf_reselected (ce : ChanEngine) (i : Nat) :
    ChanEngine.Reselected ce (ce.reselectIf i) := by
  unfold ChanEngine.reselectIf
  split
  · split
    · exact ce.cycleChannel_reselected
    · exact .refl ce
  · exact .refl ce

theorem ChanEngine.selectFirst_reselected (ce : ChanEngine) : ChanEngine.Reselected ce ce.selectFirst := by
  unfold ChanEngine.selectFirst
  split
  · exact ce.cycleChannel_reselected
  · exact .refl ce

/-- A selection elsewhere is not recomputed. -/
theorem ChanEngine.reselectIf_other (ce : ChanEngine) (i : Nat)
    (h : ∀ sel, ce.sel = some sel → sel.chan ≠ i) : ce.reselectIf i = ce := by
  unfold ChanEngine.reselectIf
  cases hs : ce.sel with
  | none => rfl
  | some sel => simp [h sel hs]

theorem ChanEngine.Reselected.nch {ce ce' : ChanEngine} (h : ChanEngine.Reselected ce ce') :
    ce'.nch = ce.nch := by simp [ChanEngine.nch, h.chans]

theorem ChanEngine.Reselected.nband {ce ce' : ChanEngine} (h : ChanEngine.Reselected ce ce') :
    ce'.nband = ce.nband := by simpa [ChanEngine.nband] using congrArg List.length h.num

/-- What every channel command but CE_INIT and CE_SET_RATE_POWER keeps: the capacities, the region and the
transmit and receive parameters (10_state.md rules R58 to R60). -/
structure ChanEngine.SameSettings (ce ce' : ChanEngine) : Prop where
  nch       : ce'.nch = ce.nch
  nband     : ce'.nband = ce.nband
  region    : ce'.region = ce.region
  rate      : ce'.rate = ce.rate
  power     : ce'.power = ce.power
  rx1Offset : ce'.rx1Offset = ce.rx1Offset
  rx2Freq   : ce'.rx2Freq = ce.rx2Freq
  rx2Rate   : ce'.rx2Rate = ce.rx2Rate

theorem ChanEngine.SameSettings.refl (ce : ChanEngine) : ChanEngine.SameSettings ce ce :=
  ⟨rfl, rfl, rfl, rfl, rfl, rfl, rfl, rfl⟩

theorem ChanEngine.SameSettings.trans {a b c : ChanEngine} (h : ChanEngine.SameSettings a b)
    (h' : ChanEngine.SameSettings b c) : ChanEngine.SameSettings a c :=
  ⟨h'.nch.trans h.nch, h'.nband.trans h.nband, h'.region.trans h.region, h'.rate.trans h.rate,
    h'.power.trans h.power, h'.rx1Offset.trans h.rx1Offset, h'.rx2Freq.trans h.rx2Freq,
    h'.rx2Rate.trans h.rx2Rate⟩

theorem ChanEngine.Reselected.same {ce ce' : ChanEngine} (h : ChanEngine.Reselected ce ce') :
    ChanEngine.SameSettings ce ce' :=
  ⟨h.nch, h.nband, h.region, h.rate, h.power, h.rx1Offset, h.rx2Freq, h.rx2Rate⟩

theorem ChanEngine.countDown_same (ce : ChanEngine) (b : Nat) : ChanEngine.SameSettings ce (ce.countDown b) :=
  ⟨rfl, by simp [ChanEngine.nband, ChanEngine.countDown], rfl, rfl, rfl, rfl, rfl, rfl⟩

theorem ChanEngine.countUp_same (ce : ChanEngine) (b : Nat) : ChanEngine.SameSettings ce (ce.countUp b) :=
  ⟨rfl, by simp [ChanEngine.nband, ChanEngine.countUp], rfl, rfl, rfl, rfl, rfl, rfl⟩

theorem ChanEngine.setSlot_same (ce : ChanEngine) (i : Nat) (ch : Channel) :
    ChanEngine.SameSettings ce (ce.setSlot i ch) :=
  ⟨by simp [ChanEngine.nch, ChanEngine.setSlot], rfl, rfl, rfl, rfl, rfl, rfl, rfl⟩

theorem ChanEngine.setReady_same (ce : ChanEngine) (b : Nat) (r : Time) :
    ChanEngine.SameSettings ce (ce.setReady b r) :=
  ⟨rfl, by simp [ChanEngine.nband, ChanEngine.setReady], rfl, rfl, rfl, rfl, rfl, rfl⟩

theorem ChanEngine.remove_same (ce : ChanEngine) (i : Nat) : ChanEngine.SameSettings ce (ce.remove i) := by
  unfold ChanEngine.remove
  split
  · exact .refl ce
  · rename_i ch _
    split
    · exact .refl ce
    · have h : ChanEngine.SameSettings ce (if ch.masked then ce else ce.countDown ch.band.toNat) := by
        split
        · exact .refl ce
        · exact ce.countDown_same _
      exact (h.trans (ChanEngine.setSlot_same _ _ _)).trans (ChanEngine.reselectIf_reselected _ _).same

theorem ChanEngine.add_same (p : RegionPort) (ce : ChanEngine) (i : Nat) (f : Word) :
    ChanEngine.SameSettings ce (ce.add p i f).1 := by
  unfold ChanEngine.add
  split
  · exact ce.remove_same i
  · split
    · exact .refl ce
    · simp only
      split
      · exact .refl ce
      · exact (((ce.remove_same i).trans (ChanEngine.setSlot_same _ _ _)).trans
          (ChanEngine.countUp_same _ _)).trans (ChanEngine.selectFirst_reselected _).same

theorem ChanEngine.mask_same (ce : ChanEngine) (i : Nat) : ChanEngine.SameSettings ce (ce.mask i).1 := by
  unfold ChanEngine.mask
  split
  · exact .refl ce
  · split
    · exact ((ce.setSlot_same _ _).trans (ChanEngine.countDown_same _ _)).trans
        (ChanEngine.reselectIf_reselected _ _).same
    · exact ce.setSlot_same _ _

theorem ChanEngine.unmask_same (ce : ChanEngine) (i : Nat) : ChanEngine.SameSettings ce (ce.unmask i).1 := by
  unfold ChanEngine.unmask
  split
  · exact .refl ce
  · split
    · exact ((ce.setSlot_same _ _).trans (ChanEngine.countUp_same _ _)).trans
        (ChanEngine.selectFirst_reselected _).same
    · exact ce.setSlot_same _ _

theorem ChanEngine.registerTx_same (p : RegionPort) (ce : ChanEngine) (now : Time) (len : Nat) :
    ChanEngine.SameSettings ce (ce.registerTx p now len) := by
  unfold ChanEngine.registerTx
  split
  · exact .refl ce
  · exact (ce.setReady_same _ _).trans (ChanEngine.cycleChannel_reselected _).same

/-- Adding a list of channels is folding `add` over it. -/
theorem ChanEngine.addAll_eq_foldl (p : RegionPort) (l : ChannelList) (ce : ChanEngine) :
    ChanEngine.addAll p ce l = l.foldl (fun ce entry => (ChanEngine.add p ce entry.1 entry.2).1) ce := by
  induction l generalizing ce with
  | nil => rfl
  | cons a l ih => exact ih _

/-- An index past the table adds and removes nothing. -/
theorem ChanEngine.add_past (p : RegionPort) (ce : ChanEngine) (i : Nat) (f : Word) (h : ce.nch ≤ i) :
    (ChanEngine.add p ce i f).1 = ce := by
  unfold ChanEngine.add
  split
  · have : ce.chans[i]? = none := by simpa [ChanEngine.nch] using h
    simp [ChanEngine.remove, this]
  · simp

theorem ChanEngine.addAll_same (p : RegionPort) (ce : ChanEngine) (l : ChannelList) :
    ChanEngine.SameSettings ce (ce.addAll p l) := by
  induction l generalizing ce with
  | nil => exact .refl ce
  | cons x rest ih => exact (ce.add_same p x.1 x.2).trans (ih _)

/-- CE_INIT keeps the capacities (R280). -/
theorem ChanEngine.initFor_size (p : RegionPort) (ce : ChanEngine) (region : Word) :
    (ce.initFor p region).nch = ce.nch ∧ (ce.initFor p region).nband = ce.nband := by
  have h := ChanEngine.addAll_same p (ce.emptyFor region) (p.askDefaultChannels region)
  have h1 : (ce.emptyFor region).nch = ce.nch := by simp [ChanEngine.nch, ChanEngine.emptyFor]
  have h2 : (ce.emptyFor region).nband = ce.nband := by simp [ChanEngine.nband, ChanEngine.emptyFor]
  exact ⟨h.nch.trans h1, h.nband.trans h2⟩

end Sys2Proof.Machine
end

