-- ==== Sys2Proof/Laws/Accounting.lean ====
section
/-! SUPPORT. The accounting of the channel engine (10_state.md rule R61): how the counts follow a slot that
becomes or stops being eligible, and that every internal function keeps the invariants. -/

namespace Sys2Proof.Machine

open Sys2Proof

/-- The invariants that do not speak of the selection. -/
structure ChanEngine.Accounted (ce : ChanEngine) : Prop where
  sized    : ce.Sized
  counts   : ∀ b band, ce.bands[b]? = some band → band.num.toNat = ce.liveCount b
  total_eq : ce.total.toNat = ce.bandSum
  assigned : ∀ (i : Nat) (ch : Channel), ce.chans[i]? = some ch → ch.freq ≠ 0 → ch.band.toNat < ce.nband
  last_lt  : ∀ (b : Nat) (band : Band) (c : Nat),
    ce.bands[b]? = some band → band.last = some c → c < ce.nch

theorem ChanEngine.Inv.accounted {ce : ChanEngine} (h : ce.Inv) : ce.Accounted :=
  ⟨h.sized, h.counts, h.total_eq, h.assigned, h.last_lt⟩

theorem Channel.eligible_iff (ch : Channel) (b : Nat) :
    ch.eligible b = true ↔ ch.freq ≠ 0 ∧ ch.band.toNat = b ∧ ch.masked = false := by
  simp [Channel.eligible, and_assoc]

theorem ChanEngine.eligibleAt_iff (ce : ChanEngine) (b c : Nat) :
    ce.eligibleAt b c = true ↔ ∃ ch, ce.chans[c]? = some ch ∧ ch.eligible b = true := by
  unfold ChanEngine.eligibleAt
  split <;> simp_all

theorem ChanEngine.liveCount_pos (ce : ChanEngine) (b : Nat) :
    0 < ce.liveCount b ↔ ∃ c, ce.eligibleAt b c = true := by
  simp only [ChanEngine.liveCount, List.countP_pos_iff, ChanEngine.eligibleAt_iff]
  constructor
  · rintro ⟨ch, hm, he⟩
    obtain ⟨c, hc⟩ := List.mem_iff_getElem?.mp hm
    exact ⟨c, ch, hc, he⟩
  · rintro ⟨c, ch, hc, he⟩
    exact ⟨ch, List.mem_iff_getElem?.mpr ⟨c, hc⟩, he⟩

theorem ChanEngine.liveCount_le (ce : ChanEngine) (b : Nat) : ce.liveCount b ≤ ce.nch := List.countP_le_length

/-- The count of a band after a slot was replaced. -/
theorem ChanEngine.liveCount_setSlot (ce : ChanEngine) (i : Nat) (old new : Channel) (b : Nat)
    (h : ce.chans[i]? = some old) :
    (ce.setSlot i new).liveCount b + (if old.eligible b then 1 else 0) =
      ce.liveCount b + (if new.eligible b then 1 else 0) := by
  obtain ⟨hi, he⟩ := List.getElem?_eq_some_iff.mp h
  simp only [ChanEngine.liveCount, ChanEngine.setSlot, List.countP_set hi, he]
  by_cases ho : old.eligible b = true
  · have hp : 0 < List.countP (fun ch => ch.eligible b) ce.chans :=
      List.countP_pos_iff.mpr ⟨old, List.mem_iff_getElem?.mpr ⟨i, h⟩, ho⟩
    simp only [ho, if_true]
    omega
  · simp [ho]

theorem getElem?_modify_band (l : List Band) (b i : Nat) (f : Band → Band) :
    (l.modify b f)[i]? = if b = i then (l[i]?).map f else l[i]? := by
  rw [List.getElem?_modify]
  split <;> simp

theorem getElem?_set_slot (l : List Channel) (i j : Nat) (new ch : Channel)
    (h : (l.set i new)[j]? = some ch) : ch = new ∨ l[j]? = some ch := by
  rw [List.getElem?_set] at h
  split at h
  · split at h
    · exact Or.inl (Option.some.inj h).symm
    · simp at h
  · exact Or.inr h

theorem sum_modify (l : List Band) (b : Nat) (f : Band → Band) (g : Band → Nat) (x : Band)
    (h : l[b]? = some x) : ((l.modify b f).map g).sum + g x = (l.map g).sum + g (f x) := by
  induction l generalizing b with
  | nil => simp at h
  | cons y rest ih =>
    cases b with
    | zero =>
      simp only [List.getElem?_cons_zero, Option.some.injEq] at h
      subst h
      simp only [List.modify_zero_cons, List.map_cons, List.sum_cons]
      omega
    | succ b =>
      have := ih b (by simpa using h)
      simp only [List.modify_succ_cons, List.map_cons, List.sum_cons]
      omega

/-- Every eligible slot is counted in one band at most, so the sum of the counts is within the capacity. -/
theorem sum_live_le (n : Nat) (l : List Channel) :
    ((List.range n).map (fun b => l.countP (fun ch => ch.eligible b))).sum ≤ l.length := by
  induction l with
  | nil => simp
  | cons x rest ih =>
    have hx : ∀ m, ((List.range m).map (fun b => if x.eligible b = true then 1 else 0)).sum ≤
        if x.band.toNat < m then 1 else 0 := by
      intro m
      induction m with
      | zero => simp
      | succ m ihm =>
        simp only [List.range_succ, List.map_append, List.sum_append, List.map_cons, List.map_nil,
          List.sum_cons, List.sum_nil, Channel.eligible_iff] at ihm ⊢
        split at ihm <;> split <;> split <;> omega
    have hs : ((List.range n).map (fun b => (x :: rest).countP (fun ch => ch.eligible b))).sum =
        ((List.range n).map (fun b => rest.countP (fun ch => ch.eligible b))).sum +
        ((List.range n).map (fun b => if x.eligible b = true then 1 else 0)).sum := by
      rw [← List.sum_map_add]
      simp only [List.countP_cons]
    have := hx n
    rw [hs, List.length_cons]
    split at this <;> omega

/-- The sum of the bands' counts is the sum of the live counts. -/
theorem ChanEngine.Accounted.bandSum_eq {ce : ChanEngine} (h : ce.Accounted) :
    ce.bandSum = ((List.range ce.nband).map ce.liveCount).sum := by
  unfold ChanEngine.bandSum
  congr 1
  apply List.ext_getElem?
  intro b
  rw [List.getElem?_map, List.getElem?_map]
  by_cases hb : b < ce.nband
  · rw [List.getElem?_range hb]
    obtain ⟨band, hband⟩ : ∃ band, ce.bands[b]? = some band := ⟨_, List.getElem?_eq_getElem hb⟩
    simp [hband, h.counts b band hband]
  · rw [List.getElem?_eq_none (by simpa [ChanEngine.nband] using hb),
      List.getElem?_eq_none (by simpa using hb)]
    rfl

/-- The aggregate count is within the capacity (42_channel_engine.md rule R294). -/
theorem ChanEngine.Accounted.total_le {ce : ChanEngine} (h : ce.Accounted) : ce.total.toNat ≤ ce.nch := by
  rw [h.total_eq, h.bandSum_eq]
  exact sum_live_le ce.nband ce.chans

theorem ChanEngine.Accounted.band {ce : ChanEngine} (h : ce.Accounted) {b c : Nat}
    (he : ce.eligibleAt b c = true) : b < ce.nband := by
  obtain ⟨ch, hc, hch⟩ := (ce.eligibleAt_iff b c).mp he
  obtain ⟨hf, hb, -⟩ := (ch.eligible_iff b).mp hch
  exact hb ▸ h.assigned c ch hc hf

theorem ChanEngine.Accounted.num_pos {ce : ChanEngine} (h : ce.Accounted) {b c : Nat} {band : Band}
    (he : ce.eligibleAt b c = true) (hb : ce.bands[b]? = some band) : 0 < band.num.toNat := by
  rw [h.counts b band hb]
  exact (ce.liveCount_pos b).mpr ⟨c, he⟩

/-- With an eligible slot the aggregate count is not 0. -/
theorem ChanEngine.Accounted.total_pos {ce : ChanEngine} (h : ce.Accounted) {b c : Nat}
    (he : ce.eligibleAt b c = true) : 0 < ce.total.toNat := by
  have hb := h.band he
  have hband : ce.bands[b]? = some ce.bands[b] := List.getElem?_eq_getElem hb
  have := h.num_pos he hband
  rw [h.total_eq, ChanEngine.bandSum]
  exact Nat.lt_of_lt_of_le this (List.single_le_sum (by simp) _
    (List.mem_map.mpr ⟨_, List.getElem_mem hb, rfl⟩))

/-- With no eligible slot in any band the aggregate count is 0. -/
theorem ChanEngine.Accounted.total_zero {ce : ChanEngine} (h : ce.Accounted)
    (hz : ∀ (b : Nat) (band : Band), ce.bands[b]? = some band → band.num = 0) : ce.total = 0 := by
  have : ce.bandSum = 0 := by
    unfold ChanEngine.bandSum
    rw [List.sum_eq_zero]
    intro x hx
    obtain ⟨band, hm, rfl⟩ := List.mem_map.mp hx
    obtain ⟨b, hb⟩ := List.mem_iff_getElem?.mp hm
    rw [hz b band hb]; rfl
  apply BitVec.eq_of_toNat_eq
  rw [h.total_eq, this]; rfl

/-- A state that accounts for its slots and whose selection is live has the invariants. -/
theorem ChanEngine.Accounted.inv_of_sel {ce : ChanEngine} (h : ce.Accounted) (sel : Selection)
    (hs : ce.sel = some sel) (he : ce.eligibleAt sel.band sel.chan = true)
    (hl : ∃ band, ce.bands[sel.band]? = some band ∧ band.last = some sel.chan) : ce.Inv where
  sized := h.sized
  counts := h.counts
  total_eq := h.total_eq
  assigned := h.assigned
  sel_none := by
    have := h.total_pos he
    constructor
    · intro e; rw [hs] at e; simp at e
    · intro e; rw [e] at this; simp at this
  sel_live := by intro sel' e; rw [hs] at e; cases e; exact he
  sel_last := by intro sel' e; rw [hs] at e; cases e; exact hl
  last_lt := h.last_lt

/-- Recomputing the selection establishes the invariants, and the internal consistency fault does not occur. -/
theorem ChanEngine.Accounted.cycleChannel {ce : ChanEngine} (h : ce.Accounted) :
    ce.cycleChannel.Inv ∧ ce.cycleChannel.ifault = ce.ifault := by
  rcases ce.cycleChannel_cases with ⟨hb, e⟩ | ⟨b, c, hb, hc, e⟩ | ⟨b, hb, hc, e⟩ <;> rw [e]
  · refine ⟨⟨⟨h.sized.nch_pos, h.sized.nch_le, h.sized.nband_pos, h.sized.nband_le⟩, h.counts, h.total_eq,
      h.assigned, ?_, by simp, by simp, h.last_lt⟩, rfl⟩
    simpa using h.total_zero (fun b band hband => ce.bestBand_none hb b band hband)
  · obtain ⟨he, hlt, -⟩ := ce.nextSlot_some b c hc
    obtain ⟨band, hband, hn, -⟩ := ce.bestBand_some b hb
    have hm : ∀ b', (ce.choose b c).bands[b']? =
        if b = b' then (ce.bands[b']?).map (fun x => { x with last := some c }) else ce.bands[b']? :=
      fun b' => getElem?_modify_band _ _ _ _
    refine ⟨?_, rfl⟩
    have hacc : (ce.choose b c).Accounted := by
      refine ⟨⟨h.sized.nch_pos, h.sized.nch_le, ?_, ?_⟩, ?_, ?_, ?_, ?_⟩
      · simpa [ChanEngine.nband, ChanEngine.choose] using h.sized.nband_pos
      · simpa [ChanEngine.nband, ChanEngine.choose] using h.sized.nband_le
      · intro b' band' hb'
        rw [hm] at hb'
        split at hb'
        · obtain ⟨x, hx, rfl⟩ := Option.map_eq_some_iff.mp hb'
          exact h.counts b' x hx
        · exact h.counts b' band' hb'
      · show ce.total.toNat = _
        rw [h.total_eq]
        unfold ChanEngine.bandSum
        simp only [ChanEngine.choose]
        rw [map_modify_same]
        intro x; rfl
      · intro i ch hi hf
        have := h.assigned i ch hi hf
        simpa [ChanEngine.nband, ChanEngine.choose] using this
      · intro b' band' c' hb' hl'
        rw [hm] at hb'
        split at hb'
        · obtain ⟨x, hx, rfl⟩ := Option.map_eq_some_iff.mp hb'
          simp only [Option.some.injEq] at hl'
          exact hl' ▸ hlt
        · exact h.last_lt b' band' c' hb' hl'
    exact hacc.inv_of_sel ⟨b, c⟩ rfl he ⟨{ band with last := some c }, by rw [hm, hband]; simp, rfl⟩
  · obtain ⟨band, hband, hn, -⟩ := ce.bestBand_some b hb
    exfalso
    have hz := ce.nextSlot_none b hc
    apply hn
    have : band.num.toNat = 0 := by
      rw [h.counts b band hband]
      by_contra hne
      obtain ⟨c, hcc⟩ := (ce.liveCount_pos b).mp (Nat.pos_of_ne_zero hne)
      obtain ⟨ch, hch, -⟩ := (ce.eligibleAt_iff b c).mp hcc
      have hlt : c < ce.nch := (List.getElem?_eq_some_iff.mp hch).1
      rw [hz c hlt] at hcc
      simp at hcc
    exact BitVec.eq_of_toNat_eq this

/-- A slot no band counts, replaced by one no band counts. -/
theorem ChanEngine.Accounted.setSlot {ce : ChanEngine} (h : ce.Accounted) (i : Nat) (old new : Channel)
    (hi : ce.chans[i]? = some old) (ho : ∀ b, old.eligible b = false) (hn : ∀ b, new.eligible b = false)
    (hb : new.freq ≠ 0 → new.band.toNat < ce.nband) : (ce.setSlot i new).Accounted := by
  have hlt := (List.getElem?_eq_some_iff.mp hi).1
  refine ⟨?_, ?_, h.total_eq, ?_, ?_⟩
  · exact ⟨by simpa [ChanEngine.nch, ChanEngine.setSlot] using h.sized.nch_pos,
      by simpa [ChanEngine.nch, ChanEngine.setSlot] using h.sized.nch_le, h.sized.nband_pos, h.sized.nband_le⟩
  · intro b band hband
    have e := ce.liveCount_setSlot i old new b hi
    rw [ho, hn] at e
    rw [h.counts b band hband]
    simpa using e.symm
  · intro j ch hj hf
    rcases getElem?_set_slot _ _ _ _ _ hj with rfl | hj
    · exact hb hf
    · exact h.assigned j ch hj hf
  · intro b band c hband hl
    have := h.last_lt b band c hband hl
    simpa [ChanEngine.nch, ChanEngine.setSlot] using this

/-- A counted slot made ineligible, and taken out of the counts. -/
theorem ChanEngine.Accounted.down {ce : ChanEngine} (h : ce.Accounted) (i : Nat) (old new : Channel)
    (hi : ce.chans[i]? = some old) (hf : old.freq ≠ 0) (hm : old.masked = false)
    (hn : ∀ b, new.eligible b = false) (hb : new.freq ≠ 0 → new.band.toNat < ce.nband) :
    ((ce.setSlot i new).countDown old.band.toNat).Accounted := by
  have hlt := (List.getElem?_eq_some_iff.mp hi).1
  have helig : ce.eligibleAt old.band.toNat i = true :=
    (ce.eligibleAt_iff _ _).mpr ⟨old, hi, (old.eligible_iff _).mpr ⟨hf, rfl, hm⟩⟩
  have hbn := h.band helig
  obtain ⟨band, hband⟩ : ∃ band, ce.bands[old.band.toNat]? = some band := ⟨_, List.getElem?_eq_getElem hbn⟩
  have hpos := h.num_pos helig hband
  have htot := h.total_pos helig
  have hdec : (band.num - 1).toNat + 1 = band.num.toNat := by
    have := band.num.isLt
    rw [BitVec.toNat_sub]; simp; omega
  have hdect : (ce.total - 1).toNat + 1 = ce.total.toNat := by
    have := ce.total.isLt
    rw [BitVec.toNat_sub]; simp; omega
  refine ⟨?_, ?_, ?_, ?_, ?_⟩
  · exact ⟨by simpa [ChanEngine.nch, ChanEngine.setSlot, ChanEngine.countDown] using h.sized.nch_pos,
      by simpa [ChanEngine.nch, ChanEngine.setSlot, ChanEngine.countDown] using h.sized.nch_le,
      by simpa [ChanEngine.nband, ChanEngine.setSlot, ChanEngine.countDown] using h.sized.nband_pos,
      by simpa [ChanEngine.nband, ChanEngine.setSlot, ChanEngine.countDown] using h.sized.nband_le⟩
  · intro b band' hb'
    have e := ce.liveCount_setSlot i old new b hi
    rw [hn] at e
    show _ = (ce.setSlot i new).liveCount b
    simp only [ChanEngine.countDown, ChanEngine.setSlot, getElem?_modify_band] at hb'
    by_cases hbb : old.band.toNat = b
    · subst hbb
      rw [hband] at hb'
      simp only [if_true, Option.map_some, Option.some.injEq] at hb'
      subst hb'
      have hel : old.eligible old.band.toNat = true := (old.eligible_iff _).mpr ⟨hf, rfl, hm⟩
      have hc := h.counts _ _ hband
      simp only [hel, if_true, Bool.false_eq_true, if_false] at e
      show (band.num - 1).toNat = _
      omega
    · have hel : old.eligible b = false := by
        simp only [Bool.eq_false_iff, ne_eq, Channel.eligible_iff]; tauto
      simp only [hbb, if_false] at hb'
      rw [h.counts b band' hb']
      simp only [hel, Bool.false_eq_true, if_false] at e
      omega
  · show (ce.total - 1).toNat = _
    have e := sum_modify ce.bands old.band.toNat (fun band => { band with num := band.num - 1 })
      (fun band => band.num.toNat) band hband
    simp only at e
    have ht := h.total_eq
    simp only [ChanEngine.bandSum] at ht ⊢
    simp only [ChanEngine.countDown, ChanEngine.setSlot]
    omega
  · intro j ch hj hf'
    have hnb : ((ce.setSlot i new).countDown old.band.toNat).nband = ce.nband := by
      simp [ChanEngine.nband, ChanEngine.setSlot, ChanEngine.countDown]
    rw [hnb]
    rcases getElem?_set_slot _ _ _ _ _ hj with rfl | hj
    · exact hb hf'
    · exact h.assigned j ch hj hf'
  · intro b band' c hb' hl
    have hnc : ((ce.setSlot i new).countDown old.band.toNat).nch = ce.nch := by
      simp [ChanEngine.nch, ChanEngine.setSlot, ChanEngine.countDown]
    rw [hnc]
    simp only [ChanEngine.countDown, ChanEngine.setSlot, getElem?_modify_band] at hb'
    split at hb'
    · obtain ⟨x, hx, rfl⟩ := Option.map_eq_some_iff.mp hb'
      exact h.last_lt b x c hx hl
    · exact h.last_lt b band' c hb' hl

/-- A slot no band counts made eligible in a band, and put into the counts. -/
theorem ChanEngine.Accounted.up {ce : ChanEngine} (h : ce.Accounted) (i : Nat) (old new : Channel) (b₀ : Nat)
    (hi : ce.chans[i]? = some old) (ho : ∀ b, old.eligible b = false)
    (hn : ∀ b, new.eligible b = decide (b = b₀)) (hb₀ : b₀ < ce.nband)
    (hb : new.freq ≠ 0 → new.band.toNat < ce.nband) :
    ((ce.setSlot i new).countUp b₀).Accounted ∧
      ((ce.setSlot i new).countUp b₀).total.toNat = ce.total.toNat + 1 := by
  have hlt := (List.getElem?_eq_some_iff.mp hi).1
  obtain ⟨band, hband⟩ : ∃ band, ce.bands[b₀]? = some band := ⟨_, List.getElem?_eq_getElem hb₀⟩
  have hle := h.total_le
  have hnch := h.sized.nch_le
  have hlive := ce.liveCount_le b₀
  have hcb := h.counts b₀ band hband
  have hinc : (band.num + 1).toNat = band.num.toNat + 1 := by
    rw [BitVec.toNat_add]; simp; omega
  have hinct : (ce.total + 1).toNat = ce.total.toNat + 1 := by
    rw [BitVec.toNat_add]; simp; omega
  refine ⟨⟨?_, ?_, ?_, ?_, ?_⟩, hinct⟩
  · exact ⟨by simpa [ChanEngine.nch, ChanEngine.setSlot, ChanEngine.countUp] using h.sized.nch_pos,
      by simpa [ChanEngine.nch, ChanEngine.setSlot, ChanEngine.countUp] using h.sized.nch_le,
      by simpa [ChanEngine.nband, ChanEngine.setSlot, ChanEngine.countUp] using h.sized.nband_pos,
      by simpa [ChanEngine.nband, ChanEngine.setSlot, ChanEngine.countUp] using h.sized.nband_le⟩
  · intro b band' hb'
    have e := ce.liveCount_setSlot i old new b hi
    rw [ho, hn] at e
    show _ = (ce.setSlot i new).liveCount b
    simp only [ChanEngine.countUp, ChanEngine.setSlot, getElem?_modify_band] at hb'
    by_cases hbb : b₀ = b
    · subst hbb
      rw [hband] at hb'
      simp only [if_true, Option.map_some, Option.some.injEq] at hb'
      subst hb'
      simp only [decide_true, if_true, Bool.false_eq_true, if_false] at e
      show (band.num + 1).toNat = _
      omega
    · simp only [hbb, if_false] at hb'
      rw [h.counts b band' hb']
      simp only [show ¬ b = b₀ from fun x => hbb x.symm, decide_false, Bool.false_eq_true, if_false] at e
      omega
  · show (ce.total + 1).toNat = _
    have e := sum_modify ce.bands b₀ (fun band => { band with num := band.num + 1 })
      (fun band => band.num.toNat) band hband
    simp only at e
    have ht := h.total_eq
    simp only [ChanEngine.bandSum] at ht ⊢
    simp only [ChanEngine.countUp, ChanEngine.setSlot]
    omega
  · intro j ch hj hf'
    have hnb : ((ce.setSlot i new).countUp b₀).nband = ce.nband := by
      simp [ChanEngine.nband, ChanEngine.setSlot, ChanEngine.countUp]
    rw [hnb]
    rcases getElem?_set_slot _ _ _ _ _ hj with rfl | hj
    · exact hb hf'
    · exact h.assigned j ch hj hf'
  · intro b band' c hb' hl
    have hnc : ((ce.setSlot i new).countUp b₀).nch = ce.nch := by
      simp [ChanEngine.nch, ChanEngine.setSlot, ChanEngine.countUp]
    rw [hnc]
    simp only [ChanEngine.countUp, ChanEngine.setSlot, getElem?_modify_band] at hb'
    split at hb'
    · obtain ⟨x, hx, rfl⟩ := Option.map_eq_some_iff.mp hb'
      exact h.last_lt b x c hx hl
    · exact h.last_lt b band' c hb' hl

/-- An internal function keeps the invariants and does not set IFAULT. -/
def ChanEngine.Good (ce ce' : ChanEngine) : Prop := ce'.Inv ∧ ce'.ifault = ce.ifault

theorem Channel.not_eligible_freq (ch : Channel) (h : ch.freq = 0) (b : Nat) : ch.eligible b = false := by
  simp [Channel.eligible, h]

theorem Channel.not_eligible_masked (ch : Channel) (h : ch.masked = true) (b : Nat) :
    ch.eligible b = false := by simp [Channel.eligible, h]

/-- An eligible slot stays so when another slot is replaced. -/
theorem ChanEngine.eligibleAt_setSlot (ce : ChanEngine) (i b c : Nat) (new : Channel) (h : c ≠ i) :
    (ce.setSlot i new).eligibleAt b c = ce.eligibleAt b c := by
  simp only [ChanEngine.eligibleAt, ChanEngine.setSlot, List.getElem?_set_ne (Ne.symm h)]

/-- The selected slot of a state with the invariants is counted, so a slot no band counts is not selected. -/
theorem ChanEngine.Inv.sel_ne {ce : ChanEngine} (h : ce.Inv) (sel : Selection) (hs : ce.sel = some sel)
    (i : Nat) (ch : Channel) (hi : ce.chans[i]? = some ch) (hn : ∀ b, ch.eligible b = false) :
    sel.chan ≠ i := by
  intro e
  obtain ⟨ch', hc, he⟩ := (ce.eligibleAt_iff _ _).mp (h.sel_live sel hs)
  rw [e, hi] at hc
  cases hc
  rw [hn] at he
  simp at he

/-- A replacement of a slot no band counts keeps the invariants. -/
theorem ChanEngine.Inv.setSlot {ce : ChanEngine} (h : ce.Inv) (i : Nat) (old new : Channel)
    (hi : ce.chans[i]? = some old) (ho : ∀ b, old.eligible b = false) (hn : ∀ b, new.eligible b = false)
    (hb : new.freq ≠ 0 → new.band.toNat < ce.nband) : ChanEngine.Good ce (ce.setSlot i new) := by
  have hacc := h.accounted.setSlot i old new hi ho hn hb
  refine ⟨?_, rfl⟩
  cases hs : ce.sel with
  | none =>
    have ht := h.sel_none.mp hs
    refine ⟨hacc.sized, hacc.counts, hacc.total_eq, hacc.assigned, ⟨fun _ => ht, fun _ => hs⟩, ?_, ?_,
      hacc.last_lt⟩ <;>
    · intro sel e
      have : ce.sel = some sel := e
      rw [hs] at this
      simp at this
  | some sel =>
    refine hacc.inv_of_sel sel hs ?_ (h.sel_last sel hs)
    rw [ChanEngine.eligibleAt_setSlot _ _ _ _ _ (h.sel_ne sel hs i old hi ho)]
    exact h.sel_live sel hs

theorem last_modify (bands : List Band) (b b' c : Nat) (f : Band → Band) (hf : ∀ x, (f x).last = x.last)
    (h : ∃ band, bands[b']? = some band ∧ band.last = some c) :
    ∃ band, (bands.modify b f)[b']? = some band ∧ band.last = some c := by
  obtain ⟨band, hb, hl⟩ := h
  rw [getElem?_modify_band, hb]
  split
  · exact ⟨f band, rfl, by rw [hf]; exact hl⟩
  · exact ⟨band, rfl, hl⟩

/-- A counted slot made ineligible, the selection recomputed if it was the selected one. -/
theorem ChanEngine.Inv.down {ce : ChanEngine} (h : ce.Inv) (i : Nat) (old new : Channel)
    (hi : ce.chans[i]? = some old) (hf : old.freq ≠ 0) (hm : old.masked = false)
    (hn : ∀ b, new.eligible b = false) (hb : new.freq ≠ 0 → new.band.toNat < ce.nband) :
    ChanEngine.Good ce (((ce.setSlot i new).countDown old.band.toNat).reselectIf i) := by
  have hacc := h.accounted.down i old new hi hf hm hn hb
  have helig : ce.eligibleAt old.band.toNat i = true :=
    (ce.eligibleAt_iff _ _).mpr ⟨old, hi, (old.eligible_iff _).mpr ⟨hf, rfl, hm⟩⟩
  cases hs : ce.sel with
  | none =>
    have ht := h.accounted.total_pos helig
    rw [h.sel_none.mp hs] at ht
    simp at ht
  | some sel =>
    have hs' : ((ce.setSlot i new).countDown old.band.toNat).sel = some sel := hs
    unfold ChanEngine.reselectIf
    rw [hs']
    by_cases e : sel.chan = i
    · simp only [e, if_true]
      exact hacc.cycleChannel
    · simp only [e, if_false]
      refine ⟨hacc.inv_of_sel sel hs' ?_ (last_modify _ _ _ _ _ (fun _ => rfl) (h.sel_last sel hs)), rfl⟩
      have := ce.eligibleAt_setSlot i sel.band sel.chan new e
      rw [h.sel_live sel hs] at this
      exact this

/-- A slot made eligible, the selection computed if it is the only one. -/
theorem ChanEngine.Inv.up {ce : ChanEngine} (h : ce.Inv) (i : Nat) (old new : Channel) (b₀ : Nat)
    (hi : ce.chans[i]? = some old) (ho : ∀ b, old.eligible b = false)
    (hn : ∀ b, new.eligible b = decide (b = b₀)) (hb₀ : b₀ < ce.nband)
    (hb : new.freq ≠ 0 → new.band.toNat < ce.nband) :
    ChanEngine.Good ce ((ce.setSlot i new).countUp b₀).selectFirst := by
  obtain ⟨hacc, htot⟩ := h.accounted.up i old new b₀ hi ho hn hb₀ hb
  unfold ChanEngine.selectFirst
  split
  · exact hacc.cycleChannel
  · rename_i hne
    cases hs : ce.sel with
    | none =>
      exfalso
      apply hne
      apply BitVec.eq_of_toNat_eq
      rw [htot, h.sel_none.mp hs]
      rfl
    | some sel =>
      refine ⟨hacc.inv_of_sel sel hs ?_ (last_modify _ _ _ _ _ (fun _ => rfl) (h.sel_last sel hs)), rfl⟩
      have := ce.eligibleAt_setSlot i sel.band sel.chan new (h.sel_ne sel hs i old hi ho)
      rw [h.sel_live sel hs] at this
      exact this

theorem ChanEngine.Inv.remove {ce : ChanEngine} (h : ce.Inv) (i : Nat) :
    ChanEngine.Good ce (ce.remove i) := by
  unfold ChanEngine.remove
  cases hi : ce.chans[i]? with
  | none => exact ⟨h, rfl⟩
  | some ch =>
    simp only
    split
    · exact ⟨h, rfl⟩
    · rename_i hf
      have hn := Channel.not_eligible_freq { ch with freq := 0 } rfl
      cases hm : ch.masked with
      | true =>
        simp only [if_true]
        obtain ⟨hg, hi'⟩ := h.setSlot i ch { ch with freq := 0 } hi (ch.not_eligible_masked hm) hn (by simp)
        rw [ChanEngine.reselectIf_other]
        · exact ⟨by simpa [hm] using hg, rfl⟩
        · intro sel hs
          exact h.sel_ne sel hs i ch hi (ch.not_eligible_masked hm)
      | false =>
        have := h.down i ch { ch with freq := 0 } hi hf hm hn (by simp)
        rw [hm] at this
        exact this

theorem ChanEngine.Inv.mask {ce : ChanEngine} (h : ce.Inv) (i : Nat) :
    ChanEngine.Good ce (ce.mask i).1 := by
  unfold ChanEngine.mask
  cases hi : ce.chans[i]? with
  | none => exact ⟨h, rfl⟩
  | some ch =>
    have hn := Channel.not_eligible_masked { ch with masked := true } rfl
    have hb := h.assigned i ch hi
    simp only
    split
    · rename_i hc
      exact h.down i ch { ch with masked := true } hi hc.1 hc.2 hn hb
    · rename_i hc
      refine h.setSlot i ch { ch with masked := true } hi (fun b => ?_) hn hb
      rw [Bool.eq_false_iff, ne_eq, Channel.eligible_iff]
      exact fun x => hc ⟨x.1, x.2.2⟩

theorem ChanEngine.Inv.unmask {ce : ChanEngine} (h : ce.Inv) (i : Nat) :
    ChanEngine.Good ce (ce.unmask i).1 := by
  unfold ChanEngine.unmask
  cases hi : ce.chans[i]? with
  | none => exact ⟨h, rfl⟩
  | some ch =>
    have hb := h.assigned i ch hi
    simp only
    split
    · rename_i hc
      refine h.up i ch { ch with masked := false } ch.band.toNat hi (ch.not_eligible_masked hc.2) (fun b => ?_)
        (hb hc.1) hb
      rw [Bool.eq_iff_iff, Channel.eligible_iff, decide_eq_true_eq]
      exact ⟨fun x => x.2.1.symm, fun e => ⟨hc.1, e.symm, rfl⟩⟩
    · rename_i hc
      by_cases hf : ch.freq = 0
      · exact h.setSlot i ch { ch with masked := false } hi (ch.not_eligible_freq hf)
          (Channel.not_eligible_freq _ hf) hb
      · have hm : ch.masked = false := by
          rw [Bool.eq_false_iff]; exact fun x => hc ⟨hf, x⟩
        have e : ({ ch with masked := false } : Channel) = ch := by
          rw [← hm]
        rw [e]
        have : ce.setSlot i ch = ce := by
          simp only [ChanEngine.setSlot]
          have : ce.chans.set i ch = ce.chans := by
            apply List.ext_getElem?
            intro j
            rw [List.getElem?_set]
            split
            · rename_i hij
              subst hij
              rw [hi]
              simp [(List.getElem?_eq_some_iff.mp hi).1]
            · rfl
          rw [this]
        rw [this]
        exact ⟨h, rfl⟩

/-- What removing a slot leaves of the slot: it is absent. -/
theorem ChanEngine.remove_slot (ce : ChanEngine) (i : Nat) (hi : i < ce.nch) :
    ∃ ch, (ce.remove i).chans[i]? = some ch ∧ ch.freq = 0 := by
  have hch : ce.chans[i]? = some ce.chans[i] := List.getElem?_eq_getElem hi
  unfold ChanEngine.remove
  rw [hch]
  simp only
  split
  · rename_i hf
    exact ⟨_, hch, hf⟩
  · refine ⟨{ ce.chans[i] with freq := 0 }, ?_, rfl⟩
    rw [(ChanEngine.reselectIf_reselected _ i).chans]
    have hl : i < ce.chans.length := hi
    split <;> simp [ChanEngine.setSlot, ChanEngine.countDown, hl]

theorem ChanEngine.Inv.add {ce : ChanEngine} (h : ce.Inv) (p : RegionPort) (i : Nat) (f : Word) :
    ChanEngine.Good ce (ce.add p i f).1 := by
  unfold ChanEngine.add
  split
  · exact h.remove i
  · rename_i hf
    split
    · exact ⟨h, rfl⟩
    · rename_i hi
      simp only
      split
      · exact ⟨h, rfl⟩
      · rename_i hv
        simp only [Bool.or_eq_true, Bool.not_eq_true', decide_eq_true_eq, not_or, Bool.not_eq_false,
          Nat.not_le] at hv
        obtain ⟨hg, hif⟩ := h.remove i
        obtain ⟨old, hold, hof⟩ := ce.remove_slot i (by omega)
        have hnb := (ce.remove_same i).nband
        have hlt : (p.askValidate ce.region f).subBand < (ce.remove i).nband := by rw [hnb]; exact hv.2
        have hb8 : (BitVec.ofNat 8 (p.askValidate ce.region f).subBand).toNat =
            (p.askValidate ce.region f).subBand := by
          have := h.sized.nband_le
          rw [BitVec.toNat_ofNat]
          exact Nat.mod_eq_of_lt (by omega)
        have := hg.up i old (newSlot f (p.askValidate ce.region f).subBand)
          (p.askValidate ce.region f).subBand hold (old.not_eligible_freq hof) (fun b => ?_) hlt
          (fun _ => by simpa only [newSlot, hb8] using hlt)
        · exact ⟨this.1, this.2.trans hif⟩
        · rw [Bool.eq_iff_iff, Channel.eligible_iff]
          simp only [newSlot, hb8, decide_eq_true_eq]
          exact ⟨fun x => x.2.1.symm, fun e => ⟨hf, e.symm, trivial⟩⟩

theorem ChanEngine.Inv.addAll {ce : ChanEngine} (h : ce.Inv) (p : RegionPort) (l : ChannelList) :
    ChanEngine.Good ce (ce.addAll p l) := by
  induction l generalizing ce with
  | nil => exact ⟨h, rfl⟩
  | cons x rest ih =>
    obtain ⟨h1, h2⟩ := h.add p x.1 x.2
    obtain ⟨h3, h4⟩ := ih h1
    exact ⟨h3, h4.trans h2⟩

/-- Empty tables of legal capacities have the invariants, whatever the settings and IFAULT are. -/
theorem ChanEngine.Inv.of_empty (ce : ChanEngine) (hs : ce.Sized)
    (hc : ∀ (i : Nat) (ch : Channel), ce.chans[i]? = some ch → ch = Channel.empty)
    (hb : ∀ (b : Nat) (band : Band), ce.bands[b]? = some band → band = Band.empty)
    (hsel : ce.sel = none) (ht : ce.total = 0) : ce.Inv := by
  have hlive : ∀ b, ce.liveCount b = 0 := by
    intro b
    by_contra hne
    obtain ⟨c, he⟩ := (ce.liveCount_pos b).mp (Nat.pos_of_ne_zero hne)
    obtain ⟨ch, hch, hel⟩ := (ce.eligibleAt_iff b c).mp he
    rw [hc c ch hch] at hel
    simp [Channel.eligible, Channel.empty] at hel
  refine ⟨hs, ?_, ?_, ?_, by simp [hsel, ht], by simp [hsel], by simp [hsel], ?_⟩
  · intro b band hband
    rw [hb b band hband, hlive]; rfl
  · rw [ht]
    unfold ChanEngine.bandSum
    symm
    apply List.sum_eq_zero
    intro x hx
    obtain ⟨band, hm, rfl⟩ := List.mem_map.mp hx
    obtain ⟨b, hband⟩ := List.mem_iff_getElem?.mp hm
    rw [hb b band hband]; rfl
  · intro i ch hi hf
    rw [hc i ch hi] at hf
    exact absurd rfl hf
  · intro b band c hband hl
    rw [hb b band hband] at hl
    simp [Band.empty] at hl

theorem ChanEngine.Inv.empty (nch nband : Nat) (h1 : 1 ≤ nch) (h2 : nch ≤ 64) (h3 : 1 ≤ nband)
    (h4 : nband ≤ 32) : (ChanEngine.empty nch nband).Inv := by
  refine ChanEngine.Inv.of_empty _ ?_ ?_ ?_ rfl rfl
  · constructor <;> simpa [ChanEngine.nch, ChanEngine.nband, ChanEngine.empty]
  · intro i ch h
    exact List.eq_of_mem_replicate (List.mem_iff_getElem?.mpr ⟨i, h⟩)
  · intro i ch h
    exact List.eq_of_mem_replicate (List.mem_iff_getElem?.mpr ⟨i, h⟩)

theorem ChanEngine.Inv.emptyFor {ce : ChanEngine} (h : ce.Inv) (region : Word) :
    ChanEngine.Good ce (ce.emptyFor region) := by
  refine ⟨ChanEngine.Inv.of_empty _ ?_ ?_ ?_ rfl rfl, rfl⟩
  · obtain ⟨h1, h2, h3, h4⟩ := h.sized
    constructor <;> simpa [ChanEngine.nch, ChanEngine.nband, ChanEngine.emptyFor]
  · intro i ch h
    exact List.eq_of_mem_replicate (List.mem_iff_getElem?.mpr ⟨i, h⟩)
  · intro i ch h
    exact List.eq_of_mem_replicate (List.mem_iff_getElem?.mpr ⟨i, h⟩)

/-- The invariants do not speak of the settings. -/
theorem ChanEngine.Inv.settings {ce ce' : ChanEngine} (h : ce.Inv) (hc : ce'.chans = ce.chans)
    (hb : ce'.bands = ce.bands) (hs : ce'.sel = ce.sel) (ht : ce'.total = ce.total) : ce'.Inv := by
  obtain ⟨a1, a2, a3, a4, a5, a6, a7, a8, a9, a10, a11⟩ := ce
  obtain ⟨b1, b2, b3, b4, b5, b6, b7, b8, b9, b10, b11⟩ := ce'
  simp only at hc hb hs ht
  subst hc hb hs ht
  exact ⟨⟨h.sized.nch_pos, h.sized.nch_le, h.sized.nband_pos, h.sized.nband_le⟩, h.counts, h.total_eq,
    h.assigned, h.sel_none, h.sel_live, h.sel_last, h.last_lt⟩

theorem ChanEngine.Inv.initFor {ce : ChanEngine} (h : ce.Inv) (p : RegionPort) (region : Word) :
    ChanEngine.Good ce (ce.initFor p region) := by
  obtain ⟨h1, h2⟩ := h.emptyFor region
  obtain ⟨h3, h4⟩ := h1.addAll p (p.askDefaultChannels region)
  exact ⟨h3.settings rfl rfl rfl rfl, h4.trans h2⟩

theorem ChanEngine.Accounted.setReady {ce : ChanEngine} (h : ce.Accounted) (b : Nat) (r : Time) :
    (ce.setReady b r).Accounted := by
  have hm : ∀ b', (ce.setReady b r).bands[b']? =
      if b = b' then (ce.bands[b']?).map (fun x => { x with ready := r }) else ce.bands[b']? :=
    fun b' => getElem?_modify_band _ _ _ _
  have hnb := (ce.setReady_same b r).nband
  refine ⟨⟨h.sized.nch_pos, h.sized.nch_le, by rw [hnb]; exact h.sized.nband_pos,
    by rw [hnb]; exact h.sized.nband_le⟩, ?_, ?_, ?_, ?_⟩
  · intro b' band' hb'
    rw [hm] at hb'
    split at hb'
    · obtain ⟨x, hx, rfl⟩ := Option.map_eq_some_iff.mp hb'
      exact h.counts b' x hx
    · exact h.counts b' band' hb'
  · show ce.total.toNat = _
    rw [h.total_eq]
    unfold ChanEngine.bandSum
    simp only [ChanEngine.setReady]
    rw [map_modify_same]
    intro x; rfl
  · intro i ch hi hf
    rw [hnb]
    exact h.assigned i ch hi hf
  · intro b' band' c hb' hl
    rw [hm] at hb'
    split at hb'
    · obtain ⟨x, hx, rfl⟩ := Option.map_eq_some_iff.mp hb'
      exact h.last_lt b' x c hx hl
    · exact h.last_lt b' band' c hb' hl

theorem ChanEngine.Inv.registerTx {ce : ChanEngine} (h : ce.Inv) (p : RegionPort) (now : Time) (len : Nat) :
    ChanEngine.Good ce (ce.registerTx p now len) := by
  unfold ChanEngine.registerTx
  split
  · exact ⟨h, rfl⟩
  · exact (h.accounted.setReady _ _).cycleChannel

end Sys2Proof.Machine
end

