-- ==== Sys2Proof/Laws/Bytes.lean ====
section
/-! SUPPORT. Byte strings: lengths, little-endian integers, words and blocks as four and sixteen bytes, the
exclusive-or of strings and a function mapped over 16-byte blocks. -/

namespace Sys2Proof

/-- An append of bit vectors as a number. -/
theorem toNat_append_add {n m : Nat} (x : BitVec n) (y : BitVec m) :
    (x ++ y).toNat = x.toNat * 2 ^ m + y.toNat := by
  rw [BitVec.toNat_append, ← Nat.shiftLeft_add_eq_or_of_lt y.isLt, Nat.shiftLeft_eq]

/-- A bit field as a number. -/
theorem toNat_field {n : Nat} (x : BitVec n) (lo len : Nat) :
    (x.extractLsb' lo len).toNat = x.toNat / 2 ^ lo % 2 ^ len := by
  rw [BitVec.extractLsb'_toNat, Nat.shiftRight_eq_div_pow]

@[simp] theorem le_length {w : Nat} (v : BitVec w) (n : Nat) : (le v n).length = n := by
  induction n generalizing v with
  | zero => rfl
  | succ n ih => simp [le, ih]

theorem uintLe_lt (bs : List Byte) : uintLe bs < 256 ^ bs.length := by
  induction bs with
  | nil => simp [uintLe]
  | cons b bs ih =>
    have hb : b.toNat < 256 := b.isLt
    simp only [uintLe, List.length_cons, Nat.pow_succ]
    omega

theorem uintLe_le {w : Nat} (v : BitVec w) (n : Nat) : uintLe (le v n) = v.toNat % 256 ^ n := by
  induction n generalizing v with
  | zero => simp [le, uintLe, Nat.mod_one]
  | succ n ih =>
    simp only [le, uintLe, ih, BitVec.toNat_setWidth, BitVec.toNat_ushiftRight, Nat.shiftRight_eq_div_pow]
    have e : 256 ^ (n + 1) = 2 ^ 8 * 256 ^ n := by
      rw [Nat.pow_succ, Nat.mul_comm]; norm_num
    rw [e, Nat.mod_mul]; norm_num

/-- The little-endian bytes of a word give the word back. -/
@[simp] theorem wordLe_le (w : Word) : wordLe (le w 4) = w := by
  apply BitVec.eq_of_toNat_eq
  have := w.isLt
  simp only [wordLe, uintLe_le, BitVec.toNat_ofNat]
  omega

/-- The word of four bytes has them as its little-endian bytes. -/
theorem le_wordLe (bs : List Byte) (h : bs.length = 4) : le (wordLe bs) 4 = bs := by
  match bs, h with
  | [a, b, c, d], _ =>
    have ha := a.isLt
    have hb := b.isLt
    have hc := c.isLt
    have hd := d.isLt
    simp only [le, wordLe, uintLe, List.cons.injEq, and_true]
    refine ⟨?_, ?_, ?_, ?_⟩ <;> apply BitVec.eq_of_toNat_eq <;>
      simp only [BitVec.toNat_setWidth, BitVec.toNat_ushiftRight, BitVec.toNat_ofNat,
        Nat.shiftRight_eq_div_pow] <;> omega

/-- The eight bytes of a 64-bit integer are the four of its low word, then the four of its high word. -/
theorem le_append (hi lo : Word) : le (hi ++ lo) 8 = le lo 4 ++ le hi 4 := by
  have h0 := lo.isLt
  have h1 := hi.isLt
  simp only [le, List.cons_append, List.nil_append, List.cons.injEq, and_true]
  refine ⟨?_, ?_, ?_, ?_, ?_, ?_, ?_, ?_⟩ <;> apply BitVec.eq_of_toNat_eq <;>
    simp only [BitVec.toNat_setWidth, BitVec.toNat_ushiftRight, toNat_append_add,
      Nat.shiftRight_eq_div_pow] <;> omega

/-- The bytes past an integer's width are 00: the last `n` bytes do not depend on how it is widened. -/
theorem le_setWidth {w v : Nat} (x : BitVec w) (n : Nat) (h : 8 * n ≤ v) :
    le (x.setWidth v) n = le x n := by
  induction n generalizing w v x with
  | zero => rfl
  | succ n ih =>
    have e : (x.setWidth v >>> 8).setWidth (8 * n) = (x >>> 8).setWidth (8 * n) := by
      ext i hi
      simp only [BitVec.getElem_setWidth, BitVec.getLsbD_ushiftRight, BitVec.getLsbD_setWidth]
      have : 8 + i < v := by omega
      simp [this]
    have e1 : (x.setWidth v).setWidth 8 = x.setWidth 8 := by
      ext i hi
      simp only [BitVec.getElem_setWidth, BitVec.getLsbD_setWidth]
      have : i < v := by omega
      simp [this]
    simp only [le, e1]
    rw [← ih (x.setWidth v >>> 8) (Nat.le_refl (8 * n)), e, ih (x >>> 8) (Nat.le_refl (8 * n))]

@[simp] theorem Col.ofWord_toWord (c : Col) : Col.ofWord c.toWord = c := by
  obtain ⟨a, b, c, d⟩ := c
  have ha := a.isLt
  have hb := b.isLt
  have hc := c.isLt
  have hd := d.isLt
  simp only [Col.toWord, Col.ofWord, Col.mk.injEq]
  refine ⟨?_, ?_, ?_, ?_⟩ <;> apply BitVec.eq_of_toNat_eq <;>
    simp only [toNat_field, toNat_append_add] <;> omega

@[simp] theorem Col.toWord_ofWord (w : Word) : (Col.ofWord w).toWord = w := by
  have hw := w.isLt
  apply BitVec.eq_of_toNat_eq
  simp only [Col.toWord, Col.ofWord, toNat_field, toNat_append_add]
  omega

@[simp] theorem Block.word_setWord_same (b : Block) (j : Fin 4) (w : Word) : (b.setWord j w).word j = w := by
  match j with
  | 0 => simp [Block.word, Block.setWord]
  | 1 => simp [Block.word, Block.setWord]
  | 2 => simp [Block.word, Block.setWord]
  | 3 => simp [Block.word, Block.setWord]

theorem Block.word_setWord_other (b : Block) (j k : Fin 4) (w : Word) (h : k ≠ j) :
    (b.setWord j w).word k = b.word k := by
  match j, k with
  | 0, 0 | 1, 1 | 2, 2 | 3, 3 => exact absurd rfl h
  | 0, 1 | 0, 2 | 0, 3 | 1, 0 | 1, 2 | 1, 3 | 2, 0 | 2, 1 | 2, 3 | 3, 0 | 3, 1 | 3, 2 => rfl

@[simp] theorem Col.bytes_length (c : Col) : c.bytes.length = 4 := rfl

@[simp] theorem Block.bytes_length (b : Block) : b.bytes.length = 16 := rfl

/-- A block's bytes, whatever follows them, are the block. -/
@[simp] theorem Block.ofBytes_bytes_append (b : Block) (r : List Byte) : Block.ofBytes (b.bytes ++ r) = b := rfl

@[simp] theorem Block.ofBytes_bytes (b : Block) : Block.ofBytes b.bytes = b := rfl

/-- The first sixteen bytes of a string are the bytes of its block. -/
theorem Block.bytes_ofBytes (m : List Byte) (h : 16 ≤ m.length) : (Block.ofBytes m).bytes = m.take 16 := by
  match m, h with
  | a0 :: a1 :: a2 :: a3 :: a4 :: a5 :: a6 :: a7 :: a8 :: a9 :: a10 :: a11 :: a12 :: a13 :: a14 :: a15 :: r,
    _ => rfl

@[simp] theorem Col.xor_xor_self (a k : Col) : (a.xor k).xor k = a := by
  simp [Col.xor]

@[simp] theorem Block.xor_xor_self (a k : Block) : (a.xor k).xor k = a := by simp [Block.xor]

@[simp] theorem xorBytes_length (a b : List Byte) : (xorBytes a b).length = min a.length b.length := by
  simp [xorBytes]

/-- A string exclusive-or'ed twice with one at least as long is the string. -/
theorem xorBytes_xorBytes (a k : List Byte) (h : a.length ≤ k.length) : xorBytes (xorBytes a k) k = a := by
  induction a generalizing k with
  | nil => simp [xorBytes]
  | cons x xs ih =>
    match k, h with
    | y :: ys, h =>
      have := ih ys (by simpa using h)
      simp only [xorBytes, List.zipWith_cons_cons, List.cons.injEq] at this ⊢
      exact ⟨by simp, this⟩

@[simp] theorem keystream_length (key : Block) (d : Bool) (a n : Word) (i k : Nat) :
    (keystream key d a n i k).length = 16 * k := by
  induction k generalizing i with
  | zero => rfl
  | succ k ih => simp [keystream, ih]; omega

@[simp] theorem mapBlocks_length (f : Block → Block) (n : Nat) (m : List Byte) :
    (mapBlocks f n m).length = 16 * n := by
  induction n generalizing m with
  | zero => rfl
  | succ n ih => simp [mapBlocks, ih]; omega

/-- A function on blocks undone block by block. -/
theorem mapBlocks_mapBlocks (f g : Block → Block) (h : ∀ b, g (f b) = b) (n : Nat) (m : List Byte)
    (hm : m.length = 16 * n) : mapBlocks g n (mapBlocks f n m) = m := by
  induction n generalizing m with
  | zero => simpa [mapBlocks] using (List.eq_nil_of_length_eq_zero hm).symm
  | succ n ih =>
    have hd : (m.drop 16).length = 16 * n := by simp; omega
    simp only [mapBlocks, Block.ofBytes_bytes_append, h]
    rw [List.drop_append_of_le_length (by simp), List.drop_of_length_le (by simp), List.nil_append,
      ih _ hd, Block.bytes_ofBytes m (by omega), List.take_append_drop]

@[simp] theorem mic32_length (t : Block) : (mic32 t).length = 4 := rfl

@[simp] theorem micData_length (key : Block) (d : Bool) (a n : Word) (m : List Byte) :
    (micData key d a n m).length = 4 := rfl

end Sys2Proof
end

