-- ==== Sys2Proof/Laws/Memory.lean ====
section
/-! SUPPORT. The buffers: a read after a write, the canonical form of the listed bytes, and byte strings and
words read back from where they were written. -/

namespace Sys2Proof.Machine

open Sys2Proof

theorem cellAt_putCell (l : List Host.Cell) (o a : Nat) (v : Byte) :
    cellAt (putCell l o v) a = if a = o then some v else cellAt l a := by
  induction l with
  | nil => simp [putCell, cellAt, eq_comm]
  | cons c rest ih =>
    obtain ⟨k, w⟩ := c
    simp only [putCell]
    split
    · simp only [cellAt, eq_comm]
    · split
      · subst_vars
        simp only [cellAt]
        split <;> simp_all [eq_comm]
      · simp only [cellAt, ih]
        split <;> simp_all [eq_comm]

theorem rising_mono (l : List Host.Cell) (i j : Nat) (h : i ≤ j) (hr : rising j l = true) :
    rising i l = true := by
  cases l with
  | nil => rfl
  | cons c rest =>
    simp only [rising, Bool.and_eq_true, decide_eq_true_eq] at hr ⊢
    exact ⟨by omega, hr.2⟩

theorem rising_putCell (l : List Host.Cell) (low o : Nat) (v : Byte) (h : low ≤ o)
    (hr : rising low l = true) : rising low (putCell l o v) = true := by
  induction l generalizing low with
  | nil => simpa [putCell, rising] using h
  | cons c rest ih =>
    obtain ⟨k, w⟩ := c
    simp only [rising, Bool.and_eq_true, decide_eq_true_eq] at hr
    simp only [putCell]
    split
    · simp only [rising, Bool.and_eq_true, decide_eq_true_eq]
      exact ⟨h, by omega, hr.2⟩
    · split
      · subst_vars
        simpa [rising] using ⟨h, hr.2⟩
      · simp only [rising, Bool.and_eq_true, decide_eq_true_eq]
        exact ⟨hr.1, ih (k + 1) (by omega) hr.2⟩

theorem all_putCell (p : Host.Cell → Bool) (l : List Host.Cell) (o : Nat) (v : Byte) (h : p (o, v) = true)
    (hl : l.all p = true) : (putCell l o v).all p = true := by
  induction l with
  | nil => simpa [putCell] using h
  | cons c rest ih =>
    obtain ⟨k, w⟩ := c
    simp only [List.all_cons, Bool.and_eq_true] at hl
    simp only [putCell]
    split
    · simp [h, hl]
    · split <;> simp [h, hl, ih hl.2]

/-- A write changes the byte it writes and no other; outside WBUF and PBUF it changes nothing. -/
theorem Memory.read_write (m : Memory) (o a : Nat) (v : Byte) :
    (m.write o v).read a = if a = o ∧ wbufBase ≤ o ∧ o < bufEnd then v else m.read a := by
  by_cases h : wbufBase ≤ o ∧ o < bufEnd
  · by_cases ha : a = o <;> simp [Memory.write, Memory.read, h, cellAt_putCell, ha]
  · simp [Memory.write, h]

theorem Memory.read_write_same (m : Memory) (o : Nat) (v : Byte) (h : wbufBase ≤ o) (h' : o < bufEnd) :
    (m.write o v).read o = v := by simp [Memory.read_write, h, h']

theorem Memory.read_write_other (m : Memory) (o a : Nat) (v : Byte) (h : a ≠ o) :
    (m.write o v).read a = m.read a := by simp [Memory.read_write, h]

@[simp] theorem Memory.write_resets (m : Memory) (o : Nat) (v : Byte) : (m.write o v).resets = m.resets := by
  unfold Memory.write; split <;> rfl

@[simp] theorem Memory.writeBytes_resets (m : Memory) (o : Nat) (bs : List Byte) :
    (m.writeBytes o bs).resets = m.resets := by
  induction bs generalizing m o with
  | nil => rfl
  | cons b bs ih => simp [Memory.writeBytes, ih]

/-- Every write keeps the canonical form. -/
theorem Memory.wf_write (m : Memory) (o : Nat) (v : Byte) (h : m.wf = true) : (m.write o v).wf = true := by
  unfold Memory.write
  split
  · rename_i hb
    simp only [Memory.wf, Bool.and_eq_true] at h ⊢
    exact ⟨rising_putCell _ _ _ _ hb.1 h.1, all_putCell _ _ _ _ (by simpa using hb.2) h.2⟩
  · exact h

theorem Memory.wf_writeBytes (m : Memory) (o : Nat) (bs : List Byte) (h : m.wf = true) :
    (m.writeBytes o bs).wf = true := by
  induction bs generalizing m o with
  | nil => exact h
  | cons b bs ih => exact ih _ _ (m.wf_write o b h)

theorem Memory.wf_writeWord (m : Memory) (o : Nat) (w : Word) (h : m.wf = true) :
    (m.writeWord o w).wf = true := m.wf_writeBytes _ _ h

theorem Memory.wf_powerCycle (m : Memory) : m.powerCycle.wf = true := rfl

theorem Memory.wf_powerOn : Memory.powerOn.wf = true := rfl

/-- The byte at an address after a byte string was written inside the buffers. -/
theorem Memory.read_writeBytes (m : Memory) (o a : Nat) (bs : List Byte) (h : wbufBase ≤ o)
    (h' : o + bs.length ≤ bufEnd) :
    (m.writeBytes o bs).read a = if o ≤ a then (bs[a - o]?).getD (m.read a) else m.read a := by
  induction bs generalizing m o with
  | nil => simp [Memory.writeBytes]
  | cons b bs ih =>
    simp only [List.length_cons] at h'
    rw [Memory.writeBytes, ih _ _ (by omega) (by omega), Memory.read_write]
    by_cases e : a = o
    · subst e
      simp [h, show a < bufEnd by omega, show ¬ a + 1 ≤ a by omega]
    · by_cases g : o + 1 ≤ a
      · have : a - o = a - (o + 1) + 1 := by omega
        simp [g, show o ≤ a by omega, this, e]
      · simp [g, show ¬ o ≤ a by omega, e]

/-- A byte string written leaves every byte outside it alone, wherever it is written. -/
theorem Memory.read_writeBytes_outside (m : Memory) (o a : Nat) (bs : List Byte)
    (h : a < o ∨ o + bs.length ≤ a) : (m.writeBytes o bs).read a = m.read a := by
  induction bs generalizing m o with
  | nil => rfl
  | cons b bs ih =>
    simp only [List.length_cons] at h
    rw [Memory.writeBytes, ih _ _ (by omega), Memory.read_write_other _ _ _ _ (by omega)]

@[simp] theorem Memory.readBytes_length (m : Memory) (o n : Nat) : (m.readBytes o n).length = n := by
  induction n generalizing o with
  | zero => rfl
  | succ n ih => simp [Memory.readBytes, ih]

theorem Memory.getElem?_readBytes (m : Memory) (o n i : Nat) :
    (m.readBytes o n)[i]? = if i < n then some (m.read (o + i)) else none := by
  induction n generalizing o i with
  | zero => simp [Memory.readBytes]
  | succ n ih =>
    cases i with
    | zero => simp [Memory.readBytes]
    | succ i => simp [Memory.readBytes, ih, Nat.add_assoc, Nat.add_comm 1 i]

/-- A string read is a byte string when each of its bytes is. -/
theorem Memory.readBytes_eq (m : Memory) (o : Nat) (bs : List Byte)
    (h : ∀ i (hi : i < bs.length), m.read (o + i) = bs[i]) : m.readBytes o bs.length = bs := by
  apply List.ext_getElem?
  intro i
  rw [Memory.getElem?_readBytes]
  split
  · rename_i hi
    rw [List.getElem?_eq_getElem hi, h i hi]
  · rename_i hi
    rw [List.getElem?_eq_none (by omega)]

theorem Memory.readBytes_congr (m m' : Memory) (o n : Nat)
    (h : ∀ i, i < n → m.read (o + i) = m'.read (o + i)) : m.readBytes o n = m'.readBytes o n := by
  apply List.ext_getElem?
  intro i
  simp only [Memory.getElem?_readBytes]
  split
  · rename_i hi; rw [h i hi]
  · rfl

theorem Memory.readBytes_add (m : Memory) (o a b : Nat) :
    m.readBytes o (a + b) = m.readBytes o a ++ m.readBytes (o + a) b := by
  induction a generalizing o with
  | zero => simp [Memory.readBytes]
  | succ a ih =>
    rw [Nat.succ_add, Memory.readBytes, Memory.readBytes, ih]
    simp [Nat.add_comm 1 a, Nat.add_assoc]

/-- A part of a string that was read. -/
theorem Memory.drop_readBytes (m : Memory) (o a b : Nat) :
    (m.readBytes o (a + b)).drop a = m.readBytes (o + a) b := by
  rw [Memory.readBytes_add, List.drop_append_of_le_length (by simp), List.drop_of_length_le (by simp),
    List.nil_append]

theorem Memory.take_readBytes (m : Memory) (o a b : Nat) :
    (m.readBytes o (a + b)).take a = m.readBytes o a := by
  rw [Memory.readBytes_add, List.take_append_of_le_length (by simp), List.take_of_length_le (by simp)]

/-- A byte string written inside the buffers reads back. -/
theorem Memory.readBytes_writeBytes (m : Memory) (o : Nat) (bs : List Byte) (h : wbufBase ≤ o)
    (h' : o + bs.length ≤ bufEnd) : (m.writeBytes o bs).readBytes o bs.length = bs := by
  apply Memory.readBytes_eq
  intro i hi
  rw [Memory.read_writeBytes _ _ _ _ h h']
  simp [hi]

/-- A part of a byte string written inside the buffers reads back. -/
theorem Memory.readBytes_writeBytes_part (m : Memory) (o i n : Nat) (bs : List Byte) (h : wbufBase ≤ o)
    (h' : o + bs.length ≤ bufEnd) (hn : i + n ≤ bs.length) :
    (m.writeBytes o bs).readBytes (o + i) n = (bs.drop i).take n := by
  have e := Memory.readBytes_writeBytes m o bs h h'
  obtain ⟨r, hr⟩ : ∃ r, bs.length = i + (n + r) := ⟨bs.length - i - n, by omega⟩
  rw [hr] at e
  have e1 := congrArg (fun l => (l.drop i).take n) e
  simpa only [Memory.drop_readBytes, Memory.take_readBytes] using e1

/-- A byte string elsewhere reads as before. -/
theorem Memory.readBytes_writeBytes_outside (m : Memory) (o a n : Nat) (bs : List Byte)
    (h : a + n ≤ o ∨ o + bs.length ≤ a) : (m.writeBytes o bs).readBytes a n = m.readBytes a n := by
  apply Memory.readBytes_congr
  intro i hi
  exact Memory.read_writeBytes_outside _ _ _ _ (by omega)

/-- A word written inside the buffers reads back (20_memory.md rule R105). -/
theorem Memory.readWord_writeWord (m : Memory) (o : Nat) (w : Word) (h : wbufBase ≤ o)
    (h' : o + 4 ≤ bufEnd) : (m.writeWord o w).readWord o = w := by
  have hl : (Col.ofWord w).bytes.length = 4 := rfl
  have r := fun a => Memory.read_writeBytes m o a (Col.ofWord w).bytes h (by omega)
  simp only [Memory.readWord, Memory.writeWord, r]
  simp only [Col.bytes, Nat.le_refl, Nat.le_add_right, if_true, Nat.sub_self, Nat.add_sub_cancel_left,
    List.getElem?_cons_zero, List.getElem?_cons_succ, Option.getD_some]
  exact Col.toWord_ofWord w

/-- A word elsewhere reads as before. -/
theorem Memory.readWord_writeWord_other (m : Memory) (o a : Nat) (w : Word) (h : a + 4 ≤ o ∨ o + 4 ≤ a) :
    (m.writeWord o w).readWord a = m.readWord a := by
  have hl : (Col.ofWord w).bytes.length = 4 := rfl
  have r := fun b hb => Memory.read_writeBytes_outside m o b (Col.ofWord w).bytes hb
  simp only [Memory.readWord, Memory.writeWord]
  rw [r a (by omega), r (a + 1) (by omega), r (a + 2) (by omega), r (a + 3) (by omega)]

end Sys2Proof.Machine
end

