-- ==== Sys2Proof/Laws/Operands.lean ====
section
/-! SUPPORT. The operand fields as numbers of the ARG registers (30_encoding.md rule R133). -/

namespace Sys2Proof.Machine

open Sys2Proof

theorem byteAt_eq (w : Word) (lo : Nat) : byteAt w lo = w.toNat / 2 ^ lo % 256 := toNat_field w lo 8

theorem byteAt_lt (w : Word) (lo : Nat) : byteAt w lo < 256 := BitVec.isLt _

theorem State.maxLen_eq (s : State) : s.maxLen = s.args.r0.toNat % 256 := by simp [State.maxLen, byteAt_eq]

theorem State.frameLen_eq (s : State) : s.frameLen = s.args.r0.toNat % 256 := by
  simp [State.frameLen, byteAt_eq]

theorem State.sizeDataLen_eq (s : State) : s.sizeDataLen = s.args.r0.toNat % 256 := by
  simp [State.sizeDataLen, byteAt_eq]

theorem State.sizeOptsLen_eq (s : State) : s.sizeOptsLen = s.args.r1.toNat % 256 := by
  simp [State.sizeOptsLen, byteAt_eq]

theorem State.typeArg_toNat (s : State) : s.typeArg.toNat = s.args.r0.toNat % 8 := by
  simp [State.typeArg]

theorem State.rangeOff_eq (s : State) : s.rangeOff = s.args.r0.toNat % 256 := by
  simp [State.rangeOff, byteAt_eq]

theorem State.rangeLen_eq (s : State) : s.rangeLen = s.args.r0.toNat / 256 % 256 := byteAt_eq _ 8

theorem State.rateArg_toNat (s : State) : s.rateArg.toNat = s.args.r0.toNat % 256 := by
  simp [State.rateArg]

theorem State.powerArg_toNat (s : State) : s.powerArg.toNat = s.args.r1.toNat % 256 := by
  simp [State.powerArg]

theorem State.nowArg_toNat (s : State) : s.nowArg.toNat = 2 ^ 32 * s.args.r1.toNat + s.args.r0.toNat := by
  rw [State.nowArg, toNat_append_add, Nat.mul_comm]

theorem State.txLen_eq (s : State) : s.txLen = s.args.r2.toNat % 256 := by simp [State.txLen, byteAt_eq]

theorem State.sfArg_eq (s : State) : s.sfArg = s.args.r0.toNat % 256 := by simp [State.sfArg, byteAt_eq]

theorem State.bwArg_eq (s : State) : s.bwArg = s.args.r0.toNat / 256 % 256 := byteAt_eq _ 8

theorem State.airLen_eq (s : State) : s.airLen = s.args.r1.toNat % 256 := by simp [State.airLen, byteAt_eq]

end Sys2Proof.Machine
end

