-- ==== Sys2Proof/Laws/State.lean ====
section
/-! SUPPORT. One lemma a field for each update of State, true by definition, so that no proof unfolds a record
update. -/

namespace Sys2Proof.Machine

open Sys2Proof

@[simp] theorem State.setWbuf_regionPort (s : State) (o : Nat) (bs : List Byte) : (s.setWbuf o bs).regionPort = s.regionPort := rfl
@[simp] theorem State.setWbuf_ie (s : State) (o : Nat) (bs : List Byte) : (s.setWbuf o bs).ie = s.ie := rfl
@[simp] theorem State.setWbuf_busy (s : State) (o : Nat) (bs : List Byte) : (s.setWbuf o bs).busy = s.busy := rfl
@[simp] theorem State.setWbuf_done (s : State) (o : Nat) (bs : List Byte) : (s.setWbuf o bs).done = s.done := rfl
@[simp] theorem State.setWbuf_errBusy (s : State) (o : Nat) (bs : List Byte) : (s.setWbuf o bs).errBusy = s.errBusy := rfl
@[simp] theorem State.setWbuf_cmd (s : State) (o : Nat) (bs : List Byte) : (s.setWbuf o bs).cmd = s.cmd := rfl
@[simp] theorem State.setWbuf_result (s : State) (o : Nat) (bs : List Byte) : (s.setWbuf o bs).result = s.result := rfl
@[simp] theorem State.setWbuf_args (s : State) (o : Nat) (bs : List Byte) : (s.setWbuf o bs).args = s.args := rfl
@[simp] theorem State.setWbuf_ress (s : State) (o : Nat) (bs : List Byte) : (s.setWbuf o bs).ress = s.ress := rfl
@[simp] theorem State.setWbuf_fd (s : State) (o : Nat) (bs : List Byte) : (s.setWbuf o bs).fd = s.fd := rfl
@[simp] theorem State.setWbuf_keys (s : State) (o : Nat) (bs : List Byte) : (s.setWbuf o bs).keys = s.keys := rfl
@[simp] theorem State.setWbuf_blk (s : State) (o : Nat) (bs : List Byte) : (s.setWbuf o bs).blk = s.blk := rfl
@[simp] theorem State.setWbuf_mem (s : State) (o : Nat) (bs : List Byte) : (s.setWbuf o bs).mem = s.mem.writeBytes (wbufBase + o) bs := rfl
@[simp] theorem State.setWbuf_ce (s : State) (o : Nat) (bs : List Byte) : (s.setWbuf o bs).ce = s.ce := rfl
@[simp] theorem State.setWbuf_host (s : State) (o : Nat) (bs : List Byte) : (s.setWbuf o bs).host = s.host := rfl

@[simp] theorem State.setRes0_regionPort (s : State) (v : Word) : (s.setRes0 v).regionPort = s.regionPort := rfl
@[simp] theorem State.setRes0_ie (s : State) (v : Word) : (s.setRes0 v).ie = s.ie := rfl
@[simp] theorem State.setRes0_busy (s : State) (v : Word) : (s.setRes0 v).busy = s.busy := rfl
@[simp] theorem State.setRes0_done (s : State) (v : Word) : (s.setRes0 v).done = s.done := rfl
@[simp] theorem State.setRes0_errBusy (s : State) (v : Word) : (s.setRes0 v).errBusy = s.errBusy := rfl
@[simp] theorem State.setRes0_cmd (s : State) (v : Word) : (s.setRes0 v).cmd = s.cmd := rfl
@[simp] theorem State.setRes0_result (s : State) (v : Word) : (s.setRes0 v).result = s.result := rfl
@[simp] theorem State.setRes0_args (s : State) (v : Word) : (s.setRes0 v).args = s.args := rfl
@[simp] theorem State.setRes0_ress (s : State) (v : Word) : (s.setRes0 v).ress = { s.ress with r0 := v } := rfl
@[simp] theorem State.setRes0_fd (s : State) (v : Word) : (s.setRes0 v).fd = s.fd := rfl
@[simp] theorem State.setRes0_keys (s : State) (v : Word) : (s.setRes0 v).keys = s.keys := rfl
@[simp] theorem State.setRes0_blk (s : State) (v : Word) : (s.setRes0 v).blk = s.blk := rfl
@[simp] theorem State.setRes0_mem (s : State) (v : Word) : (s.setRes0 v).mem = s.mem := rfl
@[simp] theorem State.setRes0_ce (s : State) (v : Word) : (s.setRes0 v).ce = s.ce := rfl
@[simp] theorem State.setRes0_host (s : State) (v : Word) : (s.setRes0 v).host = s.host := rfl

@[simp] theorem State.setRes1_regionPort (s : State) (v : Word) : (s.setRes1 v).regionPort = s.regionPort := rfl
@[simp] theorem State.setRes1_ie (s : State) (v : Word) : (s.setRes1 v).ie = s.ie := rfl
@[simp] theorem State.setRes1_busy (s : State) (v : Word) : (s.setRes1 v).busy = s.busy := rfl
@[simp] theorem State.setRes1_done (s : State) (v : Word) : (s.setRes1 v).done = s.done := rfl
@[simp] theorem State.setRes1_errBusy (s : State) (v : Word) : (s.setRes1 v).errBusy = s.errBusy := rfl
@[simp] theorem State.setRes1_cmd (s : State) (v : Word) : (s.setRes1 v).cmd = s.cmd := rfl
@[simp] theorem State.setRes1_result (s : State) (v : Word) : (s.setRes1 v).result = s.result := rfl
@[simp] theorem State.setRes1_args (s : State) (v : Word) : (s.setRes1 v).args = s.args := rfl
@[simp] theorem State.setRes1_ress (s : State) (v : Word) : (s.setRes1 v).ress = { s.ress with r1 := v } := rfl
@[simp] theorem State.setRes1_fd (s : State) (v : Word) : (s.setRes1 v).fd = s.fd := rfl
@[simp] theorem State.setRes1_keys (s : State) (v : Word) : (s.setRes1 v).keys = s.keys := rfl
@[simp] theorem State.setRes1_blk (s : State) (v : Word) : (s.setRes1 v).blk = s.blk := rfl
@[simp] theorem State.setRes1_mem (s : State) (v : Word) : (s.setRes1 v).mem = s.mem := rfl
@[simp] theorem State.setRes1_ce (s : State) (v : Word) : (s.setRes1 v).ce = s.ce := rfl
@[simp] theorem State.setRes1_host (s : State) (v : Word) : (s.setRes1 v).host = s.host := rfl

@[simp] theorem State.setBlk_regionPort (s : State) (b : Block) : (s.setBlk b).regionPort = s.regionPort := rfl
@[simp] theorem State.setBlk_ie (s : State) (b : Block) : (s.setBlk b).ie = s.ie := rfl
@[simp] theorem State.setBlk_busy (s : State) (b : Block) : (s.setBlk b).busy = s.busy := rfl
@[simp] theorem State.setBlk_done (s : State) (b : Block) : (s.setBlk b).done = s.done := rfl
@[simp] theorem State.setBlk_errBusy (s : State) (b : Block) : (s.setBlk b).errBusy = s.errBusy := rfl
@[simp] theorem State.setBlk_cmd (s : State) (b : Block) : (s.setBlk b).cmd = s.cmd := rfl
@[simp] theorem State.setBlk_result (s : State) (b : Block) : (s.setBlk b).result = s.result := rfl
@[simp] theorem State.setBlk_args (s : State) (b : Block) : (s.setBlk b).args = s.args := rfl
@[simp] theorem State.setBlk_ress (s : State) (b : Block) : (s.setBlk b).ress = s.ress := rfl
@[simp] theorem State.setBlk_fd (s : State) (b : Block) : (s.setBlk b).fd = s.fd := rfl
@[simp] theorem State.setBlk_keys (s : State) (b : Block) : (s.setBlk b).keys = s.keys := rfl
@[simp] theorem State.setBlk_blk (s : State) (b : Block) : (s.setBlk b).blk = b := rfl
@[simp] theorem State.setBlk_mem (s : State) (b : Block) : (s.setBlk b).mem = s.mem := rfl
@[simp] theorem State.setBlk_ce (s : State) (b : Block) : (s.setBlk b).ce = s.ce := rfl
@[simp] theorem State.setBlk_host (s : State) (b : Block) : (s.setBlk b).host = s.host := rfl

@[simp] theorem State.setFd_regionPort (s : State) (fd : FrameDesc) : (s.setFd fd).regionPort = s.regionPort := rfl
@[simp] theorem State.setFd_ie (s : State) (fd : FrameDesc) : (s.setFd fd).ie = s.ie := rfl
@[simp] theorem State.setFd_busy (s : State) (fd : FrameDesc) : (s.setFd fd).busy = s.busy := rfl
@[simp] theorem State.setFd_done (s : State) (fd : FrameDesc) : (s.setFd fd).done = s.done := rfl
@[simp] theorem State.setFd_errBusy (s : State) (fd : FrameDesc) : (s.setFd fd).errBusy = s.errBusy := rfl
@[simp] theorem State.setFd_cmd (s : State) (fd : FrameDesc) : (s.setFd fd).cmd = s.cmd := rfl
@[simp] theorem State.setFd_result (s : State) (fd : FrameDesc) : (s.setFd fd).result = s.result := rfl
@[simp] theorem State.setFd_args (s : State) (fd : FrameDesc) : (s.setFd fd).args = s.args := rfl
@[simp] theorem State.setFd_ress (s : State) (fd : FrameDesc) : (s.setFd fd).ress = s.ress := rfl
@[simp] theorem State.setFd_fd (s : State) (fd : FrameDesc) : (s.setFd fd).fd = fd := rfl
@[simp] theorem State.setFd_keys (s : State) (fd : FrameDesc) : (s.setFd fd).keys = s.keys := rfl
@[simp] theorem State.setFd_blk (s : State) (fd : FrameDesc) : (s.setFd fd).blk = s.blk := rfl
@[simp] theorem State.setFd_mem (s : State) (fd : FrameDesc) : (s.setFd fd).mem = s.mem := rfl
@[simp] theorem State.setFd_ce (s : State) (fd : FrameDesc) : (s.setFd fd).ce = s.ce := rfl
@[simp] theorem State.setFd_host (s : State) (fd : FrameDesc) : (s.setFd fd).host = s.host := rfl

@[simp] theorem State.setCe_regionPort (s : State) (ce : ChanEngine) : (s.setCe ce).regionPort = s.regionPort := rfl
@[simp] theorem State.setCe_ie (s : State) (ce : ChanEngine) : (s.setCe ce).ie = s.ie := rfl
@[simp] theorem State.setCe_busy (s : State) (ce : ChanEngine) : (s.setCe ce).busy = s.busy := rfl
@[simp] theorem State.setCe_done (s : State) (ce : ChanEngine) : (s.setCe ce).done = s.done := rfl
@[simp] theorem State.setCe_errBusy (s : State) (ce : ChanEngine) : (s.setCe ce).errBusy = s.errBusy := rfl
@[simp] theorem State.setCe_cmd (s : State) (ce : ChanEngine) : (s.setCe ce).cmd = s.cmd := rfl
@[simp] theorem State.setCe_result (s : State) (ce : ChanEngine) : (s.setCe ce).result = s.result := rfl
@[simp] theorem State.setCe_args (s : State) (ce : ChanEngine) : (s.setCe ce).args = s.args := rfl
@[simp] theorem State.setCe_ress (s : State) (ce : ChanEngine) : (s.setCe ce).ress = s.ress := rfl
@[simp] theorem State.setCe_fd (s : State) (ce : ChanEngine) : (s.setCe ce).fd = s.fd := rfl
@[simp] theorem State.setCe_keys (s : State) (ce : ChanEngine) : (s.setCe ce).keys = s.keys := rfl
@[simp] theorem State.setCe_blk (s : State) (ce : ChanEngine) : (s.setCe ce).blk = s.blk := rfl
@[simp] theorem State.setCe_mem (s : State) (ce : ChanEngine) : (s.setCe ce).mem = s.mem := rfl
@[simp] theorem State.setCe_ce (s : State) (ce : ChanEngine) : (s.setCe ce).ce = ce := rfl
@[simp] theorem State.setCe_host (s : State) (ce : ChanEngine) : (s.setCe ce).host = s.host := rfl

@[simp] theorem State.finish_regionPort (s : State) (c : ResultCode) : (s.finish c).regionPort = s.regionPort := rfl
@[simp] theorem State.finish_ie (s : State) (c : ResultCode) : (s.finish c).ie = s.ie := rfl
@[simp] theorem State.finish_busy (s : State) (c : ResultCode) : (s.finish c).busy = false := rfl
@[simp] theorem State.finish_done (s : State) (c : ResultCode) : (s.finish c).done = true := rfl
@[simp] theorem State.finish_errBusy (s : State) (c : ResultCode) : (s.finish c).errBusy = s.errBusy := rfl
@[simp] theorem State.finish_cmd (s : State) (c : ResultCode) : (s.finish c).cmd = s.cmd := rfl
@[simp] theorem State.finish_result (s : State) (c : ResultCode) : (s.finish c).result = c := rfl
@[simp] theorem State.finish_args (s : State) (c : ResultCode) : (s.finish c).args = s.args := rfl
@[simp] theorem State.finish_ress (s : State) (c : ResultCode) : (s.finish c).ress = s.ress := rfl
@[simp] theorem State.finish_fd (s : State) (c : ResultCode) : (s.finish c).fd = s.fd := rfl
@[simp] theorem State.finish_keys (s : State) (c : ResultCode) : (s.finish c).keys = s.keys := rfl
@[simp] theorem State.finish_blk (s : State) (c : ResultCode) : (s.finish c).blk = s.blk := rfl
@[simp] theorem State.finish_mem (s : State) (c : ResultCode) : (s.finish c).mem = s.mem := rfl
@[simp] theorem State.finish_ce (s : State) (c : ResultCode) : (s.finish c).ce = s.ce := rfl
@[simp] theorem State.finish_host (s : State) (c : ResultCode) : (s.finish c).host = s.host := rfl

@[simp] theorem State.zeroizeKeys_regionPort (s : State) : (s.zeroizeKeys).regionPort = s.regionPort := rfl
@[simp] theorem State.zeroizeKeys_ie (s : State) : (s.zeroizeKeys).ie = s.ie := rfl
@[simp] theorem State.zeroizeKeys_busy (s : State) : (s.zeroizeKeys).busy = s.busy := rfl
@[simp] theorem State.zeroizeKeys_done (s : State) : (s.zeroizeKeys).done = s.done := rfl
@[simp] theorem State.zeroizeKeys_errBusy (s : State) : (s.zeroizeKeys).errBusy = s.errBusy := rfl
@[simp] theorem State.zeroizeKeys_cmd (s : State) : (s.zeroizeKeys).cmd = s.cmd := rfl
@[simp] theorem State.zeroizeKeys_result (s : State) : (s.zeroizeKeys).result = s.result := rfl
@[simp] theorem State.zeroizeKeys_args (s : State) : (s.zeroizeKeys).args = s.args := rfl
@[simp] theorem State.zeroizeKeys_ress (s : State) : (s.zeroizeKeys).ress = s.ress := rfl
@[simp] theorem State.zeroizeKeys_fd (s : State) : (s.zeroizeKeys).fd = s.fd := rfl
@[simp] theorem State.zeroizeKeys_keys (s : State) : (s.zeroizeKeys).keys = Keys.zero := rfl
@[simp] theorem State.zeroizeKeys_blk (s : State) : (s.zeroizeKeys).blk = s.blk := rfl
@[simp] theorem State.zeroizeKeys_mem (s : State) : (s.zeroizeKeys).mem = s.mem := rfl
@[simp] theorem State.zeroizeKeys_ce (s : State) : (s.zeroizeKeys).ce = s.ce := rfl
@[simp] theorem State.zeroizeKeys_host (s : State) : (s.zeroizeKeys).host = s.host := rfl

@[simp] theorem State.issue_regionPort (s : State) (w : Word) : (s.issue w).regionPort = s.regionPort := rfl
@[simp] theorem State.issue_ie (s : State) (w : Word) : (s.issue w).ie = s.ie := rfl
@[simp] theorem State.issue_busy (s : State) (w : Word) : (s.issue w).busy = true := rfl
@[simp] theorem State.issue_done (s : State) (w : Word) : (s.issue w).done = false := rfl
@[simp] theorem State.issue_errBusy (s : State) (w : Word) : (s.issue w).errBusy = s.errBusy := rfl
@[simp] theorem State.issue_cmd (s : State) (w : Word) : (s.issue w).cmd = w := rfl
@[simp] theorem State.issue_result (s : State) (w : Word) : (s.issue w).result = s.result := rfl
@[simp] theorem State.issue_args (s : State) (w : Word) : (s.issue w).args = s.args := rfl
@[simp] theorem State.issue_ress (s : State) (w : Word) : (s.issue w).ress = s.ress := rfl
@[simp] theorem State.issue_fd (s : State) (w : Word) : (s.issue w).fd = s.fd := rfl
@[simp] theorem State.issue_keys (s : State) (w : Word) : (s.issue w).keys = s.keys := rfl
@[simp] theorem State.issue_blk (s : State) (w : Word) : (s.issue w).blk = s.blk := rfl
@[simp] theorem State.issue_mem (s : State) (w : Word) : (s.issue w).mem = s.mem := rfl
@[simp] theorem State.issue_ce (s : State) (w : Word) : (s.issue w).ce = s.ce := rfl
@[simp] theorem State.issue_host (s : State) (w : Word) : (s.issue w).host = s.host := rfl

@[simp] theorem State.nextLine_regionPort (s : State) : (s.nextLine).regionPort = s.regionPort := rfl
@[simp] theorem State.nextLine_ie (s : State) : (s.nextLine).ie = s.ie := rfl
@[simp] theorem State.nextLine_busy (s : State) : (s.nextLine).busy = s.busy := rfl
@[simp] theorem State.nextLine_done (s : State) : (s.nextLine).done = s.done := rfl
@[simp] theorem State.nextLine_errBusy (s : State) : (s.nextLine).errBusy = s.errBusy := rfl
@[simp] theorem State.nextLine_cmd (s : State) : (s.nextLine).cmd = s.cmd := rfl
@[simp] theorem State.nextLine_result (s : State) : (s.nextLine).result = s.result := rfl
@[simp] theorem State.nextLine_args (s : State) : (s.nextLine).args = s.args := rfl
@[simp] theorem State.nextLine_ress (s : State) : (s.nextLine).ress = s.ress := rfl
@[simp] theorem State.nextLine_fd (s : State) : (s.nextLine).fd = s.fd := rfl
@[simp] theorem State.nextLine_keys (s : State) : (s.nextLine).keys = s.keys := rfl
@[simp] theorem State.nextLine_blk (s : State) : (s.nextLine).blk = s.blk := rfl
@[simp] theorem State.nextLine_mem (s : State) : (s.nextLine).mem = s.mem := rfl
@[simp] theorem State.nextLine_ce (s : State) : (s.nextLine).ce = s.ce := rfl
@[simp] theorem State.nextLine_host (s : State) : (s.nextLine).host = { s.host with program := s.host.program.tail } := rfl

@[simp] theorem State.receive_regionPort (s : State) (w : Word) : (s.receive w).regionPort = s.regionPort := rfl
@[simp] theorem State.receive_ie (s : State) (w : Word) : (s.receive w).ie = s.ie := rfl
@[simp] theorem State.receive_busy (s : State) (w : Word) : (s.receive w).busy = s.busy := rfl
@[simp] theorem State.receive_done (s : State) (w : Word) : (s.receive w).done = s.done := rfl
@[simp] theorem State.receive_errBusy (s : State) (w : Word) : (s.receive w).errBusy = s.errBusy := rfl
@[simp] theorem State.receive_cmd (s : State) (w : Word) : (s.receive w).cmd = s.cmd := rfl
@[simp] theorem State.receive_result (s : State) (w : Word) : (s.receive w).result = s.result := rfl
@[simp] theorem State.receive_args (s : State) (w : Word) : (s.receive w).args = s.args := rfl
@[simp] theorem State.receive_ress (s : State) (w : Word) : (s.receive w).ress = s.ress := rfl
@[simp] theorem State.receive_fd (s : State) (w : Word) : (s.receive w).fd = s.fd := rfl
@[simp] theorem State.receive_keys (s : State) (w : Word) : (s.receive w).keys = s.keys := rfl
@[simp] theorem State.receive_blk (s : State) (w : Word) : (s.receive w).blk = s.blk := rfl
@[simp] theorem State.receive_mem (s : State) (w : Word) : (s.receive w).mem = s.mem := rfl
@[simp] theorem State.receive_ce (s : State) (w : Word) : (s.receive w).ce = s.ce := rfl
@[simp] theorem State.receive_host (s : State) (w : Word) : (s.receive w).host = { s.host with received := w :: s.host.received } := rfl

@[simp] theorem State.nextTurn_regionPort (s : State) : (s.nextTurn).regionPort = s.regionPort := rfl
@[simp] theorem State.nextTurn_ie (s : State) : (s.nextTurn).ie = s.ie := rfl
@[simp] theorem State.nextTurn_busy (s : State) : (s.nextTurn).busy = s.busy := rfl
@[simp] theorem State.nextTurn_done (s : State) : (s.nextTurn).done = s.done := rfl
@[simp] theorem State.nextTurn_errBusy (s : State) : (s.nextTurn).errBusy = s.errBusy := rfl
@[simp] theorem State.nextTurn_cmd (s : State) : (s.nextTurn).cmd = s.cmd := rfl
@[simp] theorem State.nextTurn_result (s : State) : (s.nextTurn).result = s.result := rfl
@[simp] theorem State.nextTurn_args (s : State) : (s.nextTurn).args = s.args := rfl
@[simp] theorem State.nextTurn_ress (s : State) : (s.nextTurn).ress = s.ress := rfl
@[simp] theorem State.nextTurn_fd (s : State) : (s.nextTurn).fd = s.fd := rfl
@[simp] theorem State.nextTurn_keys (s : State) : (s.nextTurn).keys = s.keys := rfl
@[simp] theorem State.nextTurn_blk (s : State) : (s.nextTurn).blk = s.blk := rfl
@[simp] theorem State.nextTurn_mem (s : State) : (s.nextTurn).mem = s.mem := rfl
@[simp] theorem State.nextTurn_ce (s : State) : (s.nextTurn).ce = s.ce := rfl
@[simp] theorem State.nextTurn_host (s : State) : (s.nextTurn).host = { s.host with turns := s.host.turns.tail } := rfl

@[simp] theorem State.softReset_regionPort (s : State) : s.softReset.regionPort = s.regionPort := rfl
@[simp] theorem State.softReset_ie (s : State) : s.softReset.ie = false := rfl
@[simp] theorem State.softReset_busy (s : State) : s.softReset.busy = false := rfl
@[simp] theorem State.softReset_done (s : State) : s.softReset.done = false := rfl
@[simp] theorem State.softReset_errBusy (s : State) : s.softReset.errBusy = false := rfl
@[simp] theorem State.softReset_cmd (s : State) : s.softReset.cmd = 0 := rfl
@[simp] theorem State.softReset_result (s : State) : s.softReset.result = .ok := rfl
@[simp] theorem State.softReset_args (s : State) : s.softReset.args = Quad.zero := rfl
@[simp] theorem State.softReset_ress (s : State) : s.softReset.ress = Quad.zero := rfl
@[simp] theorem State.softReset_fd (s : State) : s.softReset.fd = FrameDesc.zero := rfl
@[simp] theorem State.softReset_keys (s : State) : s.softReset.keys = Keys.zero := rfl
@[simp] theorem State.softReset_blk (s : State) : s.softReset.blk = Block.zero := rfl
@[simp] theorem State.softReset_mem (s : State) : s.softReset.mem = s.mem := rfl
@[simp] theorem State.softReset_ce (s : State) : s.softReset.ce = ChanEngine.empty s.ce.nch s.ce.nband := rfl
@[simp] theorem State.softReset_host (s : State) : s.softReset.host = s.host := rfl

@[simp] theorem State.hardReset_regionPort (s : State) : s.hardReset.regionPort = s.regionPort := rfl
@[simp] theorem State.hardReset_ie (s : State) : s.hardReset.ie = false := rfl
@[simp] theorem State.hardReset_busy (s : State) : s.hardReset.busy = false := rfl
@[simp] theorem State.hardReset_done (s : State) : s.hardReset.done = false := rfl
@[simp] theorem State.hardReset_errBusy (s : State) : s.hardReset.errBusy = false := rfl
@[simp] theorem State.hardReset_cmd (s : State) : s.hardReset.cmd = 0 := rfl
@[simp] theorem State.hardReset_result (s : State) : s.hardReset.result = .ok := rfl
@[simp] theorem State.hardReset_args (s : State) : s.hardReset.args = Quad.zero := rfl
@[simp] theorem State.hardReset_ress (s : State) : s.hardReset.ress = Quad.zero := rfl
@[simp] theorem State.hardReset_fd (s : State) : s.hardReset.fd = FrameDesc.zero := rfl
@[simp] theorem State.hardReset_keys (s : State) : s.hardReset.keys = Keys.zero := rfl
@[simp] theorem State.hardReset_blk (s : State) : s.hardReset.blk = Block.zero := rfl
@[simp] theorem State.hardReset_mem (s : State) : s.hardReset.mem = s.mem.powerCycle := rfl
@[simp] theorem State.hardReset_ce (s : State) : s.hardReset.ce = ChanEngine.empty s.ce.nch s.ce.nband := rfl
@[simp] theorem State.hardReset_host (s : State) : s.hardReset.host = s.host := rfl

@[simp] theorem State.writeStatus_regionPort (s : State) (v : Word) : (s.writeStatus v).regionPort = s.regionPort := rfl
@[simp] theorem State.writeStatus_ie (s : State) (v : Word) : (s.writeStatus v).ie = s.ie := rfl
@[simp] theorem State.writeStatus_busy (s : State) (v : Word) : (s.writeStatus v).busy = s.busy := rfl
@[simp] theorem State.writeStatus_done (s : State) (v : Word) : (s.writeStatus v).done = (s.done && !(v.getLsbD 1)) := rfl
@[simp] theorem State.writeStatus_errBusy (s : State) (v : Word) : (s.writeStatus v).errBusy = (s.errBusy && !(v.getLsbD 2)) := rfl
@[simp] theorem State.writeStatus_cmd (s : State) (v : Word) : (s.writeStatus v).cmd = s.cmd := rfl
@[simp] theorem State.writeStatus_result (s : State) (v : Word) : (s.writeStatus v).result = s.result := rfl
@[simp] theorem State.writeStatus_args (s : State) (v : Word) : (s.writeStatus v).args = s.args := rfl
@[simp] theorem State.writeStatus_ress (s : State) (v : Word) : (s.writeStatus v).ress = s.ress := rfl
@[simp] theorem State.writeStatus_fd (s : State) (v : Word) : (s.writeStatus v).fd = s.fd := rfl
@[simp] theorem State.writeStatus_keys (s : State) (v : Word) : (s.writeStatus v).keys = s.keys := rfl
@[simp] theorem State.writeStatus_blk (s : State) (v : Word) : (s.writeStatus v).blk = s.blk := rfl
@[simp] theorem State.writeStatus_mem (s : State) (v : Word) : (s.writeStatus v).mem = s.mem := rfl
@[simp] theorem State.writeStatus_ce (s : State) (v : Word) : (s.writeStatus v).ce = s.ce := rfl
@[simp] theorem State.writeStatus_host (s : State) (v : Word) : (s.writeStatus v).host = s.host := rfl

end Sys2Proof.Machine
end

