-- ==== Sys2Proof/Laws/Codec.lean ====
section
/-! SUPPORT. The frame codec: the lengths of the frames ENCODE builds, and the buffers after a frame or a
deciphered part of one was written. -/

namespace Sys2Proof.Machine

open Sys2Proof

@[simp] theorem ctrXor_length (key : Block) (d : Bool) (a n : Word) (p : List Byte) :
    (ctrXor key d a n p).length = p.length := by
  simp only [ctrXor, xorBytes_length, keystream_length]
  omega

@[simp] theorem State.wbufBytes_length (s : State) (o n : Nat) : (s.wbufBytes o n).length = n :=
  Memory.readBytes_length _ _ _

@[simp] theorem State.pbufBytes_length (s : State) (o n : Nat) : (s.pbufBytes o n).length = n :=
  Memory.readBytes_length _ _ _

theorem encJoinRequest_length (fd : FrameDesc) (keys : Keys) : (encJoinRequest fd keys).length = 23 := by
  simp [encJoinRequest, withJoinMic, joinRequestMsg]

theorem joinAcceptBody_length (fd : FrameDesc) : (joinAcceptBody fd).length + 5 = fd.joinAcceptLen := by
  unfold joinAcceptBody FrameDesc.joinAcceptLen
  split <;> simp

theorem encJoinAccept_length (fd : FrameDesc) (keys : Keys) :
    (encJoinAccept fd keys).length = fd.joinAcceptLen := by
  have h := joinAcceptBody_length fd
  simp only [encJoinAccept, withJoinMic, List.length_cons, List.length_append, mic32_length,
    mapBlocks_length]
  unfold FrameDesc.joinAcceptLen at h ⊢
  split at h <;> split <;> first | omega | simp_all

theorem dataHeader_length (t : BitVec 3) (fd : FrameDesc) (h : fd.len.optsLen.toNat ≤ 15) :
    (dataHeader t fd).length = 8 + fd.len.optsLen.toNat := by
  simp only [dataHeader, List.length_cons, List.length_append, le_length, List.length_take,
    Block.bytes_length, List.length_nil]
  omega

theorem dataPayload_length (t : BitVec 3) (fd : FrameDesc) (keys : Keys) (p : List Byte) :
    (dataPayload t fd keys p).length = if fd.flags.portPresent then 1 + p.length else 0 := by
  unfold dataPayload
  split <;> simp [Nat.add_comm]

/-- ENCODE of a data frame builds one exactly when the options fit and a payload has a port (R170), and the
frame has the length of its layout (R164). -/
theorem encData_some (t : BitVec 3) (fd : FrameDesc) (keys : Keys) (p : List Byte)
    (ho : fd.len.optsLen.toNat ≤ 15) (hp : fd.flags.portPresent = true ∨ fd.len.dataLen = 0) :
    encData t fd keys p = some (dataHeader t fd ++ dataPayload t fd keys p ++
      micData keys.nwkS (isDown t) fd.devAddr fd.fCnt (dataHeader t fd ++ dataPayload t fd keys p)) := by
  unfold encData
  rw [if_neg (by omega), if_neg (by rintro ⟨a, b⟩; rcases hp with hp | hp <;> simp_all)]

theorem encData_length (t : BitVec 3) (fd : FrameDesc) (keys : Keys) (p : List Byte)
    (hl : p.length = fd.len.dataLen.toNat) (ho : fd.len.optsLen.toNat ≤ 15) :
    (dataHeader t fd ++ dataPayload t fd keys p ++
      micData keys.nwkS (isDown t) fd.devAddr fd.fCnt (dataHeader t fd ++ dataPayload t fd keys p)).length =
      fd.dataFrameLen := by
  simp only [List.length_append, dataHeader_length t fd ho, dataPayload_length, micData_length, hl]
  unfold FrameDesc.dataFrameLen
  split <;> omega

/-- A byte string written into WBUF reads back. -/
theorem State.wbufBytes_setWbuf (s : State) (o : Nat) (bs : List Byte) (h : o + bs.length ≤ 256) :
    (s.setWbuf o bs).wbufBytes o bs.length = bs :=
  Memory.readBytes_writeBytes _ _ _ (Nat.le_add_right _ _) (by simp only [wbufBase, bufEnd]; omega)

/-- A part of a byte string written into WBUF reads back. -/
theorem State.wbufBytes_setWbuf_part (s : State) (o i n : Nat) (bs : List Byte) (h : o + bs.length ≤ 256)
    (hn : i + n ≤ bs.length) : (s.setWbuf o bs).wbufBytes (o + i) n = (bs.drop i).take n := by
  have := Memory.readBytes_writeBytes_part s.mem (wbufBase + o) i n bs (Nat.le_add_right _ _)
    (by simp only [wbufBase, bufEnd]; omega) hn
  rw [Nat.add_assoc] at this
  exact this

/-- WBUF outside the bytes written reads as before. -/
theorem State.wbufBytes_setWbuf_outside (s : State) (o a n : Nat) (bs : List Byte)
    (h : a + n ≤ o ∨ o + bs.length ≤ a) : (s.setWbuf o bs).wbufBytes a n = s.wbufBytes a n :=
  Memory.readBytes_writeBytes_outside _ _ _ _ _ (by omega)

theorem State.wbuf_setWbuf (s : State) (o i : Nat) (bs : List Byte) (h : o + bs.length ≤ 256)
    (hi : i < bs.length) : (s.setWbuf o bs).wbuf (o + i) = bs[i] := by
  have := Memory.read_writeBytes s.mem (wbufBase + o) (wbufBase + (o + i)) bs (Nat.le_add_right _ _)
    (by simp only [wbufBase, bufEnd]; omega)
  rw [if_pos (by omega), show wbufBase + (o + i) - (wbufBase + o) = i by omega,
    List.getElem?_eq_getElem hi] at this
  exact this

theorem State.wbuf_setWbuf_outside (s : State) (o a : Nat) (bs : List Byte)
    (h : a < o ∨ o + bs.length ≤ a) : (s.setWbuf o bs).wbuf a = s.wbuf a :=
  Memory.read_writeBytes_outside _ _ _ _ (by omega)

/-- PBUF is not touched by a write inside WBUF (10_state.md rule R53). -/
theorem State.pbuf_setWbuf (s : State) (o a : Nat) (bs : List Byte) (h : o + bs.length ≤ 256) :
    (s.setWbuf o bs).pbuf a = s.pbuf a :=
  Memory.read_writeBytes_outside _ _ _ _ (by simp only [wbufBase, pbufBase]; omega)

/-- ENCODE with a frame that fits MAXLEN: the frame in WBUF, its length in RES0, the keys cleared (R167). -/
theorem exec_encode_ok (s : State) (out : List Byte) (h : encodeFrame s = some out)
    (hl : out.length ≤ s.maxLen) :
    exec .encode s =
      .next ((((s.setWbuf 0 out).setRes0 (BitVec.ofNat 32 out.length)).zeroizeKeys).finish .ok) := by
  have e : frameToWrite s = some out := by
    rw [frameToWrite, h]
    exact Option.filter_some_pos (decide_eq_true hl)
  show Host.Outcome.next (encodeEffect s) = _
  rw [encodeEffect, e]

/-- ENCODE with no frame, or with one that does not fit: RES0 is 0 and the keys are cleared (R167). -/
theorem exec_encode_fail (s : State) (h : ∀ out, encodeFrame s = some out → s.maxLen < out.length) :
    exec .encode s = .next (((s.setRes0 0).zeroizeKeys).finish .fail) := by
  have e : frameToWrite s = none := by
    rw [frameToWrite]
    cases he : encodeFrame s with
    | none => rfl
    | some out => exact Option.filter_some_neg (by simpa using h out he)
  show Host.Outcome.next (encodeEffect s) = _
  rw [encodeEffect, e]

theorem State.frameLen_lt (s : State) : s.frameLen < 256 := BitVec.isLt _

theorem State.maxLen_lt (s : State) : s.maxLen < 256 := BitVec.isLt _

/-- A malformed frame: nothing parsed, nothing written (60_exceptions.md rule R363). -/
theorem decodeFrame_bad (s : State) (h : BadFrame s) : decodeFrame s.frameLen s = (s, .bad) := by
  unfold decodeFrame
  by_cases h0 : s.frameLen = 0
  · rw [if_pos h0]
  rw [if_neg h0]
  by_cases h1 : s.wireType.toNat > 5 ∨ (s.wbuf 0).extractLsb' 0 2 ≠ 0
  · rw [if_pos h1]
  rw [if_neg h1]
  rcases h with h | h | h | ⟨h, h'⟩ | ⟨h, h', h''⟩ | ⟨h, h'⟩
  · exact absurd h h0
  · omega
  · exact absurd (Or.inr h) h1
  · rw [h]
    simp only [decJoinRequest, if_neg h']
    rfl
  · rw [h]
    simp only [decJoinAccept, if_neg (show ¬ (s.frameLen = 17 ∨ s.frameLen = 33) by omega)]
    rfl
  · have hd : decData s.wireType s.frameLen s = (s, .bad) := by
      unfold decData
      by_cases h2 : s.frameLen < 12
      · rw [if_pos h2]
      · rw [if_neg h2, if_pos (by omega)]
    have : s.wireType.toNat = 2 ∨ s.wireType.toNat = 3 ∨ s.wireType.toNat = 4 ∨ s.wireType.toNat = 5 := by
      omega
    rcases this with e | e | e | e <;> rw [e] <;> exact hd

theorem BadFrame.header {s : State} (h : ¬ BadFrame s) :
    s.frameLen ≠ 0 ∧ ¬ (s.wireType.toNat > 5 ∨ (s.wbuf 0).extractLsb' 0 2 ≠ 0) := by
  unfold BadFrame at h
  refine ⟨fun e => h (Or.inl e), fun e => ?_⟩
  rcases e with e | e
  · exact h (Or.inr (Or.inl e))
  · exact h (Or.inr (Or.inr (Or.inl e)))

/-- A well-formed JoinRequest is parsed as one. -/
theorem decodeFrame_joinRequest (s : State) (h : ¬ BadFrame s) (ht : s.wireType = 0) :
    s.frameLen = 23 ∧ decodeFrame s.frameLen s = decJoinRequest s.frameLen s := by
  obtain ⟨h1, h2⟩ := BadFrame.header h
  refine ⟨by unfold BadFrame at h; tauto, ?_⟩
  unfold decodeFrame
  rw [if_neg h1, if_neg h2, ht]
  rfl

/-- A well-formed JoinAccept is parsed as one. -/
theorem decodeFrame_joinAccept (s : State) (h : ¬ BadFrame s) (ht : s.wireType = 1) :
    (s.frameLen = 17 ∨ s.frameLen = 33) ∧ decodeFrame s.frameLen s = decJoinAccept s.frameLen s := by
  obtain ⟨h1, h2⟩ := BadFrame.header h
  refine ⟨by unfold BadFrame at h; tauto, ?_⟩
  unfold decodeFrame
  rw [if_neg h1, if_neg h2, ht]
  rfl

/-- A well-formed data frame is parsed as one. -/
theorem decodeFrame_data (s : State) (h : ¬ BadFrame s) (ht : 2 ≤ s.wireType.toNat) :
    12 + s.wireOptsLen ≤ s.frameLen ∧ decodeFrame s.frameLen s = decData s.wireType s.frameLen s := by
  obtain ⟨h1, h2⟩ := BadFrame.header h
  have : s.wireType.toNat = 2 ∨ s.wireType.toNat = 3 ∨ s.wireType.toNat = 4 ∨ s.wireType.toNat = 5 := by
    omega
  refine ⟨?_, ?_⟩
  · by_contra hc
    exact h (Or.inr (Or.inr (Or.inr (Or.inr (Or.inr ⟨ht, by omega⟩)))))
  · unfold decodeFrame
    rw [if_neg h1, if_neg h2]
    rcases this with e | e | e | e <;> rw [e] <;> rfl

/-- What DECODE does with the answer of the parse: the keys are cleared and the command ends (R171). -/
theorem exec_decode (s s' : State) (c : ResultCode) (h : decodeFrame s.frameLen s = (s', c)) :
    exec .decode s = .next (s'.zeroizeKeys.finish c) := by
  show Host.Outcome.next (decodeEffect s) = _
  rw [decodeEffect, h]

end Sys2Proof.Machine
end

