-- ==== Sys2Proof/Laws/PerInstr.lean ====
section
/-! SUPPORT. The fields of a command word (30_encoding.md rule R130), and the per-instruction family
`OpcodeTable`: the opcode map gives each command back from its own opcode and operand fields (rule R135). -/

namespace Sys2Proof

/-- The four fields of a word put together from four fields (rule R130). -/
theorem fields_append (r : BitVec 12) (k : BitVec 4) (i o : BitVec 8) :
    opField (r ++ k ++ i ++ o) = o ∧ idxField (r ++ k ++ i ++ o) = i ∧
    kselField (r ++ k ++ i ++ o) = k ∧ rsvField (r ++ k ++ i ++ o) = r := by
  have ho := o.isLt
  have hi := i.isLt
  have hk := k.isLt
  have hr := r.isLt
  simp only [opField, idxField, kselField, rsvField]
  refine ⟨?_, ?_, ?_, ?_⟩ <;> apply BitVec.eq_of_toNat_eq <;>
    simp only [toNat_field, toNat_append_add] <;> omega

@[simp] theorem opField_encode (i : Instr) : opField (encode i) = i.opcode := (fields_append _ _ _ _).1

@[simp] theorem idxField_encode (i : Instr) : idxField (encode i) = i.idx := (fields_append _ _ _ _).2.1

@[simp] theorem kselField_encode (i : Instr) : kselField (encode i) = i.ksel := (fields_append _ _ _ _).2.2.1

@[simp] theorem rsvField_encode (i : Instr) : rsvField (encode i) = 0 := (fields_append _ _ _ _).2.2.2

end Sys2Proof

namespace Sys2Proof.Laws.OpcodeTable

open Sys2Proof

/-- The opcode map reads a command back from its opcode, its index and its key select. -/
def Statement (i : Instr) : Prop := decodeOp i.opcode i.idx i.ksel = some i

theorem nop : Statement .nop := rfl

theorem encode : Statement .encode := rfl

theorem decode : Statement .decode := rfl

theorem phySize : Statement .phySize := rfl

theorem isUpstream : Statement .isUpstream := rfl

theorem aesEnc (ksel : BitVec 4) : Statement (.aesEnc ksel) := rfl

theorem aesDec (ksel : BitVec 4) : Statement (.aesDec ksel) := rfl

theorem ctrXor (ksel : BitVec 4) : Statement (.ctrXor ksel) := rfl

theorem cmac (ksel : BitVec 4) : Statement (.cmac ksel) := rfl

theorem micData (ksel : BitVec 4) : Statement (.micData ksel) := rfl

theorem ceInit : Statement .ceInit := rfl

theorem ceAdd (idx : BitVec 8) : Statement (.ceAdd idx) := rfl

theorem ceRemove (idx : BitVec 8) : Statement (.ceRemove idx) := rfl

theorem ceMask (idx : BitVec 8) : Statement (.ceMask idx) := rfl

theorem ceUnmask (idx : BitVec 8) : Statement (.ceUnmask idx) := rfl

theorem ceSetRatePower : Statement .ceSetRatePower := rfl

theorem ceWaitTime : Statement .ceWaitTime := rfl

theorem ceTxSetting : Statement .ceTxSetting := rfl

theorem ceRx1Setting : Statement .ceRx1Setting := rfl

theorem ceRx2Setting : Statement .ceRx2Setting := rfl

theorem ceRegisterTx : Statement .ceRegisterTx := rfl

theorem ceCapacity : Statement .ceCapacity := rfl

theorem timeOnAir : Statement .timeOnAir := rfl

end Sys2Proof.Laws.OpcodeTable
end

