-- ==== Sys2Proof/Laws/Step.lean ====
section
/-! SUPPORT. What the shared operations of the commands and of the step can do, said once: the key select, the
WBUF range, a host write, a host line, and the step of the machine. -/

namespace Sys2Proof.Machine

open Sys2Proof

/-- A key select of 3 or more never forms a key. -/
theorem withKey_illegal (ksel : BitVec 4) (s : State) (e : Block → State × ResultCode)
    (h : 3 ≤ ksel.toNat) : withKey ksel s e = s.finish .illegal := by
  have hs : s.keys.select ksel = none := by
    unfold Keys.select
    split <;> first | rfl | omega
  simp only [withKey, hs]

/-- A key select below 3 has the effect under that key, clears the keys and ends. -/
theorem withKey_key (ksel : BitVec 4) (k : Block) (s : State) (e : Block → State × ResultCode)
    (h : (ksel = 0 ∧ k = s.keys.app) ∨ (ksel = 1 ∧ k = s.keys.nwkS) ∨ (ksel = 2 ∧ k = s.keys.appS)) :
    withKey ksel s e = ((e k).1.zeroizeKeys).finish (e k).2 := by
  rcases h with ⟨rfl, rfl⟩ | ⟨rfl, rfl⟩ | ⟨rfl, rfl⟩ <;> rfl

theorem onRange_in (s t : State) (h : s.rangeOff + s.rangeLen ≤ 256) : onRange s t = (t, .ok) :=
  if_neg (by omega)

theorem onRange_out (s t : State) (h : 256 < s.rangeOff + s.rangeLen) : onRange s t = (s, .fail) :=
  if_pos h

/-- What a host write of a location does: one of the five cases of 43_system.md rule R341. -/
theorem hostStore_cases (s : State) (r : Reg) (v : Word) :
    (r = .ctrl ∧ s.hostStore r v = s.writeCtrl v) ∨
    (r = .status ∧ s.hostStore r v = s.writeStatus v) ∨
    (r.writable = true ∧ s.busy = true ∧ s.hostStore r v = { s with errBusy := true }) ∨
    (r.writable = true ∧ s.busy = false ∧ s.hostStore r v = s.writeReg r v) ∨
    (r.writable = false ∧ s.hostStore r v = s) := by
  cases r <;> simp [State.hostStore, Reg.writable] <;> cases s.busy <;> simp

/-- What a host write of an offset does: the write of the register there, or nothing. -/
theorem writeAt_cases (s : State) (o : Nat) (v : Word) :
    (∃ r, regAt s.ce.nch s.ce.nband o = some r ∧ s.writeAt o v = s.hostStore r v) ∨
    (regAt s.ce.nch s.ce.nband o = none ∧ s.writeAt o v = s) := by
  unfold State.writeAt
  split
  · rename_i r h; exact .inl ⟨r, h, rfl⟩
  · rename_i h; exact .inr ⟨h, rfl⟩

/-- An access answers a next state exactly when the bus carries it. -/
theorem onBus_next (o : BitVec 12) (n : Nat) (s t : State) :
    onBus o n s = .next t ↔ accessOk o n = true ∧ s = t := by
  unfold onBus
  split <;> simp_all

/-- The next states of a host line. -/
theorem hostLine_cases (line : HostLine) (s t : State) (h : hostLine line s = .next t) :
    (∃ o n v, line = .write o n v ∧ accessOk o n = true ∧ t = s.nextLine.writeAt o.toNat v) ∨
    (∃ o n, line = .read o n ∧ accessOk o n = true ∧ t = s.nextLine.receive (s.readAt o.toNat)) ∨
    (∃ o m v, line = .poll o m v ∧ accessOk o 4 = true ∧
      t = (if s.readAt o.toNat &&& m = v then s.nextLine else s)) ∨
    (line = .elsewhere ∧ t = s.nextLine) ∨
    (line = .hardReset ∧ t = s.nextLine.hardReset) := by
  cases line with
  | write o n v =>
    obtain ⟨h1, h2⟩ := (onBus_next _ _ _ _).1 h
    exact .inl ⟨o, n, v, rfl, h1, h2.symm⟩
  | read o n =>
    obtain ⟨h1, h2⟩ := (onBus_next _ _ _ _).1 h
    exact .inr (.inl ⟨o, n, rfl, h1, h2.symm⟩)
  | poll o m v =>
    obtain ⟨h1, h2⟩ := (onBus_next _ _ _ _).1 h
    exact .inr (.inr (.inl ⟨o, m, v, rfl, h1, h2.symm⟩))
  | elsewhere => cases h; exact .inr (.inr (.inr (.inl ⟨rfl, rfl⟩)))
  | hardReset => cases h; exact .inr (.inr (.inr (.inr ⟨rfl, rfl⟩)))

/-- The next states of the engine step. -/
theorem engineStep_cases (s t : State) (h : engineStep s = .next t) :
    (∃ i, decode s.cmd = .command i ∧ exec i s = .next t) ∨
    (∃ r, decode s.cmd = .illegal r ∧ t = s.finish .illegal) := by
  unfold engineStep at h
  split at h
  · rename_i i hi; exact .inl ⟨i, hi, h⟩
  · rename_i r hr; cases h; exact .inr ⟨r, hr, rfl⟩

/-- The next states of the machine: the engine step, a host line, or a host with nothing to do. -/
theorem step_cases (s t : State) (h : step s = .next t) :
    (s.busy = true ∧ s.pendingTurn = .engine ∧ engineStep s.nextTurn = .next t) ∨
    (∃ line u, (u = s ∨ u = s.nextTurn) ∧ s.line? = some line ∧ hostLine line u = .next t) ∨
    ((t = s ∨ t = s.nextTurn) ∧ s.line? = none) := by
  have host : ∀ u, (u = s ∨ u = s.nextTurn) → hostStep u = .next t →
      (∃ line u, (u = s ∨ u = s.nextTurn) ∧ s.line? = some line ∧ hostLine line u = .next t) ∨
      ((t = s ∨ t = s.nextTurn) ∧ s.line? = none) := by
    intro u hu hs
    have hl : u.line? = s.line? := by rcases hu with rfl | rfl <;> rfl
    unfold hostStep at hs
    rw [hl] at hs
    split at hs
    · rename_i line hline; exact .inl ⟨line, u, hu, hline, hs⟩
    · rename_i hline; cases hs; exact .inr ⟨hu, hline⟩
  unfold step nextStep at h
  split at h
  · rename_i hb
    split at h
    · rename_i hp; exact .inl ⟨hb, hp, h⟩
    · exact .inr (host _ (.inr rfl) h)
  · exact .inr (host _ (.inl rfl) h)

end Sys2Proof.Machine
end

