-- ==== Sys2Proof/Tests/Slice0.lean ====
section
/-! SUPPORT. Tests: ill-formed terms refused, command words written out from the encoding (30_encoding.md
rule R135), one-step runs with the derived vectors of 95_test_vectors.md part 4 under its test region TR0, and
for every obligation with hypotheses a state and operands that meet them. -/

namespace Sys2Proof.Tests

open Sys2Proof Sys2Proof.Machine

set_option Elab.async false

/-! ## Helpers -/

/-- Every region identifier. -/
def anyRegion : Span := ⟨0, 2 ^ 32 - 1⟩

/-- One value. -/
def only (n : Nat) : Span := ⟨n, n⟩

/-- The test region of 95_test_vectors.md part 1.1. -/
def tr0 : RegionPort where
  defaultChannels := ⟨[], [(0, 868100000), (1, 868300000), (2, 868500000)]⟩
  defaultSettings := ⟨[], ⟨869525000, 0, 0, 5⟩⟩
  validate :=
    ⟨[⟨[anyRegion, ⟨868000000, 868600000⟩], ⟨true, 0⟩⟩,
      ⟨[anyRegion, ⟨868700000, 869200000⟩], ⟨true, 1⟩⟩,
      ⟨[anyRegion, ⟨869400000, 869650000⟩], ⟨true, 2⟩⟩,
      ⟨[anyRegion, ⟨863000000, 867999999⟩], ⟨true, 3⟩⟩,
      ⟨[anyRegion, ⟨869700000, 870000000⟩], ⟨true, 3⟩⟩], ⟨false, 0⟩⟩
  rateParams :=
    ⟨[⟨[anyRegion, only 0], some ⟨12, 0⟩⟩, ⟨[anyRegion, only 1], some ⟨11, 0⟩⟩,
      ⟨[anyRegion, only 2], some ⟨10, 0⟩⟩, ⟨[anyRegion, only 3], some ⟨9, 0⟩⟩,
      ⟨[anyRegion, only 4], some ⟨8, 0⟩⟩, ⟨[anyRegion, only 5], some ⟨7, 0⟩⟩,
      ⟨[anyRegion, only 6], some ⟨7, 1⟩⟩, ⟨[anyRegion, only 7], some ⟨0, 3⟩⟩], none⟩
  offTime :=
    ⟨[⟨[anyRegion, only 0], 100⟩, ⟨[anyRegion, only 1], 1000⟩, ⟨[anyRegion, only 2], 10⟩,
      ⟨[anyRegion, only 3], 100⟩], 1⟩
  rx1Rate :=
    ⟨(List.range 8).flatMap (fun t => (List.range 8).map (fun o =>
      ⟨[anyRegion, only t, only o], BitVec.ofNat 8 (t - o)⟩)), 0⟩

/-- The state after an outcome, if there is one. -/
def next? : Host.Outcome State Fault Refusal → Option State
  | .next t => some t
  | .fault _ => none
  | .refused _ => none

/-- The fault of an outcome, if it is one. -/
def fault? : Host.Outcome State Fault Refusal → Option Fault
  | .next _ => none
  | .fault f => some f
  | .refused _ => none

/-- What a view shows after a command. -/
def after {α : Type} (i : Instr) (s : State) (view : State → α) : Option α := (next? (exec i s)).map view

/-- A byte string written as one hexadecimal number, first byte highest. -/
def hexBytes (n len : Nat) : List Byte :=
  (List.range len).map (fun i => BitVec.ofNat 8 (n / 256 ^ (len - 1 - i)))

/-- A 16-byte string written so. -/
def hexBlock (n : Nat) : Block := Block.ofBytes (hexBytes n 16)

/-- The instance of the vectors after a hardware reset: P_NCH = 16, P_NBAND = 6, REGION = TR0. -/
def blank : State := State.init tr0 16 6 Memory.powerOn HostAgent.idle

/-- The keys K_A, K_N and K_S of 95_test_vectors.md part 1. -/
def testKeys : Keys :=
  ⟨hexBlock 0x2b7e151628aed2a6abf7158809cf4f3c, hexBlock 0x000102030405060708090a0b0c0d0e0f,
    hexBlock 0x101112131415161718191a1b1c1d1e1f⟩

/-- The reset state with the keys loaded and ARG0 to ARG2 written. -/
def armed (a0 : Word) (a1 a2 : Word := 0) : State := { blank with keys := testKeys, args := ⟨a0, a1, a2, 0⟩ }

/-- With bytes loaded into WBUF from an offset on. -/
def withWbuf (o : Nat) (bs : List Byte) (s : State) : State := s.setWbuf o bs

/-- With bytes loaded into PBUF from offset 0 on. -/
def withPbuf (bs : List Byte) (s : State) : State := { s with mem := s.mem.writeBytes pbufBase bs }

/-- The state S0 of 95_test_vectors.md part 4.6. -/
def inited : State := { blank with ce := ChanEngine.initFor tr0 blank.ce 0 }

/-- With ARG0 to ARG2 written. -/
def withArgs (a0 a1 a2 : Word) (s : State) : State := { s with args := ⟨a0, a1, a2, 0⟩ }

/-- A command word pending with the engine's turn next. -/
def pending (w : Word) (s : State) : State := s.withPending w

/-- With a program for the host. -/
def withProgram (ls : List HostLine) (s : State) : State := { s with host := { s.host with program := ls } }

/-- A JoinRequest descriptor (EN-1). -/
def joinRequest : FrameDesc :=
  { FrameDesc.zero with
    appEuiLo := 0x05060708, appEuiHi := 0x01020304, devEuiLo := 0x15161718, devEuiHi := 0x11121314,
    devNonce := 0xABCD }

/-- A JoinAccept descriptor, without (EN-3) or with (EN-4) a CFList. -/
def joinAccept (cf : Bool) : FrameDesc :=
  { FrameDesc.zero with
    type := 1, appNonce := 0x123456, netId := 0x13, devAddr := 0x26011BDA, ja := ⟨1, 3, 1, cf⟩,
    cfList := if cf then hexBlock 0x184f84e85684b85e84886684586e8400 else Block.zero }

/-- A data-frame descriptor with FD_DEVADDR = 0x26011BDA. -/
def dataFrame (t : BitVec 3) (flags len fCnt : Word) (port : Byte) (opts0 : Word := 0) : FrameDesc :=
  { FrameDesc.zero with
    type := t, flags := FrameFlags.ofWord flags, len := FrameLen.ofWord len, devAddr := 0x26011BDA,
    fCnt := fCnt, port := port, opts := Block.zero.setWord 0 opts0 }

/-- The reset state with the keys, a descriptor and MAXLEN. -/
def toEncode (fd : FrameDesc) (m : Word) : State := { armed m with fd := fd }

/-- The reset state with the keys, a frame in WBUF and LEN. -/
def toDecode (frame : List Byte) (n : Word) : State := withWbuf 0 frame (armed n)

/-- The 18-byte frame U of EN-5. -/
def frameU : List Byte := hexBytes 0x40da1b012680010001b660cc5290fe29657b 18

/-! ## Ill-formed terms are refused -/

theorem test_wf_aesEnc_ksel3 : (Instr.aesEnc 3).wf = false := by decide
theorem test_wf_aesDec_ksel3 : (Instr.aesDec 3).wf = false := by decide
theorem test_wf_ctrXor_ksel4 : (Instr.ctrXor 4).wf = false := by decide
theorem test_wf_cmac_ksel8 : (Instr.cmac 8).wf = false := by decide
theorem test_wf_micData_ksel15 : (Instr.micData 15).wf = false := by decide
theorem test_wf_write_misaligned : (HostLine.write 0x012 4 0).wf = false := by decide
theorem test_wf_write_narrow : (HostLine.write 0x010 2 0).wf = false := by decide
theorem test_wf_read_wide : (HostLine.read 0x010 8).wf = false := by decide
theorem test_wf_poll_misaligned : (HostLine.poll 0x00D 1 0).wf = false := by decide
theorem test_wf_bufw_offset : (Pseudo.bufwWbuf 2 [0]).wf = false := by decide
theorem test_wf_bufw_length : (Pseudo.bufwPbuf 252 [0, 1, 2, 3, 4]).wf = false := by decide

/-! ## Words written out from the opcode table (OP, IDX in bits 15:8, KSEL in bits 19:16) -/

theorem test_decode_nop : decode 0x00000000 = .command .nop := by decide
theorem test_decode_encode : decode 0x00000010 = .command .encode := by decide
theorem test_decode_decode : decode 0x00000011 = .command .decode := by decide
theorem test_decode_phySize : decode 0x00000012 = .command .phySize := by decide
theorem test_decode_isUpstream : decode 0x00000013 = .command .isUpstream := by decide
theorem test_decode_aesEnc : decode 0x00020020 = .command (.aesEnc 2) := by decide
theorem test_decode_aesDec : decode 0x00010021 = .command (.aesDec 1) := by decide
theorem test_decode_ctrXor : decode 0x00020022 = .command (.ctrXor 2) := by decide
theorem test_decode_cmac : decode 0x00010023 = .command (.cmac 1) := by decide
theorem test_decode_micData : decode 0x00010024 = .command (.micData 1) := by decide
theorem test_decode_ceInit : decode 0x00000030 = .command .ceInit := by decide
theorem test_decode_ceAdd : decode 0x00001031 = .command (.ceAdd 0x10) := by decide
theorem test_decode_ceRemove : decode 0x0000FF32 = .command (.ceRemove 0xFF) := by decide
theorem test_decode_ceMask : decode 0x00008033 = .command (.ceMask 0x80) := by decide
theorem test_decode_ceUnmask : decode 0x00000134 = .command (.ceUnmask 0x01) := by decide
theorem test_decode_ceSetRatePower : decode 0x00000035 = .command .ceSetRatePower := by decide
theorem test_decode_ceWaitTime : decode 0x00000036 = .command .ceWaitTime := by decide
theorem test_decode_ceTxSetting : decode 0x00000037 = .command .ceTxSetting := by decide
theorem test_decode_ceRx1Setting : decode 0x00000038 = .command .ceRx1Setting := by decide
theorem test_decode_ceRx2Setting : decode 0x00000039 = .command .ceRx2Setting := by decide
theorem test_decode_ceRegisterTx : decode 0x0000003A = .command .ceRegisterTx := by decide
theorem test_decode_ceCapacity : decode 0x0000003B = .command .ceCapacity := by decide
theorem test_decode_timeOnAir : decode 0x0000003C = .command .timeOnAir := by decide

/-- A table word is the command word itself. -/
theorem test_decodeTableWord : decodeTableWord 32 0x00020023 = some (.cmac 2) := by decide

/-- The very next step runs the word placed in CMD. -/
theorem test_withFetchWord :
    (next? (step (State.reset.withFetchWord 32 0x0000003B))).map (fun t => (t.result, t.ress.r0)) =
      some (.ok, 16) := by decide +kernel

/-! ## One command at a time (95_test_vectors.md parts 4.1 to 4.7) -/

theorem test_nop : after .nop blank (fun t => (t.result, t.readReg .status)) = some (.ok, 2) := by
  decide +kernel

/-- EN-1. -/
theorem test_encode_joinRequest :
    after .encode (toEncode joinRequest 23) (fun t => (t.result, t.ress.r0, t.wbufBytes 0 23)) =
      some (.ok, 23, hexBytes 0x0008070605040302011817161514131211cdab758c4d8c 23) := by decide +kernel

/-- EN-7: port 0 selects NwkSKey, the options stay in the clear. -/
theorem test_encode_confirmedDown :
    after .encode (withPbuf [0x02, 0x30, 0x01] (toEncode (dataFrame 5 0x19 0x302 0x1234 0 0x5103) 255))
        (fun t => (t.result, t.ress.r0, t.wbufBytes 0 18)) =
      some (.ok, 18, hexBytes 0xa0da1b0126323412035100a227eb08e72413 18) := by decide +kernel

/-- EN-4, decoded back. -/
theorem test_decode_joinAccept :
    after .decode
        (toDecode (hexBytes 0x2001abe6f51cbc034cbb6a9f25161e0fcfa3fe58a57d3714a5b82108cf9b633e28 33) 33)
        (fun t => (t.result, t.fd, t.wbufBytes 0 33)) =
      some (.ok, joinAccept true,
        hexBytes 0x20563412130000da1b01261301184f84e85684b85e84886684586e8400673004c7 33) := by
  decide +kernel

/-- DE-8: one payload bit flipped. -/
theorem test_decode_mic :
    after .decode (toDecode (hexBytes 0x40da1b012680010001b760cc5290fe29657b 18) 18)
        (fun t => (t.result, t.readReg .fdLen, t.keys, t.wbufBytes 0 18)) =
      some (.mic, 0x08090500, Keys.zero, hexBytes 0x40da1b01268001000169656c6c6ffe29657b 18) := by
  decide +kernel

theorem test_phySize : after .phySize (withArgs 255 255 0 blank) (fun t => t.ress.r0) = some 523 := by
  decide +kernel

/-- 30_encoding.md rule R133: only ARG0[2:0] is read. -/
theorem test_isUpstream : after .isUpstream (withArgs 0xA 0 0 blank) (fun t => t.ress.r0) = some 1 := by
  decide +kernel

/-- CR-1, from FIPS-197. -/
theorem test_aesEnc :
    after (.aesEnc 1) { armed 0 with blk := hexBlock 0x00112233445566778899aabbccddeeff }
        (fun t => (t.result, t.readReg (.blk 0), t.blk, t.keys)) =
      some (.ok, 0xD8E0C469, hexBlock 0x69c4e0d86a7b0430d8cdb78070b4c55a, Keys.zero) := by decide +kernel

/-- CR-5: the keys are kept. -/
theorem test_aesEnc_illegal :
    after (.aesEnc 3) (armed 0) (fun t => (t.result, t.keys)) = some (.illegal, testKeys) := by
  decide +kernel

/-- CR-3. -/
theorem test_aesDec :
    after (.aesDec 1) { armed 0 with blk := hexBlock 0x69c4e0d86a7b0430d8cdb78070b4c55a }
        (fun t => t.blk) = some (hexBlock 0x00112233445566778899aabbccddeeff) := by decide +kernel

/-- CR-13: a range that ends exactly at 256. -/
theorem test_ctrXor :
    after (.ctrXor 2) (withWbuf 252 [0xaa, 0xbb, 0xcc, 0xdd] (armed 0x04FC 0x26011BDA 1))
        (fun t => (t.result, t.wbufBytes 252 4)) = some (.ok, [0x74, 0xbe, 0x6c, 0xe3]) := by decide +kernel

/-- CR-11: downlink. -/
theorem test_ctrXor_down :
    after (.ctrXor 2) (withWbuf 0 [0x68, 0x65, 0x6c, 0x6c, 0x6f] (armed 0x10500 0x26011BDA 1))
        (fun t => t.wbufBytes 0 5) = some [0x09, 0xbb, 0xbb, 0xd1, 0x8a] := by decide +kernel

/-- CMAC of 40 bytes under K_A, from RFC 4493. -/
theorem test_cmac :
    after (.cmac 0)
        (withWbuf 0 (hexBytes 0x6bc1bee22e409f96e93d7e117393172aae2d8a571e03ac9c9eb76fac45af8e5130c81c46a35ce411 40)
          (armed 0x2800))
        (fun t => (t.result, t.blk)) = some (.ok, hexBlock 0xdfa66747de9ae63030ca32611497c827) := by
  decide +kernel

/-- CR-9: FAIL leaves BLK and clears the keys. -/
theorem test_cmac_fail :
    after (.cmac 0) { armed 0x07FA with blk := hexBlock 0x11111111111111111111111111111111 }
        (fun t => (t.result, t.blk, t.keys)) =
      some (.fail, hexBlock 0x11111111111111111111111111111111, Keys.zero) := by decide +kernel

/-- CR-15. -/
theorem test_micData :
    after (.micData 1) (withWbuf 0 (frameU.take 14) (armed 0x0E00 0x26011BDA 1))
        (fun t => (t.result, t.ress.r0)) = some (.ok, 0x7B6529FE) := by decide +kernel

/-- CE-1: the tables. -/
theorem test_ceInit_tables :
    after .ceInit blank (fun t => (t.result, t.readReg .ceSel, t.readReg .ceCount, t.readReg (.bandLast 1),
        t.readReg (.chFreq 0))) = some (.ok, 0x00010000, 3, 0xFF, 0x33BE27A0) := by decide +kernel

/-- CE-1: the settings. -/
theorem test_ceInit_settings :
    after .ceInit blank (fun t => (t.readReg .ceRatePwr, t.readReg .ceRx2Freq, t.readReg .ceRx1Off)) =
      some (5, 0x33D3E608, 0) := by decide +kernel

/-- CE-16: the selected slot added again in another band. -/
theorem test_ceAdd :
    after (.ceAdd 0) (withArgs 868900000 0 0 inited) (fun t => (t.result, t.readReg .ceSel,
        t.readReg (.bandNum 0), t.readReg (.bandNum 1), t.readReg .ceCount)) =
      some (.ok, 0x00010001, 2, 1, 3) := by decide +kernel

/-- CE-17: an index past the table. -/
theorem test_ceAdd_fail :
    after (.ceAdd 16) (withArgs 868100000 0 0 inited) (fun t => (t.result, t.ce)) =
      some (.fail, inited.ce) := by decide +kernel

/-- CE-15. -/
theorem test_ceRemove :
    after (.ceRemove 0) inited (fun t => (t.readReg (.chFreq 0), t.readReg .ceCount, t.readReg .ceSel,
        t.readReg (.bandLast 0))) = some (0, 2, 0x00010001, 1) := by decide +kernel

/-- CE-19: masking an empty slot only sets its flag. -/
theorem test_ceMask :
    after (.ceMask 5) inited (fun t => (t.result, t.readReg (.chStat 5), t.readReg .ceCount)) =
      some (.ok, 0x100, 3) := by decide +kernel

/-- S0 with the channel that is not wanted masked: CE-13's end state. -/
def allMasked : State := { inited with ce := (((inited.ce.mask 0).1.mask 1).1.mask 2).1 }

/-- CE-14: unmasking one of three masked channels restores a selection. -/
theorem test_ceUnmask :
    after (.ceUnmask 1) allMasked (fun t => (t.result, t.readReg .ceSel, t.readReg .ceCount)) =
      some (.ok, 0x00010001, 1) := by decide +kernel

/-- CE-25. -/
theorem test_ceSetRatePower :
    after .ceSetRatePower (withArgs 0x1F7 0x2AB 0 inited) (fun t => t.readReg .ceRatePwr) =
      some 0x0000ABF7 := by decide +kernel

/-- CE-6: S0 after a transmission of 20 bytes at 1000. -/
def sent : State := { inited with ce := ChanEngine.registerTx tr0 inited.ce 1000 20 }

/-- CE-7. -/
theorem test_ceWaitTime :
    after .ceWaitTime (withArgs 1000 0 0 sent) (fun t => (t.ress.r0, t.ress.r1)) =
      some (0x004E8400, 0) := by decide +kernel

/-- CE-2. -/
theorem test_ceTxSetting :
    after .ceTxSetting inited (fun t => (t.result, t.ress.r0, t.ress.r1)) =
      some (.ok, 0x33BE27A0, 0x00010007) := by decide +kernel

/-- CE-13: nothing selected. -/
theorem test_ceTxSetting_fail : after .ceTxSetting allMasked (fun t => t.result) = some .fail := by
  decide +kernel

/-- CE-23. -/
theorem test_ceRx1Setting :
    after .ceRx1Setting { inited with ce := { inited.ce with rate := 3 } } (fun t => t.ress.r1) =
      some 0x00010009 := by decide +kernel

/-- CE-4. -/
theorem test_ceRx2Setting :
    after .ceRx2Setting inited (fun t => (t.ress.r0, t.ress.r1)) = some (0x33D3E608, 0x0001000C) := by
  decide +kernel

/-- CE-9: the ready-time wraps modulo 2^64. -/
theorem test_ceRegisterTx :
    after .ceRegisterTx (withArgs 0xFFFFFF9C 0xFFFFFFFF 20 inited) (fun t =>
        (t.readReg (.bandReadyLo 0), t.readReg (.bandReadyHi 0), t.readReg .ceSel)) =
      some (5145500, 0, 0x00010001) := by decide +kernel

/-- CE-28. -/
theorem test_ceCapacity : after .ceCapacity blank (fun t => t.ress.r0) = some 16 := by decide +kernel

/-- Part 4.7: SF12 at 250 kHz has no low-data-rate optimisation. -/
theorem test_timeOnAir :
    after .timeOnAir (withArgs 0x10C 20 0 blank) (fun t => (t.result, t.ress.r0)) =
      some (.ok, 577536) := by decide +kernel

theorem test_timeOnAir_fail : after .timeOnAir (withArgs 0x407 20 0 blank) (fun t => t.result) =
    some .fail := by decide +kernel

/-! ## Host accesses (95_test_vectors.md part 4.8) -/

/-- The state after one step with the host's next line given. -/
def lineStep (l : HostLine) (s : State) : Option State := next? (step (withProgram [l] s))

/-- SY-1: RD 0x608, BAND_LAST[0]. -/
theorem test_read_bandLast : (lineStep (.read 0x608 4) blank).map (fun t => t.host.received) =
    some [0x000000FF] := by decide +kernel

/-- SY-2: a reserved offset. -/
theorem test_read_reserved : (lineStep (.read 0x03C 4) blank).map (fun t => t.host.received) =
    some [0] := by decide +kernel

/-- SY-3. -/
theorem test_busError : fault? (step (withProgram [.write 0x010 2 0x10] blank)) =
    some (.busError 0x010 2) := by decide +kernel

/-- SY-4: a write while a command is pending, on the host's turn. -/
theorem test_write_while_pending :
    (next? (step { blank with busy := true, host := ⟨[.write 0x018 4 0x12345678], [], [.host]⟩ })).map
        (fun t => (t.readReg .status, t.args)) = some (5, Quad.zero) := by decide +kernel

/-- SY-10. -/
theorem test_softReset_ignores_ie :
    (lineStep (.write 0x008 4 3) inited).map (fun t => (t.readReg .ctrl, t.readReg .ceSel)) =
      some (0, 0x0000FFFF) := by decide +kernel

/-- 20_memory.md rule R105: byte 0 is the lowest byte of the host word. -/
theorem test_wbuf_bytes :
    (lineStep (.write 0x100 4 0x011BDA40) blank).map (fun t => t.wbufBytes 0 4) =
      some [0x40, 0xDA, 0x1B, 0x01] := by decide +kernel

/-! ## Witnesses: states and operands that meet the hypotheses of each obligation -/

theorem blank_inv : blank.Inv :=
  ⟨ChanEngine.Inv.empty 16 6 (by decide) (by decide) (by decide) (by decide), by decide⟩

theorem inited_inv : inited.Inv := ⟨(blank_inv.channels.initFor tr0 0).1, by decide⟩

theorem allMasked_inv : allMasked.Inv :=
  ⟨(((inited_inv.channels.mask 0).1.mask 1).1.mask 2).1, by decide⟩

theorem sent_inv : sent.Inv := ⟨(inited_inv.channels.registerTx tr0 1000 20).1, by decide⟩

/-- S0 with channel 0 masked. -/
def oneMasked : State := { inited with ce := (inited.ce.mask 0).1 }

theorem witness_DecodeReadsBackEncode : (Instr.micData 2).wf = true ∧ (Instr.ceAdd 255).wf = true := by
  decide

theorem witness_DecodeFollowsTheOpcodeTable :
    (Instr.cmac 2).wf = true ∧ decode 0x0002FF23 = .command (.cmac 2) ∧ rsvField 0x0002FF23 = 0 ∧
      (Instr.cmac 2).opcode = opField 0x0002FF23 ∧ (Instr.cmac 2).usesIdx = false ∧
      (Instr.cmac 2).ksel = kselField 0x0002FF23 ∧ (Instr.ceAdd 255).idx = idxField 0x000FFF31 := by decide

theorem witness_IllegalWordOnlyCompletes :
    (pending 0x00100000 blank).busy = true ∧ (pending 0x00100000 blank).pendingTurn = .engine ∧
      IllegalWord (pending 0x00100000 blank).cmd ∧ IllegalWord (pending 0x00000025 blank).cmd ∧
      IllegalWord (pending 0x00030020 blank).cmd ∧ IllegalWord (pending 0x000F0024 blank).cmd ∧
      rsvField 0x00100000 ≠ 0 ∧ rsvField 0x00000025 = 0 ∧ opField 0x00000025 ∉ opcodeTable ∧
      rsvField 0x000F0024 = 0 ∧ (opField 0x000F0024).toNat ≤ 0x24 ∧ 3 ≤ (kselField 0x000F0024).toNat := by
  unfold IllegalWord; decide

theorem witness_StepRunsDecodedCommand :
    (pending 0x00020020 blank).busy = true ∧ (pending 0x00020020 blank).pendingTurn = .engine ∧
      decode (pending 0x00020020 blank).cmd = .command (.aesEnc 2) := by decide

theorem witness_EitherAgentMayStep :
    (withProgram [waitLine] blank).host.program.head? = some waitLine ∧
      (withProgram [waitLine] blank).busy = false ∧
      (pending 0 (withProgram [waitLine] blank)).host.program.head? = some waitLine ∧
      (pending 0 (withProgram [waitLine] blank)).busy = true := by decide

/-- NOP meets the premise of every clause. -/
theorem witness_OnlyListedCommandsWrite :
    exec .nop blank = .next (blank.finish .ok) ∧
      (∀ k, Instr.nop ≠ .ctrXor k) ∧ Instr.nop ≠ .encode ∧ Instr.nop ≠ .decode ∧ Instr.nop ≠ .ceInit ∧
      (∀ k, Instr.nop ≠ .aesEnc k ∧ Instr.nop ≠ .aesDec k ∧ Instr.nop ≠ .cmac k) ∧
      (∀ k, Instr.nop ≠ .micData k) ∧
      (∀ k, Instr.nop ≠ .ceAdd k ∧ Instr.nop ≠ .ceRemove k ∧ Instr.nop ≠ .ceMask k ∧
        Instr.nop ≠ .ceUnmask k) := ⟨rfl, by decide⟩

theorem witness_NopOnlyCompletes : CommandWord 0x00 0x000FFF00 := by unfold CommandWord; decide

theorem witness_EncodeJoinRequestLayout :
    (toEncode joinRequest 23).fd.type = 0 ∧ 23 ≤ (toEncode joinRequest 23).maxLen := by decide

theorem witness_EncodeJoinAcceptLayout :
    (toEncode (joinAccept false) 17).fd.type = 1 ∧
      (toEncode (joinAccept false) 17).fd.joinAcceptLen ≤ (toEncode (joinAccept false) 17).maxLen ∧
      (toEncode (joinAccept true) 33).fd.type = 1 ∧
      (toEncode (joinAccept true) 33).fd.joinAcceptLen ≤ (toEncode (joinAccept true) 33).maxLen := by decide

/-- 15 options, a port, 227 payload bytes: 255 bytes in all. -/
def fullFrame : FrameDesc := dataFrame 5 0x10 0xE30F 1 1

/-- No port. -/
def shortFrame : FrameDesc := dataFrame 2 0 0 1 0

theorem witness_EncodeDataFrameLayout :
    2 ≤ fullFrame.type.toNat ∧ fullFrame.type.toNat ≤ 5 ∧ fullFrame.len.optsLen.toNat ≤ 15 ∧
      fullFrame.flags.portPresent = true ∧ fullFrame.dataFrameLen ≤ (toEncode fullFrame 255).maxLen ∧
      2 ≤ shortFrame.type.toNat ∧ shortFrame.type.toNat ≤ 5 ∧ shortFrame.len.optsLen.toNat ≤ 15 ∧
      shortFrame.len.dataLen = 0 ∧ shortFrame.dataFrameLen ≤ (toEncode shortFrame 12).maxLen := by decide

theorem witness_EncodeFailuresChangeNothingElse :
    CommandWord 0x10 0x000FFF10 ∧ 6 ≤ (dataFrame 6 0 0 0 0).type.toNat ∧
      (joinRequest.type = 0 ∧ (toEncode joinRequest 22).maxLen < 23) ∧
      (toEncode (joinAccept true) 32).maxLen < (joinAccept true).joinAcceptLen ∧
      (2 ≤ (dataFrame 2 0x10 0x10 0 0).type.toNat ∧ 15 < (dataFrame 2 0x10 0x10 0 0).len.optsLen.toNat) ∧
      ((dataFrame 2 0 0x300 0 0).flags.portPresent = false ∧ (dataFrame 2 0 0x300 0 0).len.dataLen ≠ 0) ∧
      (toEncode fullFrame 254).maxLen < fullFrame.dataFrameLen := by unfold CommandWord; decide

/-- One frame for each cause of rule R363, and one with none. -/
theorem witness_DecodeBadExactlyForMalformed :
    CommandWord 0x11 0x000FFF11 ∧ BadFrame (toDecode frameU 0) ∧ BadFrame (toDecode [0xE0] 18) ∧ BadFrame (toDecode [0x41] 18) ∧
      BadFrame (toDecode [0x00] 22) ∧ BadFrame (toDecode [0x20] 18) ∧ BadFrame (toDecode frameU 11) ∧
      BadFrame (toDecode (hexBytes 0x40da1b0126050100 8) 16) ∧ ¬ BadFrame (toDecode frameU 18) := by
  refine ⟨by unfold CommandWord; decide, ?_, ?_, ?_, ?_, ?_, ?_, ?_, ?_⟩ <;> unfold BadFrame <;>
    decide +kernel

theorem witness_DecodeJoinRequestFields :
    ¬ BadFrame (toDecode [0x00] 23) ∧ (toDecode [0x00] 23).wireType = 0 := by
  unfold BadFrame; decide +kernel

theorem witness_DecodeJoinAcceptFields :
    ¬ BadFrame (toDecode [0x20] 17) ∧ (toDecode [0x20] 17).wireType = 1 ∧
      ¬ BadFrame (toDecode [0x20] 33) ∧ (toDecode [0x20] 33).wireType = 1 := by
  unfold BadFrame; decide +kernel

/-- With a port (U), and the shortest frame, without one. -/
theorem witness_DecodeDataFrameFields :
    (¬ BadFrame (toDecode frameU 18) ∧ 2 ≤ (toDecode frameU 18).wireType.toNat ∧
      0 = ((toDecode frameU 18).wbuf 5).toNat % 16 ∧
      true = decide (12 + 0 < (toDecode frameU 18).frameLen)) ∧
    (¬ BadFrame (toDecode frameU 12) ∧ 2 ≤ (toDecode frameU 12).wireType.toNat ∧
      0 = ((toDecode frameU 12).wbuf 5).toNat % 16 ∧
      false = decide (12 + 0 < (toDecode frameU 12).frameLen)) := by
  unfold BadFrame; decide +kernel

/-- Two buffers that agree inside the frame and differ outside it. -/
theorem witness_DecodeStaysInsideTheFrame :
    (∀ o, o < (toDecode frameU 18).frameLen →
      (withWbuf 18 [0xAA] (toDecode frameU 18)).mem.read (wbufBase + o) =
        (toDecode frameU 18).mem.read (wbufBase + o)) := by
  intro o ho
  have h : o < 18 := ho
  interval_cases o <;> decide +kernel

theorem witness_RoundTripJoinRequest :
    ∃ t, (toEncode joinRequest 23).fd.type = 0 ∧ exec .encode (toEncode joinRequest 23) = .next t ∧
      t.result = .ok := ⟨_, rfl, rfl, by decide +kernel⟩

theorem witness_RoundTripJoinAccept :
    ∃ t, (toEncode (joinAccept true) 33).fd.type = 1 ∧
      exec .encode (toEncode (joinAccept true) 33) = .next t ∧ t.result = .ok ∧
      hexBytes 0x20563412130000da1b01261301184f84e85684b85e84886684586e8400 29 =
        0x20 :: (le (joinAccept true).appNonce 3 ++ le (joinAccept true).netId 3 ++
          le (joinAccept true).devAddr 4 ++
          [BitVec.ofNat 8 (16 * (joinAccept true).ja.rx1DrOffset.toNat + (joinAccept true).ja.rx2Dr.toNat),
           BitVec.ofNat 8 (joinAccept true).ja.rxDelay.toNat] ++
          (if (joinAccept true).ja.cfListPresent then (joinAccept true).cfList.bytes else [])) :=
  ⟨_, rfl, rfl, by decide +kernel, by decide +kernel⟩

theorem witness_RoundTripDataFrame :
    ∃ t, 2 ≤ shortFrame.type.toNat ∧ shortFrame.type.toNat ≤ 5 ∧ shortFrame.fCnt.toNat < 2 ^ 16 ∧
      exec .encode (toEncode shortFrame 12) = .next t ∧ t.result = .ok :=
  ⟨_, by decide, by decide, by decide, rfl, by decide +kernel⟩

theorem witness_CodecHelpersAnswer :
    CommandWord 0x12 0x000FFF12 ∧ CommandWord 0x13 0x00050013 ∧
      255 = (withArgs 0xFFFF01FF 0xFF 0 blank).args.r0.toNat % 256 ∧
      255 = (withArgs 0xFFFF01FF 0xFF 0 blank).args.r1.toNat % 256 ∧
      7 = (withArgs 0xFFFF01FF 0 0 blank).args.r0.toNat % 8 := by unfold CommandWord; decide

theorem witness_CiphersUndoThemselves :
    (List.replicate 256 (0 : Byte)).length ≤ 256 :=
  List.length_replicate.le

theorem witness_AesBlockCommands :
    CommandWord 0x20 0x00020020 ∧ (kselField 0x00020020).toNat < 3 ∧
      CommandWord 0x20 0x00030020 ∧ 3 ≤ (kselField 0x00030020).toNat ∧
      CommandWord 0x21 0x00000021 ∧ (kselField 0x00000021).toNat < 3 ∧
      CommandWord 0x21 0x000F0021 ∧ 3 ≤ (kselField 0x000F0021).toNat ∧
      ((2 : BitVec 4) = 2 ∧ testKeys.appS = (armed 0).keys.appS) ∧
      (pending 0x00030020 blank).cmd = 0x00030020 := by
  unfold CommandWord; decide +kernel

/-- A range that ends at 256 and one that passes it. -/
theorem witness_CtrXorCommand :
    CommandWord 0x22 0x00020022 ∧ (kselField 0x00020022).toNat < 3 ∧
      CommandWord 0x22 0x00030022 ∧ 3 ≤ (kselField 0x00030022).toNat ∧
      252 = (armed 0x04FC).args.r0.toNat % 256 ∧ 4 = (armed 0x04FC).args.r0.toNat / 256 % 256 ∧
      252 + 4 ≤ 256 ∧ 252 = (armed 0x05FC).args.r0.toNat % 256 ∧
      5 = (armed 0x05FC).args.r0.toNat / 256 % 256 ∧ 256 < 252 + 5 := by unfold CommandWord; decide

theorem witness_CmacCommand :
    CommandWord 0x23 0x00020023 ∧ (kselField 0x00020023).toNat < 3 ∧
      CommandWord 0x23 0x00030023 ∧ 3 ≤ (kselField 0x00030023).toNat ∧
      1 = (armed 0xFF01).args.r0.toNat % 256 ∧ 255 = (armed 0xFF01).args.r0.toNat / 256 % 256 ∧
      1 + 255 ≤ 256 ∧ 250 = (armed 0x07FA).args.r0.toNat % 256 ∧
      7 = (armed 0x07FA).args.r0.toNat / 256 % 256 ∧ 256 < 250 + 7 := by unfold CommandWord; decide

theorem witness_MicDataCommand :
    CommandWord 0x24 0x00010024 ∧ (kselField 0x00010024).toNat < 3 ∧
      CommandWord 0x24 0x000F0024 ∧ 3 ≤ (kselField 0x000F0024).toNat ∧
      0 = (armed 0xFF00).args.r0.toNat % 256 ∧ 255 = (armed 0xFF00).args.r0.toNat / 256 % 256 ∧
      0 + 255 ≤ 256 ∧ 255 = (armed 0x02FF).args.r0.toNat % 256 ∧
      2 = (armed 0x02FF).args.r0.toNat / 256 % 256 ∧ 256 < 255 + 2 := by unfold CommandWord; decide

theorem witness_KeysClearedByKeyReaders :
    (Instr.aesEnc 2).wf = true ∧ Instr.nop.wf = true ∧ IllegalWord (pending 0x00030020 blank).cmd := by
  unfold IllegalWord; decide

theorem witness_CeInitBuildsTheRegion :
    CommandWord 0x30 0x00000030 ∧ inited.ce.nch ≤ 16 ∧
      ({ inited with ce := { inited.ce with ifault := true } } : State).ce.ifault = true := by
  unfold CommandWord; decide

/-- An index past the table, a rejected frequency, a band past the table, and an add that is accepted, on an
empty engine and on one that has a selection. -/
theorem witness_CeAddConfiguresOrRejects :
    CommandWord 0x31 0x00000F31 ∧ (868100000 : Word) ≠ 0 ∧ inited.ce.nch ≤ (16 : BitVec 8).toNat ∧
      (tr0.askValidate 0 900000000).accepted = false ∧
      (ChanEngine.empty 16 2).nband ≤ (tr0.askValidate 0 869525000).subBand ∧
      (15 : BitVec 8).toNat < inited.ce.nch ∧ (tr0.askValidate 0 868100000).accepted = true ∧
      (tr0.askValidate 0 868100000).subBand < inited.ce.nband ∧ blank.ce.total = 0 ∧
      inited.ce.sel = some ⟨0, 0⟩ := by unfold CommandWord; decide +kernel

theorem witness_CeRemoveClearsTheSlot :
    CommandWord 0x32 0x00000032 ∧ inited.ce.chans[(16 : BitVec 8).toNat]? = none ∧
      inited.ce.chans[(15 : BitVec 8).toNat]? = some ⟨0, 0, false⟩ ∧ (0 : Byte).toNat < inited.ce.nband ∧
      inited.ce.chans[(0 : BitVec 8).toNat]? = some ⟨868100000, 0, false⟩ ∧
      oneMasked.ce.chans[(0 : BitVec 8).toNat]? = some ⟨868100000, 0, true⟩ ∧
      oneMasked.ce.sel = some ⟨0, 1⟩ := by unfold CommandWord; decide +kernel

theorem witness_CeMaskMakesIneligible :
    CommandWord 0x33 0x00000233 ∧ inited.ce.nch ≤ (16 : BitVec 8).toNat ∧
      inited.ce.chans[(15 : BitVec 8).toNat]? = some ⟨0, 0, false⟩ ∧
      oneMasked.ce.chans[(0 : BitVec 8).toNat]? = some ⟨868100000, 0, true⟩ ∧
      inited.ce.chans[(2 : BitVec 8).toNat]? = some ⟨868500000, 0, false⟩ ∧
      (0 : Byte).toNat < inited.ce.nband ∧ inited.ce.sel = some ⟨0, 0⟩ := by unfold CommandWord; decide +kernel

theorem witness_CeUnmaskMakesEligible :
    CommandWord 0x34 0x00000034 ∧ inited.ce.nch ≤ (16 : BitVec 8).toNat ∧
      inited.ce.chans[(15 : BitVec 8).toNat]? = some ⟨0, 0, false⟩ ∧
      inited.ce.chans[(2 : BitVec 8).toNat]? = some ⟨868500000, 0, false⟩ ∧
      oneMasked.ce.chans[(0 : BitVec 8).toNat]? = some ⟨868100000, 0, true⟩ ∧
      (0 : Byte).toNat < oneMasked.ce.nband ∧ oneMasked.ce.total + 1 ≠ 1 := by unfold CommandWord; decide +kernel

/-- A band whose count says 1 and whose table has no eligible slot: the premise of the internal fault. -/
def miscounted : ChanEngine := { ChanEngine.empty 1 1 with bands := [⟨0, none, 1⟩], total := 1 }

theorem witness_CycleChannelPicksEarliestBand :
    (∀ band ∈ blank.ce.bands, band.num = 0) ∧
      (miscounted.bands[0]? = some ⟨0, none, 1⟩ ∧ (1 : Byte) ≠ 0 ∧
        (∀ c, c < miscounted.nch → miscounted.eligibleAt 0 c = false)) ∧
      (inited.ce.bands[0]? = some ⟨0, some 0, 3⟩ ∧ (3 : Byte) ≠ 0 ∧ 0 < inited.ce.nch ∧
        inited.ce.eligibleAt 0 ((1 + 0) % inited.ce.nch) = true) := by decide +kernel

/-- The other bands of both states hold nothing, so band 0 is the earliest. -/
theorem witness_CycleChannel_earliest :
    (∀ (b : Nat) (band : Band), miscounted.bands[b]? = some band → band.num ≠ 0 →
      (0 : Time) ≤ band.ready ∧ (band.ready = 0 → 0 ≤ b)) ∧
    (∀ (b : Nat) (band : Band), inited.ce.bands[b]? = some band → band.num ≠ 0 →
      (0 : Time) ≤ band.ready ∧ (band.ready = 0 → 0 ≤ b)) :=
  ⟨fun _ _ _ _ => ⟨Nat.zero_le _, fun _ => Nat.zero_le _⟩,
    fun _ _ _ _ => ⟨Nat.zero_le _, fun _ => Nat.zero_le _⟩⟩

theorem witness_SetRatePowerStoresAnyValue : CommandWord 0x35 0x00000035 := by unfold CommandWord; decide

theorem witness_WaitTimeIsTimeLeft :
    CommandWord 0x36 0x00000036 ∧
      2 ^ 32 = 2 ^ 32 * (withArgs 0 1 0 sent).args.r1.toNat + (withArgs 0 1 0 sent).args.r0.toNat := by
  unfold CommandWord; decide +kernel

/-- Nothing selected, a rate without parameters, and a setting that resolves. -/
theorem witness_SettingsCommandsAnswerRadioSetting :
    CommandWord 0x37 0x00000037 ∧ CommandWord 0x38 0x00000038 ∧ CommandWord 0x39 0x00000039 ∧
      allMasked.ce.sel = none ∧ tr0.askRateParams 0 9 = none ∧ inited.ce.sel = some ⟨0, 0⟩ ∧
      tr0.askRateParams inited.ce.region inited.ce.rate = some ⟨7, 0⟩ ∧
      inited.regionPort.askRx1Rate inited.ce.region inited.ce.rate inited.ce.rx1Offset = 5 ∧
      inited.ce.chans[0]? = some ⟨868100000, 0, false⟩ ∧ inited.ce.rx2Freq = 869525000 ∧ inited.ce.rx2Rate = 0 := by
  unfold CommandWord; decide +kernel

theorem witness_RegisterTxAdvancesTheGate :
    CommandWord 0x3A 0x0000003A ∧ blank.ce.sel = none ∧ inited.ce.sel = some ⟨0, 0⟩ ∧
      inited.ce.bands[0]? = some ⟨0, some 0, 3⟩ ∧
      1000 = 2 ^ 32 * (withArgs 1000 0 20 inited).args.r1.toNat +
        (withArgs 1000 0 20 inited).args.r0.toNat ∧
      20 = (withArgs 1000 0 20 inited).args.r2.toNat % 256 := by unfold CommandWord; decide +kernel

theorem witness_CapacityAnswersPnch : CommandWord 0x3B 0x0000FF3B ∧ blank.ce.Sized :=
  ⟨by unfold CommandWord; decide, blank_inv.channels.sized⟩

/-- The FSK code, the ends of the LoRa codes, and a code just outside each range. -/
theorem witness_TimeOnAirAnswersAirtime :
    CommandWord 0x3C 0x0000003C ∧ 12 = (withArgs 0x30C 255 0 blank).args.r0.toNat % 256 ∧
      3 = (withArgs 0x30C 255 0 blank).args.r0.toNat / 256 % 256 ∧
      255 = (withArgs 0x30C 255 0 blank).args.r1.toNat % 256 ∧
      (((12 : Nat) = 0 ∨ (6 ≤ 12 ∧ 12 ≤ 12)) ∧ 3 ≤ 3) ∧
      ¬ (((5 : Nat) = 0 ∨ (6 ≤ 5 ∧ 5 ≤ 12)) ∧ 3 ≤ 3) ∧
      ¬ (((7 : Nat) = 0 ∨ (6 ≤ 7 ∧ 7 ≤ 12)) ∧ 4 ≤ 3) := by unfold CommandWord; decide

theorem witness_AirtimeIsBounded :
    255 ≤ 255 ∧ 0 ≤ 3 ∧ ((12 : Nat) = 0 ∨ (6 ≤ 12 ∧ 12 ≤ 12)) ∧ airtime 12 0 255 = 9019392 := by
  decide +kernel

theorem witness_ExhaustionAndRecovery :
    allMasked.Inv ∧
      (∀ (i : Nat) (ch : Channel), allMasked.ce.chans[i]? = some ch → ch.freq ≠ 0 → ch.masked = true) ∧
      allMasked.ce.chans[(1 : BitVec 8).toNat]? = some ⟨868300000, 0, true⟩ ∧ (868300000 : Word) ≠ 0 := by
  refine ⟨allMasked_inv, ?_, by decide +kernel, by decide⟩
  have h : ∀ ch ∈ allMasked.ce.chans, ch.freq ≠ 0 → ch.masked = true := by decide +kernel
  exact fun i ch hi => h ch (List.mem_of_getElem? hi)

theorem witness_RoundRobinVisitsEveryChannel :
    inited.ce.Inv ∧
      (∀ (b' : Nat) (band : Band), inited.ce.bands[b']? = some band → b' ≠ 0 → band.num = 0) ∧
      inited.ce.eligibleAt 0 2 = true := by
  refine ⟨inited_inv.channels, ?_, by decide +kernel⟩
  intro b' band hb hne
  have hlen : b' < 6 := (List.getElem?_eq_some_iff.1 hb).1
  have h : ∀ b' : Fin 6, b'.val ≠ 0 → ∀ band, inited.ce.bands[b'.val]? = some band → band.num = 0 := by
    have e : inited.ce.bands = ⟨0, some 0, 3⟩ :: List.replicate 5 Band.empty := by decide +kernel
    intro b' hb' band hband
    obtain ⟨n, hn⟩ := b'
    rw [e] at hband
    cases n with
    | zero => exact absurd rfl hb'
    | succ n =>
      rw [List.getElem?_cons_succ] at hband
      have := List.eq_of_mem_replicate (List.mem_of_getElem? hband)
      rw [this]; rfl
  exact h ⟨b', hlen⟩ hne band hb

/-- S0, a transmission of 20 bytes at 1000, and a wait asked at 1000. -/
theorem witness_DutyCycleIsMonotone :
    ∃ t, inited.Inv ∧ (withArgs 1000 0 20 inited).ce.sel = some ⟨0, 0⟩ ∧
      exec .ceRegisterTx (withArgs 1000 0 20 inited) = .next t ∧ t.ce.sel = some ⟨0, 1⟩ ∧
      txAirtime tr0 inited.ce.region inited.ce.rate (withArgs 1000 0 20 inited).txLen *
        (tr0.askOffTime inited.ce.region 0).toNat = 5145600 ∧
      (withArgs 1000 0 20 inited).nowArg.toNat + 5145600 < 2 ^ 64 ∧
      1000 = 2 ^ 32 * (⟨1000, 0, 0, 0⟩ : Quad).r1.toNat + (⟨1000, 0, 0, 0⟩ : Quad).r0.toNat :=
  ⟨_, inited_inv, by decide +kernel, rfl, by decide +kernel, by decide +kernel, by decide +kernel, by decide⟩

theorem witness_StepKeepsTheInvariants : ∃ t, inited.Inv ∧ step (pending 0x3A inited) = .next t ∧
    (pending 0x3A inited).Inv :=
  ⟨_, inited_inv, rfl, inited_inv.channels, inited_inv.buffers⟩

theorem witness_ResetHasTheInvariants :
    1 ≤ 1 ∧ 64 ≤ 64 ∧ 1 ≤ 1 ∧ 32 ≤ 32 := by decide

/-- IFAULT is sticky: a state with it set and the invariants. -/
theorem witness_InternalFaultUnreachable :
    ∃ s t : State, s.Inv ∧ step s = .next t ∧ t.ce.ifault = true :=
  ⟨{ inited with ce := { inited.ce with ifault := true } }, _,
    ⟨inited_inv.channels.settings rfl rfl rfl rfl, inited_inv.buffers⟩, rfl, rfl⟩

theorem witness_ParametersAreConstant :
    ∃ t, step (pending 0x30 inited) = .next t ∧ (pending 0x30 inited).ce.Sized :=
  ⟨_, rfl, inited_inv.channels.sized⟩

/-- The last register of each table of the largest instance, and the last offset. -/
theorem witness_RegisterMapRoundTrip :
    64 ≤ 64 ∧ 32 ≤ 32 ∧ (Reg.chStat 63).present 64 32 = true ∧ (Reg.bandNum 31).present 64 32 = true ∧
      (Reg.pbuf 63).present 64 32 = true ∧ 0x7FC % 4 = 0 ∧
      regAt 64 32 0x7FC = some (.bandNum 31) := by decide

theorem witness_ResetValuesOfEveryRegister :
    (Reg.bandLast 5).present 16 6 = true ∧ (∀ k, Reg.bandLast 5 ≠ .wbuf k ∧ Reg.bandLast 5 ≠ .pbuf k) :=
  ⟨by decide, by simp⟩

theorem witness_WriteThenReadBack :
    blank.busy = false ∧ (Reg.keyApp 3).present 16 6 = true ∧ (Reg.keyApp 3).writable = true ∧
      (Reg.pbuf 63).present 16 6 = true ∧ (Reg.pbuf 63).writable = true ∧ (Reg.pbuf 63).isKey = false ∧
      Reg.fdJa.present 16 6 = true ∧ Reg.fdJa.writable = true ∧ Reg.cmd.writable = true ∧
      Reg.result ≠ Reg.cmd := by decide

theorem witness_CmdWriteIssuesPendingWritesDrop :
    blank.busy = false ∧ (pending 0 blank).busy = true ∧ (Reg.keyApp 0).writable = true ∧
      Reg.result.writable = false ∧ Reg.result ≠ .ctrl ∧ Reg.result ≠ .status ∧
      regAt 16 6 0x03C = none ∧ regAt 16 6 0x480 = none := by decide

theorem witness_StatusBitsClearByWritingOne :
    (6 : Word).getLsbD 1 = true ∧ (6 : Word).getLsbD 2 = true ∧ (1 : Word).getLsbD 1 = false ∧
      (1 : Word).getLsbD 2 = false := by decide

theorem witness_SoftResetKeepsOnlyTheBuffers : (3 : Word).getLsbD 1 = true := by decide

/-- Two buffers that differ, after the same number of hardware resets. -/
theorem witness_HardResetForgetsTheBuffers :
    (withWbuf 1 [2] inited).mem.resets = (withWbuf 0 [1] inited).mem.resets := rfl

theorem witness_BusErrorExactly :
    (2 : Nat) ≠ 4 ∧ (0x002 : BitVec 12).toNat % 4 ≠ 0 ∧ (0xFFC : BitVec 12).toNat % 4 = 0 ∧
      regAt blank.ce.nch blank.ce.nband 0x018 = some (.arg 0) ∧
      regAt blank.ce.nch blank.ce.nband 0x65C = some (.bandNum 5) := by decide

theorem witness_ReadsChangeNothingAndHideKeys : (0x0A0 : BitVec 12).toNat % 4 = 0 := by decide

theorem witness_InterruptFollowsDone :
    engineStep (pending 0 blank) = .next ((pending 0 blank).finish .ok) ∧
      blank.busy = false ∧ (2 : Word).getLsbD 1 = true ∧ (2 : Word).getLsbD 0 = false ∧
      (1 : Word).getLsbD 1 = false ∧ (1 : Word).getLsbD 0 = true := ⟨rfl, by decide⟩

theorem witness_WaitSynchronisesWithTheEngine :
    ∃ t, (pending 0x3B (withProgram [waitLine, rd (.res 0)] blank)).busy = true ∧
      (pending 0x3B (withProgram [waitLine, rd (.res 0)] blank)).host.program =
        waitLine :: [rd (.res 0)] ∧
      engineStep (pending 0x3B (withProgram [waitLine, rd (.res 0)] blank)) = .next t :=
  ⟨_, rfl, rfl, rfl⟩

end Sys2Proof.Tests
end

/-! The parameters of the block are constant (O49; 10_state.md rule R32, 70_reset_and_hazards.md rule R410):
what each shared operation, each command, a host line and so a step do to them. -/

namespace Sys2Proof.Machine

open Sys2Proof

/-- REGION, P_NCH and P_NBAND, the parameters the block is built with (00_scope.md rule R7). -/
def State.parameters (s : State) : RegionPort × Nat × Nat := (s.regionPort, s.ce.nch, s.ce.nband)

/-! ## The operations of the state -/

@[simp] theorem State.setWbuf_parameters (s : State) (o : Nat) (bs : List Byte) :
    (s.setWbuf o bs).parameters = s.parameters := rfl

@[simp] theorem State.setRes0_parameters (s : State) (v : Word) :
    (s.setRes0 v).parameters = s.parameters := rfl

@[simp] theorem State.setRes1_parameters (s : State) (v : Word) :
    (s.setRes1 v).parameters = s.parameters := rfl

@[simp] theorem State.setBlk_parameters (s : State) (b : Block) :
    (s.setBlk b).parameters = s.parameters := rfl

@[simp] theorem State.setFd_parameters (s : State) (fd : FrameDesc) :
    (s.setFd fd).parameters = s.parameters := rfl

@[simp] theorem State.finish_parameters (s : State) (c : ResultCode) :
    (s.finish c).parameters = s.parameters := rfl

@[simp] theorem State.zeroizeKeys_parameters (s : State) : s.zeroizeKeys.parameters = s.parameters := rfl

@[simp] theorem State.nextLine_parameters (s : State) : s.nextLine.parameters = s.parameters := rfl

@[simp] theorem State.receive_parameters (s : State) (w : Word) :
    (s.receive w).parameters = s.parameters := rfl

@[simp] theorem State.nextTurn_parameters (s : State) : s.nextTurn.parameters = s.parameters := rfl

@[simp] theorem State.writeStatus_parameters (s : State) (v : Word) :
    (s.writeStatus v).parameters = s.parameters := rfl

/-- A channel engine of the same capacities keeps the parameters. -/
theorem State.setCe_parameters (s : State) (ce : ChanEngine) (hnch : ce.nch = s.ce.nch)
    (hnband : ce.nband = s.ce.nband) : (s.setCe ce).parameters = s.parameters := by
  simp [State.parameters, hnch, hnband]

@[simp] theorem ChanEngine.empty_nch (nch nband : Nat) : (ChanEngine.empty nch nband).nch = nch := by
  simp [ChanEngine.nch, ChanEngine.empty]

@[simp] theorem ChanEngine.empty_nband (nch nband : Nat) : (ChanEngine.empty nch nband).nband = nband := by
  simp [ChanEngine.nband, ChanEngine.empty]

@[simp] theorem State.softReset_parameters (s : State) : s.softReset.parameters = s.parameters := by
  simp [State.parameters]

@[simp] theorem State.hardReset_parameters (s : State) : s.hardReset.parameters = s.parameters := by
  simp [State.parameters]

/-! ## The commands -/

/-- A key command keeps the parameters when its effect does, whatever the key. -/
theorem withKey_parameters (ksel : BitVec 4) (s : State) (e : Block → State × ResultCode)
    (he : ∀ k, (e k).1.parameters = s.parameters) : (withKey ksel s e).parameters = s.parameters := by
  unfold withKey
  split
  · simp
  · simpa using he _

theorem onRange_parameters (s t : State) (ht : t.parameters = s.parameters) :
    (onRange s t).1.parameters = s.parameters := by
  unfold onRange
  split
  · rfl
  · exact ht

theorem encodeEffect_parameters (s : State) : (encodeEffect s).parameters = s.parameters := by
  unfold encodeEffect
  split <;> simp

theorem decipherPayload_parameters (ty : BitVec 3) (len : Nat) (s : State) :
    (decipherPayload ty len s).parameters = s.parameters := by
  unfold decipherPayload
  split <;> simp

theorem decJoinRequest_parameters (len : Nat) (s : State) :
    (decJoinRequest len s).1.parameters = s.parameters := by
  unfold decJoinRequest
  split <;> simp

theorem decJoinAccept_parameters (len : Nat) (s : State) :
    (decJoinAccept len s).1.parameters = s.parameters := by
  unfold decJoinAccept
  split <;> simp [decipherJoinAccept]

theorem decData_parameters (ty : BitVec 3) (len : Nat) (s : State) :
    (decData ty len s).1.parameters = s.parameters := by
  unfold decData
  split
  · rfl
  · split
    · rfl
    · simpa using decipherPayload_parameters ty len s

theorem decodeFrame_parameters (len : Nat) (s : State) :
    (decodeFrame len s).1.parameters = s.parameters := by
  unfold decodeFrame
  split
  · rfl
  · split
    · rfl
    · split
      · exact decJoinRequest_parameters len s
      · exact decJoinAccept_parameters len s
      · exact decData_parameters s.wireType len s

theorem settingOf_parameters (s : State) (f : Selection → Word) (r : Byte) :
    (settingOf s f r).parameters = s.parameters := by
  unfold settingOf
  split
  · rfl
  · unfold resolveSetting
    split <;> simp

theorem timeOnAirEffect_parameters (s : State) : (timeOnAirEffect s).parameters = s.parameters := by
  unfold timeOnAirEffect
  split <;> simp

/-- No command writes the parameters (10_state.md rule R32). -/
theorem exec_parameters (i : Instr) (s t : State) (h : exec i s = .next t) : t.parameters = s.parameters := by
  have setCe_same (ce : ChanEngine) (c : ResultCode) (hce : s.ce.SameSettings ce) :
      ((s.setCe ce).finish c).parameters = s.parameters := s.setCe_parameters ce hce.nch hce.nband
  cases i with
  | nop | phySize | isUpstream | ceWaitTime | ceCapacity => cases h; simp
  | encode => cases h; exact encodeEffect_parameters s
  | decode => cases h; exact decodeFrame_parameters s.frameLen s
  | aesEnc ksel | aesDec ksel => cases h; exact withKey_parameters ksel s _ fun _ => by simp
  | ctrXor ksel | cmac ksel | micData ksel =>
    cases h; exact withKey_parameters ksel s _ fun _ => onRange_parameters s _ (by simp)
  | ceInit =>
    cases h
    obtain ⟨hnch, hnband⟩ := s.ce.initFor_size s.regionPort s.regionArg
    exact s.setCe_parameters _ hnch hnband
  | ceAdd idx => cases h; exact setCe_same _ _ (s.ce.add_same s.regionPort idx.toNat s.freqArg)
  | ceRemove idx => cases h; exact setCe_same _ _ (s.ce.remove_same idx.toNat)
  | ceMask idx => cases h; exact setCe_same _ _ (s.ce.mask_same idx.toNat)
  | ceUnmask idx => cases h; exact setCe_same _ _ (s.ce.unmask_same idx.toNat)
  | ceSetRatePower => cases h; exact s.setCe_parameters _ rfl rfl
  | ceTxSetting | ceRx1Setting | ceRx2Setting => cases h; exact settingOf_parameters s _ _
  | ceRegisterTx => cases h; exact setCe_same _ _ (s.ce.registerTx_same s.regionPort s.nowArg s.txLen)
  | timeOnAir => cases h; exact timeOnAirEffect_parameters s

/-! ## The two agents and the step -/

theorem State.writeReg_parameters (s : State) (r : Reg) (v : Word) :
    (s.writeReg r v).parameters = s.parameters := by
  cases r <;> rfl

theorem State.writeCtrl_parameters (s : State) (v : Word) : (s.writeCtrl v).parameters = s.parameters := by
  unfold State.writeCtrl
  split
  · exact s.softReset_parameters
  · rfl

theorem State.writeAt_parameters (s : State) (o : Nat) (v : Word) :
    (s.writeAt o v).parameters = s.parameters := by
  obtain ⟨r, -, hw⟩ | ⟨-, hw⟩ := writeAt_cases s o v <;> rw [hw]
  obtain ⟨-, hr⟩ | ⟨-, hr⟩ | ⟨-, -, hr⟩ | ⟨-, -, hr⟩ | ⟨-, hr⟩ := hostStore_cases s r v <;> rw [hr]
  · exact s.writeCtrl_parameters v
  · exact s.writeStatus_parameters v
  · rfl
  · exact s.writeReg_parameters r v

theorem hostLine_parameters (line : HostLine) (s t : State) (h : hostLine line s = .next t) :
    t.parameters = s.parameters := by
  obtain ⟨o, n, v, -, -, rfl⟩ | ⟨o, n, -, -, rfl⟩ | ⟨o, m, v, -, -, rfl⟩ | ⟨-, rfl⟩ | ⟨-, rfl⟩ :=
    hostLine_cases line s t h
  · exact s.nextLine.writeAt_parameters o.toNat v
  · simp
  · split <;> simp
  · simp
  · simp

theorem engineStep_parameters (s t : State) (h : engineStep s = .next t) : t.parameters = s.parameters := by
  obtain ⟨i, -, hi⟩ | ⟨r, -, rfl⟩ := engineStep_cases s t h
  · exact exec_parameters i s t hi
  · simp

/-- No step of the machine changes the parameters (rules R32 and R410). -/
theorem step_parameters (s t : State) (h : step s = .next t) : t.parameters = s.parameters := by
  obtain ⟨-, -, he⟩ | ⟨line, u, hu, -, hl⟩ | ⟨ht, -⟩ := step_cases s t h
  · exact engineStep_parameters s.nextTurn t he
  · obtain rfl | rfl := hu
    · exact hostLine_parameters line u t hl
    · exact hostLine_parameters line s.nextTurn t hl
  · obtain rfl | rfl := ht <;> simp

/-! ## CFG -/

/-- CFG shows the low bytes of P_NCH and P_NBAND (10_state.md rule R32). -/
theorem State.readReg_cfg (s : State) :
    s.readReg .cfg = fourBytes (natByte s.ce.nch) (natByte s.ce.nband) 0 0 := rfl

/-- Four packed bytes as a number (20_memory.md rule R105). -/
theorem fourBytes_toNat (b0 b1 b2 b3 : Byte) :
    (fourBytes b0 b1 b2 b3).toNat =
      b0.toNat + 256 * b1.toNat + 65536 * b2.toNat + 16777216 * b3.toNat := by
  simp only [fourBytes, Col.toWord, toNat_append_add]
  omega

/-- For legal capacities CFG is the two capacities themselves. -/
theorem State.readReg_cfg_toNat (s : State) (hs : s.ce.Sized) :
    (s.readReg .cfg).toNat = s.ce.nch + 256 * s.ce.nband := by
  have hnch := hs.nch_le
  have hnband := hs.nband_le
  rw [s.readReg_cfg, fourBytes_toNat]
  simp only [natByte, BitVec.toNat_ofNat, BitVec.ofNat_eq_ofNat, Nat.reducePow, Nat.zero_mod]
  omega

/-- Settles O49: CFG is a function of the parameters, which no step changes, and ID is a constant. -/
theorem parametersAreConstant : Obligations.ParametersAreConstant := by
  intro s t h
  obtain ⟨hport, hnch, hnband⟩ :
      t.regionPort = s.regionPort ∧ t.ce.nch = s.ce.nch ∧ t.ce.nband = s.ce.nband := by
    simpa [State.parameters] using step_parameters s t h
  have hcfg : t.readReg .cfg = s.readReg .cfg := by
    rw [t.readReg_cfg, s.readReg_cfg, hnch, hnband]
  exact ⟨hport, hnch, hnband, rfl, hcfg, fun hs => by rw [hcfg, s.readReg_cfg_toNat hs]⟩

end Sys2Proof.Machine

/-! Illegal command words (O4; 30_encoding.md rule R136, 60_exceptions.md rule R365): what the opcode map
answers for an opcode, what makes a command well formed, what the decoder answers for each cause of R136 and
for the other words, and the engine step on a word that is no command. -/

namespace Sys2Proof

/-! ## Commands and their opcodes -/

/-- The opcode of a command is in the table (rule R135). -/
theorem Instr.opcode_mem_opcodeTable (i : Instr) : i.opcode ∈ opcodeTable := by
  cases i <;> simp [Instr.opcode, opcodeTable]

/-- The commands that read KSEL are those of opcodes 0x20 to 0x24 (rule R135). -/
theorem Instr.usesKsel_iff (i : Instr) :
    i.usesKsel = true ↔ 0x20 ≤ i.opcode.toNat ∧ i.opcode.toNat ≤ 0x24 := by
  cases i <;> simp [Instr.usesKsel, Instr.opcode]

/-- A command is ill formed exactly when it reads a key select that names no key (rules R132 and R136). -/
theorem Instr.wf_eq_false_iff (i : Instr) : i.wf = false ↔ i.usesKsel = true ∧ 3 ≤ i.ksel.toNat := by
  cases i <;> simp [Instr.wf, Instr.usesKsel, Instr.ksel, kselOk]

/-- The opcodes 0x20 to 0x24 are in the table. -/
theorem mem_opcodeTable_of_keyed (op : BitVec 8) (hlo : 0x20 ≤ op.toNat) (hhi : op.toNat ≤ 0x24) :
    op ∈ opcodeTable := by
  obtain rfl | rfl | rfl | rfl | rfl :
      op = 0x20 ∨ op = 0x21 ∨ op = 0x22 ∨ op = 0x23 ∨ op = 0x24 := by bv_omega
  all_goals decide

/-! ## The opcode map -/

/-- A command the opcode map answers has the opcode it was asked for, and the key select given where it
reads one (rule R135). -/
theorem decodeOp_eq_some {op idx : BitVec 8} {ksel : BitVec 4} {i : Instr}
    (h : decodeOp op idx ksel = some i) : i.opcode = op ∧ (i.usesKsel = true → i.ksel = ksel) := by
  unfold decodeOp at h
  split at h <;> cases h
  all_goals
    rename_i hop
    exact ⟨BitVec.eq_of_toNat_eq hop.symm, by simp [Instr.usesKsel, Instr.ksel]⟩

/-- The opcode map answers a command for every opcode of the table. -/
theorem decodeOp_isSome {op : BitVec 8} (idx : BitVec 8) (ksel : BitVec 4) (h : op ∈ opcodeTable) :
    (decodeOp op idx ksel).isSome = true := by
  revert op
  simp [opcodeTable, decodeOp]

/-- The opcode map answers nothing exactly for the opcodes outside the table (rule R136, cause (b)). -/
theorem decodeOp_eq_none_iff (op idx : BitVec 8) (ksel : BitVec 4) :
    decodeOp op idx ksel = none ↔ op ∉ opcodeTable := by
  cases h : decodeOp op idx ksel with
  | none =>
    refine ⟨fun _ hop => ?_, fun _ => rfl⟩
    simpa [h] using decodeOp_isSome idx ksel hop
  | some i =>
    obtain ⟨rfl, -⟩ := decodeOp_eq_some h
    simp [i.opcode_mem_opcodeTable]

/-- A command the opcode map answers is ill formed exactly when its opcode is one of 0x20 to 0x24 and the
key select is 3 or more (rule R136, cause (c)). -/
theorem decodeOp_wf_eq_false_iff {op idx : BitVec 8} {ksel : BitVec 4} {i : Instr}
    (h : decodeOp op idx ksel = some i) :
    i.wf = false ↔ 0x20 ≤ op.toNat ∧ op.toNat ≤ 0x24 ∧ 3 ≤ ksel.toNat := by
  obtain ⟨rfl, hksel⟩ := decodeOp_eq_some h
  rw [i.wf_eq_false_iff, ← and_assoc, ← i.usesKsel_iff]
  exact and_congr_right fun hu => by rw [hksel hu]

/-! ## The decoder -/

/-- Cause (a) of rule R136 is checked first. -/
theorem decode_reservedBits {w : Word} (h : rsvField w ≠ 0) : decode w = .illegal .reservedBits :=
  if_neg h

/-- Cause (b) of rule R136 is checked next. -/
theorem decode_unknownOpcode {w : Word} (hrsv : rsvField w = 0) (hop : opField w ∉ opcodeTable) :
    decode w = .illegal .unknownOpcode := by
  simp [decode, hrsv, (decodeOp_eq_none_iff _ _ _).2 hop]

/-- A word with reserved bits 0 and an opcode of the table names a command, and the decoder answers that
command or, where it is ill formed, cause (c) of rule R136. -/
theorem decode_of_mem {w : Word} (hrsv : rsvField w = 0) (hop : opField w ∈ opcodeTable) :
    ∃ i, decodeOp (opField w) (idxField w) (kselField w) = some i ∧
      decode w = if i.wf then .command i else .illegal .illegalKeySelect := by
  obtain ⟨i, hi⟩ := Option.isSome_iff_exists.1 (decodeOp_isSome (idxField w) (kselField w) hop)
  exact ⟨i, hi, by simp [decode, hrsv, hi]⟩

/-- Cause (c) of rule R136 is checked last. -/
theorem decode_illegalKeySelect {w : Word} (hrsv : rsvField w = 0) (hlo : 0x20 ≤ (opField w).toNat)
    (hhi : (opField w).toNat ≤ 0x24) (hksel : 3 ≤ (kselField w).toNat) :
    decode w = .illegal .illegalKeySelect := by
  obtain ⟨i, hi, hd⟩ := decode_of_mem hrsv (mem_opcodeTable_of_keyed _ hlo hhi)
  simp [hd, (decodeOp_wf_eq_false_iff hi).2 ⟨hlo, hhi, hksel⟩]

/-- An illegal word decodes to a reject. -/
theorem decode_of_illegalWord {w : Word} (h : IllegalWord w) : ∃ r, decode w = .illegal r := by
  by_cases hrsv : rsvField w = 0
  · obtain hne | hop | ⟨hlo, hhi, hksel⟩ := h
    · exact absurd hrsv hne
    · exact ⟨_, decode_unknownOpcode hrsv hop⟩
    · exact ⟨_, decode_illegalKeySelect hrsv hlo hhi hksel⟩
  · exact ⟨_, decode_reservedBits hrsv⟩

/-- A word with none of the causes of rule R136 decodes to a command. -/
theorem decode_of_not_illegalWord {w : Word} (h : ¬ IllegalWord w) : ∃ i, decode w = .command i := by
  simp only [IllegalWord, not_or, not_not] at h
  obtain ⟨hrsv, hop, hkey⟩ := h
  obtain ⟨i, hi, hd⟩ := decode_of_mem hrsv hop
  have hwf : i.wf = true := by simpa using mt (decodeOp_wf_eq_false_iff hi).1 hkey
  exact ⟨i, by simp [hd, hwf]⟩

/-- The decoder rejects exactly the illegal words (rule R136). -/
theorem decode_illegal_iff (w : Word) : (∃ r, decode w = .illegal r) ↔ IllegalWord w := by
  refine ⟨fun ⟨r, hr⟩ => ?_, decode_of_illegalWord⟩
  by_contra hw
  obtain ⟨i, hi⟩ := decode_of_not_illegalWord hw
  simp [hi] at hr

end Sys2Proof

namespace Sys2Proof.Machine

open Sys2Proof

/-! ## The engine step -/

/-- The engine step on an illegal word ends it with ILLEGAL and does nothing else (rule R365). -/
theorem engineStep_illegalWord {s : State} (h : IllegalWord s.cmd) :
    engineStep s = .next (s.finish .illegal) := by
  obtain ⟨r, hr⟩ := decode_of_illegalWord h
  simp [engineStep, hr]

/-- Settles O4: the decoder rejects exactly the illegal words, cause by cause, and the engine step on one
only finishes. -/
theorem illegalWordOnlyCompletes : Obligations.IllegalWordOnlyCompletes :=
  ⟨fun w => ⟨decode_illegal_iff w, decode_reservedBits, decode_unknownOpcode, decode_illegalKeySelect⟩,
    fun _ => engineStep_illegalWord⟩

end Sys2Proof.Machine

/-! ENCODE of the two join frames (O10 and O11; 40_frame_codec.md rules R162, R163, R168 and R169): what an
ENCODE that fits MAXLEN leaves in every register and in WBUF, and the bytes of the two frames. -/

namespace Sys2Proof.Machine

open Sys2Proof

/-! ## What a successful ENCODE leaves -/

/-- The state after an ENCODE that wrote the frame `out`: the whole effect of rule R167 on OK, register by
register. -/
structure Encoded (s t : State) (out : List Byte) : Prop where
  ended     : Ended t .ok
  untouched : Untouched s t
  res0      : t.ress.r0.toNat = out.length
  res1      : t.ress.r1 = s.ress.r1
  keys      : t.keys = Keys.zero
  fd        : t.fd = s.fd
  blk       : t.blk = s.blk
  ce        : t.ce = s.ce
  frame     : t.wbufBytes 0 out.length = out
  outside   : ∀ a, a < wbufBase ∨ wbufBase + out.length ≤ a → t.mem.read a = s.mem.read a

/-- A frame that fits MAXLEN is written, and nothing but what rule R167 lists changes. -/
theorem exec_encode_encoded (s : State) (out : List Byte) (h : encodeFrame s = some out)
    (hl : out.length ≤ s.maxLen) : ∃ t, exec .encode s = .next t ∧ Encoded s t out := by
  have hlen : out.length < 256 := hl.trans_lt s.maxLen_lt
  exact ⟨_, exec_encode_ok s out h hl,
    { ended := ⟨rfl, rfl, rfl⟩
      untouched :=
        { regionPort := rfl, nch := rfl, nband := rfl, ie := rfl, errBusy := rfl, cmd := rfl, args := rfl
          res2 := rfl, res3 := rfl, host := rfl
          pbuf := fun o _ => s.pbuf_setWbuf 0 o out (by omega) }
      res0 := by
        simp only [State.finish_ress, State.zeroizeKeys_ress, State.setRes0_ress, BitVec.toNat_ofNat]
        omega
      res1 := rfl
      keys := rfl
      fd := rfl
      blk := rfl
      ce := rfl
      frame := s.wbufBytes_setWbuf 0 out (by omega)
      outside := fun a ha => Memory.read_writeBytes_outside s.mem wbufBase a out ha }⟩

/-- A part of the frame stands in WBUF at its offset in the frame. -/
theorem Encoded.wbufBytes_part {s t : State} {out : List Byte} (h : Encoded s t out)
    {pre mid post : List Byte} (ho : out = pre ++ (mid ++ post)) {i n : Nat} (hi : pre.length = i)
    (hn : mid.length = n) : t.wbufBytes i n = mid := by
  subst hi hn
  have hf : t.mem.readBytes wbufBase (pre.length + (mid.length + post.length)) = pre ++ (mid ++ post) := by
    simpa [ho, State.wbufBytes] using h.frame
  have hd := congrArg (fun bs => (bs.drop pre.length).take mid.length) hf
  simpa [State.wbufBytes, Memory.drop_readBytes, Memory.take_readBytes] using hd

/-- The first byte of the frame is WBUF[0]. -/
theorem Encoded.wbuf_zero {s t : State} {b : Byte} {bs : List Byte} (h : Encoded s t (b :: bs)) :
    t.wbuf 0 = b :=
  (List.cons.inj h.frame).1

/-! ## The JoinRequest -/

theorem encodeFrame_joinRequest {s : State} (h : s.fd.type = 0) :
    encodeFrame s = some (encJoinRequest s.fd s.keys) := by
  simp [encodeFrame, h]

theorem joinRequestMsg_length (fd : FrameDesc) : (joinRequestMsg fd).length = 19 := by
  simp [joinRequestMsg]

/-- The bytes of a JoinRequest, field by field (rule R162). -/
theorem encJoinRequest_eq (fd : FrameDesc) (keys : Keys) :
    encJoinRequest fd keys =
      0x00 :: ((le fd.appEuiLo 4 ++ le fd.appEuiHi 4) ++ ((le fd.devEuiLo 4 ++ le fd.devEuiHi 4) ++
        (le fd.devNonce 2 ++ mic32 (cmacTag keys.app (joinRequestMsg fd))))) := by
  simp [encJoinRequest, withJoinMic, joinRequestMsg, le_append, mhdr]

/-- Settles O10: the frame is the message and its MIC, and each field is read back from its offset. -/
theorem encodeJoinRequestLayout : Obligations.EncodeJoinRequestLayout := by
  intro s htype hmax
  have hlen := encJoinRequest_length s.fd s.keys
  obtain ⟨t, hexec, ht⟩ := exec_encode_encoded s _ (encodeFrame_joinRequest htype) (by omega)
  have hmsg : t.wbufBytes 0 19 = joinRequestMsg s.fd :=
    ht.wbufBytes_part (pre := []) rfl rfl (joinRequestMsg_length s.fd)
  have hmic : t.wbufBytes 19 4 = mic32 (cmacTag s.keys.app (joinRequestMsg s.fd)) :=
    ht.wbufBytes_part (post := []) (by simp [encJoinRequest, withJoinMic]) (joinRequestMsg_length s.fd) rfl
  rw [encJoinRequest_eq] at ht hlen
  refine ⟨t, hexec, ht.ended, ht.untouched, ?_, ht.keys, ht.fd, ht.blk, ht.ce, ht.res1, ht.wbuf_zero,
    ?_, ?_, ?_, ?_, hlen ▸ ht.outside⟩
  · exact BitVec.eq_of_toNat_eq (ht.res0.trans hlen)
  · exact ht.wbufBytes_part (pre := [0x00]) rfl rfl rfl
  · exact ht.wbufBytes_part (pre := 0x00 :: (le s.fd.appEuiLo 4 ++ le s.fd.appEuiHi 4)) rfl rfl rfl
  · exact ht.wbufBytes_part
      (pre := 0x00 :: (le s.fd.appEuiLo 4 ++ le s.fd.appEuiHi 4) ++
        (le s.fd.devEuiLo 4 ++ le s.fd.devEuiHi 4)) rfl rfl rfl
  · rw [hmsg, hmic]

/-! ## The JoinAccept -/

theorem encodeFrame_joinAccept {s : State} (h : s.fd.type = 1) :
    encodeFrame s = some (encJoinAccept s.fd s.keys) := by
  simp [encodeFrame, h]

/-- DLSettings as a number: RX1_DR_OFFSET above the four bits of RX2_DR (rule R163). -/
theorem JoinFields.dlSettings_eq (ja : JoinFields) :
    ja.dlSettings = BitVec.ofNat 8 (16 * ja.rx1DrOffset.toNat + ja.rx2Dr.toNat) := by
  have hoff := ja.rx1DrOffset.isLt
  have hdr := ja.rx2Dr.isLt
  apply BitVec.eq_of_toNat_eq
  simp only [JoinFields.dlSettings, toNat_append_add, BitVec.ofNat_eq_ofNat, BitVec.toNat_ofNat]
  omega

/-- RxDelay as a number: its upper four bits are RFU (rule R163). -/
theorem JoinFields.rxDelayByte_eq (ja : JoinFields) :
    ja.rxDelayByte = BitVec.ofNat 8 ja.rxDelay.toNat := by
  have hdelay := ja.rxDelay.isLt
  apply BitVec.eq_of_toNat_eq
  simp only [JoinFields.rxDelayByte, toNat_append_add, BitVec.ofNat_eq_ofNat, BitVec.toNat_ofNat]
  omega

/-- The bytes of a JoinAccept: MHDR, then body and MIC enciphered (rule R169). -/
theorem encJoinAccept_eq (fd : FrameDesc) (keys : Keys) :
    encJoinAccept fd keys =
      0x20 :: mapBlocks (aesInv keys.app) ((fd.joinAcceptLen - 1) / 16)
        (joinAcceptBody fd ++ mic32 (cmacTag keys.app (0x20 :: joinAcceptBody fd))) := by
  have hlen : (withJoinMic keys.app (mhdr 1 :: joinAcceptBody fd)).length = fd.joinAcceptLen := by
    simp [withJoinMic, ← joinAcceptBody_length]
  simp only [encJoinAccept, hlen]
  rfl

/-- Settles O11: the frame is MHDR and the enciphered body and MIC, read back from WBUF whole. -/
theorem encodeJoinAcceptLayout : Obligations.EncodeJoinAcceptLayout := by
  intro s htype hmax
  have hlen := encJoinAccept_length s.fd s.keys
  obtain ⟨t, hexec, ht⟩ := exec_encode_encoded s _ (encodeFrame_joinAccept htype) (by omega)
  rw [encJoinAccept_eq] at ht hlen
  refine ⟨t, 0x20 :: joinAcceptBody s.fd, hexec, ht.ended, ht.untouched, ht.res0.trans hlen, ht.keys, ht.fd,
    ht.blk, ht.ce, ht.res1, ?_, ht.wbuf_zero, ?_, hlen ▸ ht.outside⟩
  · rw [joinAcceptBody, s.fd.ja.dlSettings_eq, s.fd.ja.rxDelayByte_eq]
  · exact ht.wbufBytes_part (pre := [0x20]) (post := []) (by simp) rfl (Nat.eq_sub_of_add_eq hlen)

end Sys2Proof.Machine

/-! The codec's helpers (O22; 40_frame_codec.md rules R172 and R173): the words they decode from, what
PHY_SIZE and IS_UPSTREAM leave, and the numbers they answer. -/

namespace Sys2Proof.Machine

open Sys2Proof

/-- A word with reserved bits 0 decodes to the well-formed command the opcode map answers for its fields. -/
theorem decode_of_decodeOp {w : Word} {i : Instr} (hrsv : rsvField w = 0)
    (hi : decodeOp (opField w) (idxField w) (kselField w) = some i) (hwf : i.wf = true) :
    decode w = .command i := by
  simp [decode, hrsv, hi, hwf]

/-- Every size PHY_SIZE answers fits RES0, from 12 to 523 (rule R172). -/
theorem phySize_bounds {dl ol : Nat} (hdl : dl < 256) (hol : ol < 256) :
    12 ≤ phySize dl ol ∧ phySize dl ol ≤ 523 := by
  unfold phySize
  split <;> omega

/-- For a port without payload PHY_SIZE answers one less than the frame's length: a port is counted in the
size only with its payload, in the frame always (rules R164 and R172). -/
theorem phySize_zero_add_one {fd : FrameDesc} (hport : fd.flags.portPresent = true)
    (hlen : fd.len.dataLen = 0) : phySize 0 fd.len.optsLen.toNat + 1 = fd.dataFrameLen := by
  simp only [phySize, FrameDesc.dataFrameLen, hport, hlen, lt_irrefl, if_true, if_false,
    BitVec.ofNat_eq_ofNat, BitVec.toNat_ofNat]
  omega

/-- PHY_SIZE completes with OK and the size in RES0, and changes nothing else (rule R172). -/
theorem exec_phySize (s : State) :
    exec .phySize s =
      .next ((s.setRes0 (BitVec.ofNat 32 (phySize s.sizeDataLen s.sizeOptsLen))).finish .ok) := rfl

/-- The uplink types are the codes 0, 2 and 4 (rule R165). -/
theorem isUp_iff (t : BitVec 3) : isUp t = true ↔ t.toNat = 0 ∨ t.toNat = 2 ∨ t.toNat = 4 := by
  simp [isUp, BitVec.toNat_eq, or_assoc]

/-- IS_UPSTREAM completes with OK and the direction in RES0, and changes nothing else (rule R173). -/
theorem exec_isUpstream (s : State) :
    exec .isUpstream s = .next ((s.setRes0 (if isUp s.typeArg then 1 else 0)).finish .ok) := rfl

/-- Settles O22: the size formula in its range, and the uplink codes by their numbers. -/
theorem codecHelpersAnswer : Obligations.CodecHelpersAnswer := by
  refine ⟨fun w ⟨hop, hrsv⟩ => decode_of_decodeOp hrsv (by rw [hop]; rfl) rfl,
    fun w ⟨hop, hrsv⟩ => decode_of_decodeOp hrsv (by rw [hop]; rfl) rfl, ?_, ?_⟩
  · intro s dl ol hdl hol
    rw [← s.sizeDataLen_eq] at hdl
    rw [← s.sizeOptsLen_eq] at hol
    have hsize : 12 ≤ phySize dl ol ∧ phySize dl ol ≤ 523 := by
      rw [hdl, hol]
      exact phySize_bounds (byteAt_lt s.args.r0 0) (byteAt_lt s.args.r1 0)
    have hres : (BitVec.ofNat 32 (phySize dl ol)).toNat = phySize dl ol := by
      rw [BitVec.toNat_ofNat]; omega
    refine ⟨_, exec_phySize s, rfl, ?_⟩
    simp only [State.finish_ress, State.setRes0_ress, ← hdl, ← hol, hres]
    refine ⟨rfl, hsize.1, hsize.2, fun fd hport hlen hopts hnone => ?_⟩
    rw [hnone, ← hopts]
    exact phySize_zero_add_one hport hlen
  · intro s ty hty
    rw [← s.typeArg_toNat] at hty
    simp only [exec_isUpstream, isUp_iff, hty]
    rfl

end Sys2Proof.Machine

/-! The cipher and MAC commands (O25 to O29; 41_crypto.md rules R227 to R229 and R236 to R239): the words they
decode from, what a command with a key leaves on a range inside WBUF and on one past its end, and what every
command does to the keys. -/

namespace Sys2Proof.Machine

open Sys2Proof

/-! ## The words with a key select -/

/-- A word of a keyed opcode whose key select names no key is illegal (30_encoding.md rule R136, cause (c)). -/
theorem illegalWord_of_keyed {op : BitVec 8} {w : Word} (hw : CommandWord op w) (hlo : 0x20 ≤ op.toNat)
    (hhi : op.toNat ≤ 0x24) (hksel : 3 ≤ (kselField w).toNat) : IllegalWord w := by
  obtain ⟨rfl, -⟩ := hw
  exact .inr (.inr ⟨hlo, hhi, hksel⟩)

/-- The words of a keyed opcode `op`, whose command under a key select is `cmd`: with a key select below 3
they decode to it, with one of 3 or more they are illegal and the engine step on them only finishes (rules
R132, R135 and R136). -/
theorem keyedWords {op : BitVec 8} {cmd : BitVec 4 → Instr} (hlo : 0x20 ≤ op.toNat) (hhi : op.toNat ≤ 0x24)
    (hcmd : ∀ idx ksel, decodeOp op idx ksel = some (cmd ksel)) (hwf : ∀ ksel, (cmd ksel).wf = kselOk ksel) :
    (∀ w, CommandWord op w → (kselField w).toNat < 3 → decode w = .command (cmd (kselField w))) ∧
    (∀ w, CommandWord op w → 3 ≤ (kselField w).toNat → decode w = .illegal .illegalKeySelect) ∧
    (∀ s : State, CommandWord op s.cmd → 3 ≤ (kselField s.cmd).toNat →
      engineStep s = .next (s.finish .illegal)) := by
  refine ⟨?_, ?_, fun s hw hk => engineStep_illegalWord (illegalWord_of_keyed hw hlo hhi hk)⟩
  · rintro w ⟨rfl, hrsv⟩ hk
    exact decode_of_decodeOp hrsv (hcmd _ _) ((hwf _).trans (decide_eq_true hk))
  · rintro w ⟨rfl, hrsv⟩ hk
    exact decode_illegalKeySelect hrsv hlo hhi hk

/-! ## What a command with a key leaves -/

section WithKey

variable {s : State} {ksel : BitVec 4} {k : Block}
  (hkey : (ksel = 0 ∧ k = s.keys.app) ∨ (ksel = 1 ∧ k = s.keys.nwkS) ∨ (ksel = 2 ∧ k = s.keys.appS))

include hkey

/-- On a range inside WBUF a range command has its effect, clears the keys and completes with OK. -/
theorem withKey_onRange_in (e : Block → State) (hr : s.rangeOff + s.rangeLen ≤ 256) :
    withKey ksel s (fun k => onRange s (e k)) = (e k).zeroizeKeys.finish .ok := by
  rw [withKey_key ksel k s _ hkey, onRange_in s _ hr]

/-- On a range past the end of WBUF it clears the keys and completes with FAIL, and does nothing else. -/
theorem withKey_onRange_out (e : Block → State) (hr : 256 < s.rangeOff + s.rangeLen) :
    withKey ksel s (fun k => onRange s (e k)) = s.zeroizeKeys.finish .fail := by
  rw [withKey_key ksel k s _ hkey, onRange_out s _ hr]

/-! ## The five commands -/

theorem exec_aesEnc : exec (.aesEnc ksel) s = .next ((s.setBlk (aes k s.blk)).zeroizeKeys.finish .ok) :=
  congrArg Host.Outcome.next (withKey_key ksel k s _ hkey)

theorem exec_aesDec : exec (.aesDec ksel) s = .next ((s.setBlk (aesInv k s.blk)).zeroizeKeys.finish .ok) :=
  congrArg Host.Outcome.next (withKey_key ksel k s _ hkey)

theorem exec_ctrXor_in (hr : s.rangeOff + s.rangeLen ≤ 256) :
    exec (.ctrXor ksel) s = .next
      ((s.setWbuf s.rangeOff (ctrXor k s.dirArg s.devAddrArg s.fCntArg s.rangeBytes)).zeroizeKeys.finish
        .ok) :=
  congrArg Host.Outcome.next (withKey_onRange_in hkey _ hr)

theorem exec_ctrXor_out (hr : 256 < s.rangeOff + s.rangeLen) :
    exec (.ctrXor ksel) s = .next (s.zeroizeKeys.finish .fail) :=
  congrArg Host.Outcome.next (withKey_onRange_out hkey _ hr)

theorem exec_cmac_in (hr : s.rangeOff + s.rangeLen ≤ 256) :
    exec (.cmac ksel) s = .next ((s.setBlk (cmacTag k s.rangeBytes)).zeroizeKeys.finish .ok) :=
  congrArg Host.Outcome.next (withKey_onRange_in hkey _ hr)

theorem exec_cmac_out (hr : 256 < s.rangeOff + s.rangeLen) :
    exec (.cmac ksel) s = .next (s.zeroizeKeys.finish .fail) :=
  congrArg Host.Outcome.next (withKey_onRange_out hkey _ hr)

theorem exec_micData_in (hr : s.rangeOff + s.rangeLen ≤ 256) :
    exec (.micData ksel) s = .next
      ((s.setRes0 (wordLe (micData k s.dirArg s.devAddrArg s.fCntArg s.rangeBytes))).zeroizeKeys.finish
        .ok) :=
  congrArg Host.Outcome.next (withKey_onRange_in hkey _ hr)

theorem exec_micData_out (hr : 256 < s.rangeOff + s.rangeLen) :
    exec (.micData ksel) s = .next (s.zeroizeKeys.finish .fail) :=
  congrArg Host.Outcome.next (withKey_onRange_out hkey _ hr)

end WithKey

/-- OFF and LEN, written as numbers of ARG0, are the range the commands read (30_encoding.md rule R133). -/
theorem eq_range {s : State} {off len : Nat} (hoff : off = s.args.r0.toNat % 256)
    (hlen : len = s.args.r0.toNat / 256 % 256) : off = s.rangeOff ∧ len = s.rangeLen :=
  ⟨hoff.trans s.rangeOff_eq.symm, hlen.trans s.rangeLen_eq.symm⟩

/-- Settles O26: inside WBUF the range holds its counter-mode image, of the same length, and a write of a byte
string changes no byte outside it; past the end only the keys are cleared. -/
theorem ctrXorCommand : Obligations.CtrXorCommand := by
  obtain ⟨hok, hillegal, hstep⟩ :=
    keyedWords (op := 0x22) (cmd := .ctrXor) (by decide) (by decide) (fun _ _ => rfl) (fun _ => rfl)
  refine ⟨hok, hillegal, hstep, fun s ksel k off len hoff hlen hkey => ?_⟩
  obtain ⟨rfl, rfl⟩ := eq_range hoff hlen
  refine ⟨fun hr => ⟨_, exec_ctrXor_in hkey hr, rfl, ?_, fun a ha => ?_⟩, exec_ctrXor_out hkey⟩
  · have himage : (ctrXor k s.dirArg s.devAddrArg s.fCntArg s.rangeBytes).length = s.rangeLen := by
      simp [State.rangeBytes]
    have hread := s.wbufBytes_setWbuf s.rangeOff _ (himage ▸ hr)
    rwa [himage] at hread
  · exact Memory.read_writeBytes_outside s.mem _ a _ (by simpa [State.rangeBytes] using ha)

/-- Settles O25: BLK is replaced by its image under the selected key. -/
theorem aesBlockCommands : Obligations.AesBlockCommands := by
  obtain ⟨hencOk, hencIllegal, hencStep⟩ :=
    keyedWords (op := 0x20) (cmd := .aesEnc) (by decide) (by decide) (fun _ _ => rfl) (fun _ => rfl)
  obtain ⟨hdecOk, hdecIllegal, hdecStep⟩ :=
    keyedWords (op := 0x21) (cmd := .aesDec) (by decide) (by decide) (fun _ _ => rfl) (fun _ => rfl)
  exact ⟨hencOk, hencIllegal, hdecOk, hdecIllegal, fun s hw hk => hw.elim (hencStep s · hk) (hdecStep s · hk),
    fun _ _ _ hkey => ⟨exec_aesEnc hkey, exec_aesDec hkey⟩⟩

/-- Settles O27: inside WBUF the tag of the range is in BLK; past the end only the keys are cleared. -/
theorem cmacCommand : Obligations.CmacCommand := by
  obtain ⟨hok, hillegal, hstep⟩ :=
    keyedWords (op := 0x23) (cmd := .cmac) (by decide) (by decide) (fun _ _ => rfl) (fun _ => rfl)
  refine ⟨hok, hillegal, hstep, fun s ksel k off len hoff hlen hkey => ?_⟩
  obtain ⟨rfl, rfl⟩ := eq_range hoff hlen
  exact ⟨exec_cmac_in hkey, exec_cmac_out hkey⟩

/-- Settles O28: inside WBUF the word in RES0 has the four MIC bytes as its little-endian string; past the end
only the keys are cleared. -/
theorem micDataCommand : Obligations.MicDataCommand := by
  obtain ⟨hok, hillegal, hstep⟩ :=
    keyedWords (op := 0x24) (cmd := .micData) (by decide) (by decide) (fun _ _ => rfl) (fun _ => rfl)
  refine ⟨hok, hillegal, hstep, fun s ksel k off len hoff hlen hkey => ?_⟩
  obtain ⟨rfl, rfl⟩ := eq_range hoff hlen
  exact ⟨fun hr => ⟨_, exec_micData_in hkey hr, rfl, le_wordLe _ (micData_length _ _ _ _ _)⟩,
    exec_micData_out hkey⟩

/-! ## The keys -/

/-- A command whose key select names a key clears all three keys, whatever its effect (rule R239). -/
theorem withKey_keys {ksel : BitVec 4} (s : State) (e : Block → State × ResultCode)
    (hksel : kselOk ksel = true) : (withKey ksel s e).keys = Keys.zero := by
  have hlt : ksel.toNat < 3 := of_decide_eq_true hksel
  obtain ⟨k, hkey⟩ : ∃ k, (ksel = 0 ∧ k = s.keys.app) ∨ (ksel = 1 ∧ k = s.keys.nwkS) ∨
      (ksel = 2 ∧ k = s.keys.appS) := by
    obtain rfl | rfl | rfl : ksel = 0 ∨ ksel = 1 ∨ ksel = 2 := by bv_omega
    · exact ⟨_, .inl ⟨rfl, rfl⟩⟩
    · exact ⟨_, .inr (.inl ⟨rfl, rfl⟩)⟩
    · exact ⟨_, .inr (.inr ⟨rfl, rfl⟩)⟩
  rw [withKey_key ksel k s e hkey, State.finish_keys, State.zeroizeKeys_keys]

/-- ENCODE clears the keys whether or not it wrote a frame (rule R239). -/
theorem encodeEffect_keys (s : State) : (encodeEffect s).keys = Keys.zero := by
  unfold encodeEffect
  split <;> simp

theorem settingOf_keys (s : State) (f : Selection → Word) (r : Byte) : (settingOf s f r).keys = s.keys := by
  unfold settingOf
  split
  · rfl
  · unfold resolveSetting
    split <;> simp

theorem timeOnAirEffect_keys (s : State) : (timeOnAirEffect s).keys = s.keys := by
  unfold timeOnAirEffect
  split <;> simp

/-- Every well-formed command has a next state, with the keys cleared when it reads them and as they were
otherwise (rule R239). -/
theorem exec_keys (i : Instr) (s : State) (hwf : i.wf = true) :
    ∃ t, exec i s = .next t ∧ t.keys = if i.readsKeys then Keys.zero else s.keys := by
  cases i with
  | encode => exact ⟨_, rfl, encodeEffect_keys s⟩
  | decode => exact ⟨_, rfl, rfl⟩
  | aesEnc ksel | aesDec ksel | ctrXor ksel | cmac ksel | micData ksel =>
    exact ⟨_, rfl, withKey_keys s _ hwf⟩
  | ceTxSetting | ceRx1Setting | ceRx2Setting => exact ⟨_, rfl, settingOf_keys s _ _⟩
  | timeOnAir => exact ⟨_, rfl, timeOnAirEffect_keys s⟩
  | nop | phySize | isUpstream | ceInit | ceAdd _ | ceRemove _ | ceMask _ | ceUnmask _ | ceSetRatePower
  | ceWaitTime | ceRegisterTx | ceCapacity => exact ⟨_, rfl, rfl⟩

/-- Settles O29: command by command, and an illegal word only finishes. -/
theorem keysClearedByKeyReaders : Obligations.KeysClearedByKeyReaders :=
  ⟨exec_keys, fun s hw => ⟨_, engineStep_illegalWord hw, s.finish_keys .illegal⟩⟩

end Sys2Proof.Machine

/-! The channel engine (O30 to O41 and O43; 42_channel_engine.md rules R270 to R293 and R296): the words its
commands decode from, the branches of its internal functions as equations, and what each command leaves. -/

namespace Sys2Proof.Machine

open Sys2Proof

/-- A word of an opcode decodes to the well-formed command the opcode map answers (30_encoding.md rule R135). -/
theorem decode_of_commandWord {op : BitVec 8} {w : Word} {i : Instr} (hw : CommandWord op w)
    (hi : decodeOp op (idxField w) (kselField w) = some i) (hwf : i.wf = true) : decode w = .command i := by
  obtain ⟨rfl, hrsv⟩ := hw
  exact decode_of_decodeOp hrsv hi hwf

/-! ## Recomputing the selection -/

/-- The earliest band with eligible channels, the lowest index on a tie, is the best band (rule R274). -/
theorem ChanEngine.bestBand_eq_some {ce : ChanEngine} {b : Nat} {band : Band} (hb : ce.bands[b]? = some band)
    (hnum : band.num ≠ 0)
    (hmin : ∀ (b' : Nat) (band' : Band), ce.bands[b']? = some band' → band'.num ≠ 0 →
      band.ready ≤ band'.ready ∧ (band'.ready = band.ready → b ≤ b')) : ce.bestBand = some b := by
  cases hbest : ce.bestBand with
  | none => exact absurd (ce.bestBand_none hbest b band hb) hnum
  | some b₁ =>
    obtain ⟨band₁, hb₁, hnum₁, hmin₁⟩ := ce.bestBand_some b₁ hbest
    obtain ⟨hle, htie⟩ := hmin b₁ band₁ hb₁ hnum₁
    obtain ⟨hle₁, htie₁⟩ := hmin₁ b band hb hnum
    have hready : band₁.ready = band.ready := BitVec.le_antisymm hle₁ hle
    exact congrArg some (Nat.le_antisymm (htie₁ hready.symm) (htie hready))

/-- Without a band that has eligible channels there is no best band. -/
theorem ChanEngine.bestBand_eq_none {ce : ChanEngine} (h : ∀ band ∈ ce.bands, band.num = 0) :
    ce.bestBand = none := by
  cases hbest : ce.bestBand with
  | none => rfl
  | some b =>
    obtain ⟨band, hb, hnum, -⟩ := ce.bestBand_some b hbest
    exact absurd (h band (List.mem_of_getElem? hb)) hnum

/-- The first eligible slot from the scan's start on, wrapping, is the next slot (rule R274). -/
theorem ChanEngine.nextSlot_eq_some {ce : ChanEngine} {b k : Nat} (hk : k < ce.nch)
    (he : ce.eligibleAt b ((ce.scanStart b + k) % ce.nch) = true)
    (hfirst : ∀ j, j < k → ce.eligibleAt b ((ce.scanStart b + j) % ce.nch) = false) :
    ce.nextSlot b = some ((ce.scanStart b + k) % ce.nch) := by
  cases hslot : ce.nextSlot b with
  | none =>
    have hnot := ce.nextSlot_none b hslot _ (Nat.mod_lt (ce.scanStart b + k) (Nat.zero_lt_of_lt hk))
    simp [hnot] at he
  | some c =>
    obtain ⟨hc, -, j, -, rfl, hfirst'⟩ := ce.nextSlot_some b c hslot
    obtain hlt | rfl | hgt := Nat.lt_trichotomy j k
    · simp [hfirst j hlt] at hc
    · rfl
    · simp [hfirst' k hgt] at he

/-- Without an eligible slot in the band there is no next slot. -/
theorem ChanEngine.nextSlot_eq_none {ce : ChanEngine} {b : Nat}
    (h : ∀ c, c < ce.nch → ce.eligibleAt b c = false) : ce.nextSlot b = none := by
  cases hslot : ce.nextSlot b with
  | none => rfl
  | some c =>
    obtain ⟨hc, hlt, -⟩ := ce.nextSlot_some b c hslot
    simp [h c hlt] at hc

theorem ChanEngine.cycleChannel_of_bestBand_none {ce : ChanEngine} (hb : ce.bestBand = none) :
    ce.cycleChannel = { ce with sel := none } := by
  simp [ChanEngine.cycleChannel, hb]

theorem ChanEngine.cycleChannel_of_nextSlot_none {ce : ChanEngine} {b : Nat} (hb : ce.bestBand = some b)
    (hslot : ce.nextSlot b = none) : ce.cycleChannel = ce.internalFault := by
  simp [ChanEngine.cycleChannel, hb, hslot]

theorem ChanEngine.cycleChannel_of_nextSlot_some {ce : ChanEngine} {b c : Nat} (hb : ce.bestBand = some b)
    (hslot : ce.nextSlot b = some c) : ce.cycleChannel = ce.choose b c := by
  simp [ChanEngine.cycleChannel, hb, hslot]

/-- A band in the table modified is the band replaced. -/
theorem modify_eq_set {l : List Band} {b : Nat} {band : Band} (h : l[b]? = some band) (f : Band → Band) :
    l.modify b f = l.set b (f band) := by
  simp [List.modify_eq_set_getElem?, h]

/-- Settles O35: the hypotheses name the best band and its next slot, or rule one of them out. -/
theorem cycleChannelPicksEarliestBand : Obligations.CycleChannelPicksEarliestBand := by
  intro ce
  refine ⟨fun h => ChanEngine.cycleChannel_of_bestBand_none (ChanEngine.bestBand_eq_none h),
    fun b start band hb hnum hmin hstart => ?_⟩
  have hbest := ChanEngine.bestBand_eq_some hb hnum hmin
  have hscan : start = ce.scanStart b := by
    simp only [hstart, ChanEngine.scanStart, hb]
    cases band.last <;> rfl
  subst hscan
  refine ⟨fun h => ChanEngine.cycleChannel_of_nextSlot_none hbest (ChanEngine.nextSlot_eq_none h),
    fun k hk he hfirst => ?_⟩
  rw [ChanEngine.cycleChannel_of_nextSlot_some hbest (ChanEngine.nextSlot_eq_some hk he hfirst),
    ChanEngine.choose, modify_eq_set hb]

/-- The selection is recomputed exactly when slot `i` is the selected channel (rules R275 and R277). -/
theorem ChanEngine.reselectIf_eq (ce : ChanEngine) (i : Nat) :
    ce.reselectIf i = if ce.sel.map Selection.chan = some i then ce.cycleChannel else ce := by
  unfold ChanEngine.reselectIf
  cases ce.sel <;> simp

/-! ## CE_REMOVE -/

theorem exec_ceRemove (idx : BitVec 8) (s : State) :
    exec (.ceRemove idx) s = .next ((s.setCe (s.ce.remove idx.toNat)).finish .ok) := rfl

/-- A remove of an absent or out-of-range slot does nothing (rule R275). -/
theorem ChanEngine.remove_of_absent {ce : ChanEngine} {i : Nat}
    (h : ∀ ch, ce.chans[i]? = some ch → ch.freq = 0) : ce.remove i = ce := by
  unfold ChanEngine.remove
  cases hi : ce.chans[i]? with
  | none => rfl
  | some ch => simp [h ch hi]

/-- A remove of a present slot clears it, takes it out of the counts if it was unmasked, and recomputes the
selection if it was the selected channel (rule R275). -/
theorem ChanEngine.remove_of_present {ce : ChanEngine} {i : Nat} {ch : Channel} (hi : ce.chans[i]? = some ch)
    (hf : ch.freq ≠ 0) :
    ce.remove i = ((if ch.masked then ce else ce.countDown ch.band.toNat).setSlot i
      { ch with freq := 0 }).reselectIf i := by
  simp only [ChanEngine.remove, hi, if_neg hf]

/-- A remove does nothing, or it rewrites slot `i`, changes counts, and recomputes the selection if the slot was
the selected channel. -/
theorem ChanEngine.remove_cases (ce : ChanEngine) (i : Nat) :
    ce.remove i = ce ∨
    ∃ base : ChanEngine, ce.remove i = base.reselectIf i ∧ base.sel = ce.sel ∧ base.ifault = ce.ifault ∧
      ∀ ch, base.chans.set i ch = ce.chans.set i ch := by
  by_cases hpresent : ∃ old, ce.chans[i]? = some old ∧ old.freq ≠ 0
  · obtain ⟨old, hi, hf⟩ := hpresent
    refine .inr ⟨_, ChanEngine.remove_of_present hi hf, ?_⟩
    cases old.masked <;> exact ⟨rfl, rfl, fun _ => List.set_set _⟩
  · exact .inl (ChanEngine.remove_of_absent (by simpa using hpresent))

/-- Settles O32: the two cases of a remove. -/
theorem ceRemoveClearsTheSlot : Obligations.CeRemoveClearsTheSlot := by
  refine ⟨fun _ hw => decode_of_commandWord hw rfl rfl, fun s idx => ⟨fun h => ?_, ?_⟩⟩
  · rw [exec_ceRemove, ChanEngine.remove_of_absent h]
    rfl
  · rintro ch base hi hf - rfl
    rw [exec_ceRemove, ChanEngine.remove_of_present hi hf, ChanEngine.reselectIf_eq]
    cases ch.masked <;> rfl

/-! ## CE_MASK -/

theorem exec_ceMask (idx : BitVec 8) (s : State) :
    exec (.ceMask idx) s =
      .next ((s.setCe (s.ce.mask idx.toNat).1).finish (boolResult (s.ce.mask idx.toNat).2)) := rfl

/-- A mask past the table is rejected (rule R277). -/
theorem ChanEngine.mask_past {ce : ChanEngine} {i : Nat} (h : ce.nch ≤ i) : ce.mask i = (ce, false) := by
  have hi : ce.chans[i]? = none := List.getElem?_eq_none h
  simp [ChanEngine.mask, hi]

/-- A mask of an absent or masked slot only sets the flag (rule R277). -/
theorem ChanEngine.mask_flag {ce : ChanEngine} {i : Nat} {ch : Channel} (hi : ce.chans[i]? = some ch)
    (h : ch.freq = 0 ∨ ch.masked = true) : ce.mask i = (ce.setSlot i { ch with masked := true }, true) := by
  have hc : ¬ (ch.freq ≠ 0 ∧ ch.masked = false) := by simpa [or_iff_not_imp_left] using h
  simp only [ChanEngine.mask, hi, if_neg hc]

/-- A mask of a present unmasked slot takes it out of the counts and recomputes the selection if it was the
selected channel (rule R277). -/
theorem ChanEngine.mask_counted {ce : ChanEngine} {i : Nat} {ch : Channel} (hi : ce.chans[i]? = some ch)
    (hf : ch.freq ≠ 0) (hm : ch.masked = false) :
    ce.mask i =
      (((ce.setSlot i { ch with masked := true }).countDown ch.band.toNat).reselectIf i, true) := by
  simp only [ChanEngine.mask, hi, if_pos (And.intro hf hm)]

/-- Settles O33: the three cases of a mask. -/
theorem ceMaskMakesIneligible : Obligations.CeMaskMakesIneligible := by
  refine ⟨fun _ hw => decode_of_commandWord hw rfl rfl, fun s idx => ⟨fun h => ?_, fun ch hi h => ?_, ?_⟩⟩
  · rw [exec_ceMask, ChanEngine.mask_past h]
    rfl
  · rw [exec_ceMask, ChanEngine.mask_flag hi h]
    rfl
  · rintro ch base hi hf hm - rfl
    rw [exec_ceMask, ChanEngine.mask_counted hi hf hm, ChanEngine.reselectIf_eq]
    rfl

/-! ## CE_UNMASK -/

theorem exec_ceUnmask (idx : BitVec 8) (s : State) :
    exec (.ceUnmask idx) s =
      .next ((s.setCe (s.ce.unmask idx.toNat).1).finish (boolResult (s.ce.unmask idx.toNat).2)) := rfl

/-- An unmask past the table is rejected (rule R278). -/
theorem ChanEngine.unmask_past {ce : ChanEngine} {i : Nat} (h : ce.nch ≤ i) : ce.unmask i = (ce, false) := by
  have hi : ce.chans[i]? = none := List.getElem?_eq_none h
  simp [ChanEngine.unmask, hi]

/-- An unmask of an absent or unmasked slot only clears the flag (rule R278). -/
theorem ChanEngine.unmask_flag {ce : ChanEngine} {i : Nat} {ch : Channel} (hi : ce.chans[i]? = some ch)
    (h : ch.freq = 0 ∨ ch.masked = false) :
    ce.unmask i = (ce.setSlot i { ch with masked := false }, true) := by
  have hc : ¬ (ch.freq ≠ 0 ∧ ch.masked = true) := by simpa [or_iff_not_imp_left] using h
  simp only [ChanEngine.unmask, hi, if_neg hc]

/-- An unmask of a present masked slot puts it into the counts and recomputes the selection when the aggregate
count has become 1 (rule R278). -/
theorem ChanEngine.unmask_counted {ce : ChanEngine} {i : Nat} {ch : Channel} (hi : ce.chans[i]? = some ch)
    (hf : ch.freq ≠ 0) (hm : ch.masked = true) :
    ce.unmask i =
      (((ce.setSlot i { ch with masked := false }).countUp ch.band.toNat).selectFirst, true) := by
  simp only [ChanEngine.unmask, hi, if_pos (And.intro hf hm)]

/-- Settles O34: the three cases of an unmask. -/
theorem ceUnmaskMakesEligible : Obligations.CeUnmaskMakesEligible := by
  refine ⟨fun _ hw => decode_of_commandWord hw rfl rfl, fun s idx => ⟨fun h => ?_, fun ch hi h => ?_, ?_⟩⟩
  · rw [exec_ceUnmask, ChanEngine.unmask_past h]
    rfl
  · rw [exec_ceUnmask, ChanEngine.unmask_flag hi h]
    rfl
  · rintro ch base hi hf hm - rfl
    rw [exec_ceUnmask, ChanEngine.unmask_counted hi hf hm]
    rfl

/-! ## A slot made eligible -/

/-- With no eligible slot before, the slot made eligible becomes the selection (rules R276 and R278). -/
theorem ChanEngine.Inv.selectFirst_sel_of_total_zero {ce : ChanEngine} (h : ce.Inv) (htotal : ce.total = 0)
    {i b₀ : Nat} {old new : Channel} (hi : ce.chans[i]? = some old) (ho : ∀ b, old.eligible b = false)
    (hn : ∀ b, new.eligible b = decide (b = b₀)) (hb₀ : b₀ < ce.nband)
    (hb : new.freq ≠ 0 → new.band.toNat < ce.nband) :
    ((ce.setSlot i new).countUp b₀).selectFirst.sel = some ⟨b₀, i⟩ := by
  have hchans : ((ce.setSlot i new).countUp b₀).selectFirst.chans = ce.chans.set i new :=
    (ChanEngine.selectFirst_reselected _).chans
  have hone : ((ce.setSlot i new).countUp b₀).selectFirst.total = 1 := by
    rw [(ChanEngine.selectFirst_reselected _).total]
    simp [ChanEngine.countUp, ChanEngine.setSlot, htotal]
  have hinv := (h.up i old new b₀ hi ho hn hb₀ hb).1
  cases hsel : ((ce.setSlot i new).countUp b₀).selectFirst.sel with
  | none => simp [hinv.sel_none.1 hsel] at hone
  | some sel =>
    obtain ⟨ch, hch, hlive⟩ := (ChanEngine.eligibleAt_iff _ _ _).1 (hinv.sel_live sel hsel)
    rw [hchans] at hch
    have hchan : sel.chan = i := by
      by_contra hne
      rw [List.getElem?_set_ne (Ne.symm hne)] at hch
      have hpos := h.accounted.total_pos ((ce.eligibleAt_iff _ _).2 ⟨ch, hch, hlive⟩)
      simp [htotal] at hpos
    have hnew : ch = new := by
      rw [hchan, List.getElem?_set_self (List.getElem?_eq_some_iff.1 hi).1] at hch
      exact (Option.some.inj hch).symm
    have hband : sel.band = b₀ := by simpa [hnew, hn] using hlive
    rw [← hchan, ← hband]

/-- With a selection before, there was an eligible slot, and one more does not move the selection. -/
theorem ChanEngine.Inv.selectFirst_sel_of_sel {ce : ChanEngine} (h : ce.Inv) {sel : Selection}
    (hsel : ce.sel = some sel) (i b₀ : Nat) (new : Channel) :
    ((ce.setSlot i new).countUp b₀).selectFirst.sel = some sel := by
  have hpos := h.accounted.total_pos (h.sel_live sel hsel)
  have hne : ¬ ((ce.setSlot i new).countUp b₀).total = 1 := by
    intro hone
    change ce.total + 1 = 1 at hone
    bv_omega
  rw [ChanEngine.selectFirst, if_neg hne]
  exact hsel

/-- The slot that `add` writes is eligible in its band and in no other (rule R276). -/
theorem newSlot_eligible {f : Word} {b₀ : Nat} (hf : f ≠ 0) (hb₀ : b₀ < 256) (b : Nat) :
    (newSlot f b₀).eligible b = decide (b = b₀) := by
  rw [Bool.eq_iff_iff, Channel.eligible_iff, decide_eq_true_eq]
  simp only [newSlot, BitVec.toNat_ofNat, Nat.mod_eq_of_lt hb₀]
  exact ⟨fun ⟨_, hb, _⟩ => hb.symm, fun hb => ⟨hf, hb.symm, trivial⟩⟩

/-! ## CE_ADD -/

theorem exec_ceAdd (idx : BitVec 8) (s : State) :
    exec (.ceAdd idx) s =
      .next ((s.setCe (ChanEngine.add s.regionPort s.ce idx.toNat s.args.r0).1).finish
        (boolResult (ChanEngine.add s.regionPort s.ce idx.toNat s.args.r0).2)) := rfl

/-- An add of frequency 0 is a remove (rule R276). -/
theorem ChanEngine.add_zero (p : RegionPort) (ce : ChanEngine) (i : Nat) :
    ChanEngine.add p ce i 0 = (ce.remove i, true) := rfl

/-- An index past the table, a frequency the region rejects and a band past the table are rejected (R276). -/
theorem ChanEngine.add_of_rejected {p : RegionPort} {ce : ChanEngine} {i : Nat} {f : Word} (hf : f ≠ 0)
    (h : ce.nch ≤ i ∨ (p.askValidate ce.region f).accepted = false ∨
      ce.nband ≤ (p.askValidate ce.region f).subBand) : ChanEngine.add p ce i f = (ce, false) := by
  unfold ChanEngine.add
  rw [if_neg hf]
  obtain hi | hv | hv := h
  · exact if_pos hi
  · simp [hv]
  · simp [hv]

/-- Every other add removes what the slot held, writes it, counts it and recomputes the selection when the
aggregate count has become 1 (rule R276). -/
theorem ChanEngine.add_of_accepted {p : RegionPort} {ce : ChanEngine} {i : Nat} {f : Word} (hf : f ≠ 0)
    (hi : i < ce.nch) (hacc : (p.askValidate ce.region f).accepted = true)
    (hband : (p.askValidate ce.region f).subBand < ce.nband) :
    ChanEngine.add p ce i f =
      ((((ce.remove i).setSlot i (newSlot f (p.askValidate ce.region f).subBand)).countUp
        (p.askValidate ce.region f).subBand).selectFirst, true) := by
  unfold ChanEngine.add
  rw [if_neg hf, if_neg (Nat.not_le.2 hi)]
  exact if_neg (by simp [hacc, hband])

/-- A remove changes no slot but its own. -/
theorem ChanEngine.remove_chans_set (ce : ChanEngine) (i : Nat) (ch : Channel) :
    (ce.remove i).chans.set i ch = ce.chans.set i ch := by
  obtain e | ⟨base, e, -, -, hset⟩ := ce.remove_cases i
  · rw [e]
  · rw [e, (base.reselectIf_reselected i).chans, hset]

/-- A remove of a slot that is not the selected channel keeps the selection. -/
theorem ChanEngine.remove_sel {ce : ChanEngine} {i : Nat} (h : ∀ sel, ce.sel = some sel → sel.chan ≠ i) :
    (ce.remove i).sel = ce.sel := by
  obtain e | ⟨base, e, hsel, -⟩ := ce.remove_cases i
  · rw [e]
  · rw [e, ChanEngine.reselectIf_other base i (hsel ▸ h), hsel]

/-- An accepted add to an engine without eligible slots selects the new slot. -/
theorem ChanEngine.Inv.add_sel_of_total_zero {ce : ChanEngine} (h : ce.Inv) (htotal : ce.total = 0)
    {i b₀ : Nat} {f : Word} (hf : f ≠ 0) (hi : i < ce.nch) (hb₀ : b₀ < ce.nband) :
    (((ce.remove i).setSlot i (newSlot f b₀)).countUp b₀).selectFirst.sel = some ⟨b₀, i⟩ := by
  have hnone := h.sel_none.2 htotal
  have hinv := (h.remove i).1
  have hzero : (ce.remove i).total = 0 :=
    hinv.sel_none.1 (by rw [ChanEngine.remove_sel (by simp [hnone]), hnone])
  obtain ⟨old, hold, hfreq⟩ := ce.remove_slot i hi
  have hb : b₀ < (ce.remove i).nband := by rwa [(ce.remove_same i).nband]
  have hb8 : b₀ < 256 := by have := h.sized.nband_le; omega
  refine hinv.selectFirst_sel_of_total_zero hzero hold (old.not_eligible_freq hfreq)
    (newSlot_eligible hf hb8) hb fun _ => ?_
  simpa [newSlot, Nat.mod_eq_of_lt hb8] using hb

/-- Settles O31: the three cases of an add, and where an accepted add leaves the selection. -/
theorem ceAddConfiguresOrRejects : Obligations.CeAddConfiguresOrRejects := by
  refine ⟨fun _ hw => decode_of_commandWord hw rfl rfl, ?_⟩
  rintro s idx v rfl
  refine ⟨fun hzero => ?_, fun hf h => ?_, fun hf hi hacc hband => ?_⟩
  · rw [exec_ceAdd, hzero, ChanEngine.add_zero, exec_ceRemove]
    rfl
  · rw [exec_ceAdd, ChanEngine.add_of_rejected hf h]
    rfl
  · refine ⟨_, _, _, exec_ceRemove idx s, exec_ceAdd idx s, rfl, ?_⟩
    rw [ChanEngine.add_of_accepted hf hi hacc hband]
    refine ⟨rfl, ?_, fun hinv htotal => hinv.channels.add_sel_of_total_zero htotal hf hi hband,
      fun hinv sel hsel hne => ?_⟩
    · exact (ChanEngine.selectFirst_reselected _).chans.trans (s.ce.remove_chans_set idx.toNat _)
    · have hkeep : (s.ce.remove idx.toNat).sel = some sel := by
        rw [ChanEngine.remove_sel (by simpa [hsel] using hne), hsel]
      rw [hsel]
      exact (hinv.channels.remove _).1.selectFirst_sel_of_sel hkeep _ _ _

/-! ## CE_INIT -/

/-- Recomputing the selection does not clear IFAULT (rule R279). -/
theorem ChanEngine.cycleChannel_ifault {ce : ChanEngine} (h : ce.ifault = true) :
    ce.cycleChannel.ifault = true := by
  obtain ⟨-, e⟩ | ⟨b, c, -, -, e⟩ | ⟨b, -, -, e⟩ := ce.cycleChannel_cases <;> rw [e]
  · exact h
  · exact h
  · rfl

theorem ChanEngine.remove_ifault {ce : ChanEngine} (i : Nat) (h : ce.ifault = true) :
    (ce.remove i).ifault = true := by
  obtain e | ⟨base, e, -, hbase, -⟩ := ce.remove_cases i
  · rwa [e]
  · rw [← hbase] at h
    rw [e, ChanEngine.reselectIf_eq]
    split
    · exact ChanEngine.cycleChannel_ifault h
    · exact h

theorem ChanEngine.selectFirst_ifault {ce : ChanEngine} (h : ce.ifault = true) :
    ce.selectFirst.ifault = true := by
  unfold ChanEngine.selectFirst
  split
  · exact ChanEngine.cycleChannel_ifault h
  · exact h

theorem ChanEngine.add_ifault (p : RegionPort) {ce : ChanEngine} (i : Nat) (f : Word) (h : ce.ifault = true) :
    (ChanEngine.add p ce i f).1.ifault = true := by
  unfold ChanEngine.add
  split
  · exact ChanEngine.remove_ifault i h
  · split
    · exact h
    · dsimp only
      split
      · exact h
      · exact ChanEngine.selectFirst_ifault (ChanEngine.remove_ifault i h)

/-- Adding a list of channels does not clear IFAULT (rule R280). -/
theorem ChanEngine.addAll_ifault (p : RegionPort) {ce : ChanEngine} (l : ChannelList) (h : ce.ifault = true) :
    (ChanEngine.addAll p ce l).ifault = true := by
  induction l generalizing ce with
  | nil => exact h
  | cons entry rest ih => exact ih (ChanEngine.add_ifault p entry.1 entry.2 h)

theorem exec_ceInit (s : State) :
    exec .ceInit s = .next ((s.setCe (ChanEngine.initFor s.regionPort s.ce s.args.r0)).finish .ok) := rfl

/-- Settles O30: CE_INIT's fold is `addAll` from the emptied tables, and each add keeps the capacities and the
region and does not clear IFAULT. -/
theorem ceInitBuildsTheRegion : Obligations.CeInitBuildsTheRegion := by
  refine ⟨fun _ hw => decode_of_commandWord hw rfl rfl, fun s idx => ⟨_, exec_ceAdd idx s, rfl⟩,
    ChanEngine.add_past, ?_⟩
  rintro s d ce rfl hce
  obtain rfl : ce = ChanEngine.addAll s.regionPort (s.ce.emptyFor s.args.r0)
      (s.regionPort.askDefaultChannels s.args.r0) := by rw [hce, ChanEngine.addAll_eq_foldl]; rfl
  obtain ⟨hnch, hnband⟩ := s.ce.initFor_size s.regionPort s.args.r0
  have hsame := ChanEngine.addAll_same s.regionPort (s.ce.emptyFor s.args.r0)
    (s.regionPort.askDefaultChannels s.args.r0)
  exact ⟨exec_ceInit s, hnch, hnband, hsame.region, fun h => ChanEngine.addAll_ifault s.regionPort _ h⟩

/-! ## CE_SET_RATE_POWER, CE_WAIT_TIME and CE_CAPACITY -/

/-- Settles O36: the low bytes of ARG0 and ARG1 are stored as they are. -/
theorem setRatePowerStoresAnyValue : Obligations.SetRatePowerStoresAnyValue :=
  ⟨fun _ hw => decode_of_commandWord hw rfl rfl,
    fun s => ⟨_, rfl, rfl, s.rateArg_toNat, s.powerArg_toNat⟩⟩

/-- A 64-bit value as a number of its two words. -/
theorem toNat_two_words (v : BitVec 64) :
    2 ^ 32 * (v.extractLsb' 32 32).toNat + (v.extractLsb' 0 32).toNat = v.toNat := by
  have hv := v.isLt
  simp only [toNat_field]
  omega

theorem ChanEngine.waitTime_of_none {ce : ChanEngine} (h : ce.sel = none) (now : Time) :
    ce.waitTime now = 0 := by
  simp [ChanEngine.waitTime, h]

theorem ChanEngine.readyOf_of_band {ce : ChanEngine} {b : Nat} {band : Band} (h : ce.bands[b]? = some band) :
    ce.readyOf b = band.ready := by
  simp [ChanEngine.readyOf, h]

/-- The wait time is the truncated difference of the ready-time and now (rule R286). -/
theorem ChanEngine.waitTime_toNat {ce : ChanEngine} {sel : Selection} (h : ce.sel = some sel) (now : Time) :
    (ce.waitTime now).toNat = (ce.readyOf sel.band).toNat - now.toNat := by
  simp only [ChanEngine.waitTime, h]
  split <;> bv_omega

/-- CE_WAIT_TIME completes with OK and the wait time in RES1 and RES0 (rule R286). -/
theorem exec_ceWaitTime (s : State) :
    exec .ceWaitTime s =
      .next (((s.setRes0 ((s.ce.waitTime s.nowArg).extractLsb' 0 32)).setRes1
        ((s.ce.waitTime s.nowArg).extractLsb' 32 32)).finish .ok) := rfl

/-- Settles O37: the two words in RES1 and RES0 are the wait time. -/
theorem waitTimeIsTimeLeft : Obligations.WaitTimeIsTimeLeft := by
  refine ⟨fun _ hw => decode_of_commandWord hw rfl rfl, fun s now hnow => ?_⟩
  rw [← s.nowArg_toNat] at hnow
  refine ⟨_, (s.ce.waitTime s.nowArg).toNat, exec_ceWaitTime s, rfl, toNat_two_words _, fun hsel => ?_,
    fun sel band hsel hband => ?_⟩
  · rw [ChanEngine.waitTime_of_none hsel]
    rfl
  · rw [ChanEngine.waitTime_toNat hsel, ChanEngine.readyOf_of_band hband, hnow]

/-- CE_CAPACITY completes with OK and P_NCH in RES0 (rule R292). -/
theorem exec_ceCapacity (s : State) :
    exec .ceCapacity s = .next ((s.setRes0 (BitVec.ofNat 32 s.ce.nch)).finish .ok) := rfl

/-- Settles O40: a legal P_NCH fits RES0 and the low byte of CFG. -/
theorem capacityAnswersPnch : Obligations.CapacityAnswersPnch := by
  refine ⟨fun _ hw => decode_of_commandWord hw rfl rfl, fun s hsized => ⟨_, exec_ceCapacity s, rfl, ?_⟩⟩
  have hnch := hsized.nch_le
  have hres : (BitVec.ofNat 32 s.ce.nch).toNat = s.ce.nch := by
    rw [BitVec.toNat_ofNat]
    omega
  simp only [State.finish_ress, State.setRes0_ress, s.readReg_cfg_toNat hsized, hres]
  exact ⟨rfl, by omega⟩

/-! ## The settings commands -/

/-- A settings command with nothing selected, or whose rate has no parameters, only fails (rules R287 to
R290). -/
theorem settingOf_of_none {s : State} {r : Byte} (f : Selection → Word)
    (h : s.ce.sel = none ∨ s.regionPort.askRateParams s.ce.region r = none) :
    settingOf s f r = s.finish .fail := by
  unfold settingOf
  cases hsel : s.ce.sel with
  | none => rfl
  | some sel =>
    have hr : s.regionPort.askRateParams s.ce.region r = none := by simpa [hsel] using h
    simp [resolveSetting, hr]

/-- A settings command whose rate has parameters answers the frequency and the codes (rules R287 to R290). -/
theorem settingOf_of_some {s : State} {r : Byte} (f : Selection → Word) {sel : Selection} {c : RateCodes}
    (hsel : s.ce.sel = some sel) (hr : s.regionPort.askRateParams s.ce.region r = some c) :
    settingOf s f r = ((s.setRes0 (f sel)).setRes1 (settingWord c)).finish .ok := by
  simp [settingOf, hsel, resolveSetting, hr]

theorem sfOk_iff (sf : Nat) : sfOk sf = true ↔ sf = 0 ∨ (6 ≤ sf ∧ sf ≤ 12) := by
  simp [sfOk]

theorem bwOk_iff (bw : Nat) : bwOk bw = true ↔ bw ≤ 3 := by
  simp [bwOk]

/-- The parameters a rate has are codes of rule R271. -/
theorem RegionPort.askRateParams_codes {p : RegionPort} {region : Word} {rate : Byte} {c : RateCodes}
    (h : p.askRateParams region rate = some c) : (c.sf = 0 ∨ (6 ≤ c.sf ∧ c.sf ≤ 12)) ∧ c.bw ≤ 3 := by
  have hok : c.ok = true := (Option.filter_eq_some_iff.1 h).2
  rwa [RateCodes.ok, Bool.and_eq_true, sfOk_iff, bwOk_iff] at hok

/-- The three codes of a radio setting lie in bytes of their own (rule R287). -/
theorem settingWord_toNat {c : RateCodes} (hsf : c.sf < 256) (hbw : c.bw < 256) :
    (settingWord c).toNat = c.sf + 256 * c.bw + 65536 := by
  have hcodes := Nat.two_pow_add_eq_or_of_lt (i := 8) hsf c.bw
  have hcr := Nat.two_pow_add_eq_or_of_lt (i := 16) (b := 2 ^ 8 * c.bw + c.sf) (by omega) 1
  have hshift : c.bw <<< 8 % 2 ^ 32 = 2 ^ 8 * c.bw := by
    rw [Nat.shiftLeft_eq]
    omega
  simp only [settingWord, BitVec.toNat_or, BitVec.toNat_shiftLeft, BitVec.toNat_ofNat]
  rw [Nat.mod_eq_of_lt (a := c.sf) (by omega), Nat.mod_eq_of_lt (a := c.bw) (by omega), hshift,
    Nat.or_comm c.sf, ← hcodes, Nat.or_comm]
  change 2 ^ 16 * 1 ||| _ = _
  rw [← hcr]
  omega

/-- The frequency a settings command answers: the RX2 frequency, or the selected channel's (rules R288 to
R290). -/
def ChanEngine.settingFreq (ce : ChanEngine) (i : Instr) (sel : Selection) : Word :=
  if i = .ceRx2Setting then ce.rx2Freq else ce.freqOf sel.chan

/-- Each of the three settings commands resolves its frequency at the rate index given. -/
theorem exec_setting {i : Instr} {s : State} {r : Byte}
    (h : (i = .ceTxSetting ∧ r = s.ce.rate) ∨
      (i = .ceRx1Setting ∧ r = s.regionPort.askRx1Rate s.ce.region s.ce.rate s.ce.rx1Offset) ∨
      (i = .ceRx2Setting ∧ r = s.ce.rx2Rate)) :
    exec i s = .next (settingOf s (s.ce.settingFreq i) r) := by
  obtain ⟨rfl, rfl⟩ | ⟨rfl, rfl⟩ | ⟨rfl, rfl⟩ := h <;> rfl

theorem ChanEngine.freqOf_of_slot {ce : ChanEngine} {c : Nat} {ch : Channel} (h : ce.chans[c]? = some ch) :
    ce.freqOf c = ch.freq := by
  simp [ChanEngine.freqOf, h]

/-- Settles O38: the two cases of a settings command, and the codes of its rate in their bytes of RES1. -/
theorem settingsCommandsAnswerRadioSetting : Obligations.SettingsCommandsAnswerRadioSetting := by
  refine ⟨fun _ hw => decode_of_commandWord hw rfl rfl, fun _ hw => decode_of_commandWord hw rfl rfl,
    fun _ hw => decode_of_commandWord hw rfl rfl,
    fun i s r hcmd => ⟨fun h => ?_, fun sel ch c hsel hch hr => ?_⟩⟩
  · rw [exec_setting hcmd, settingOf_of_none _ h]
    rfl
  · obtain ⟨hsf, hbw⟩ := RegionPort.askRateParams_codes hr
    have hword : (settingWord c).toNat = c.sf + 256 * c.bw + 65536 :=
      settingWord_toNat (by omega) (by omega)
    refine ⟨_, by rw [exec_setting hcmd, settingOf_of_some _ hsel hr], ?_, hword, hsf, hbw⟩
    rw [← ChanEngine.freqOf_of_slot hch]
    rfl

/-! ## Every channel masked -/

/-- With every present channel masked no slot is eligible. -/
theorem ChanEngine.eligibleAt_of_masked {ce : ChanEngine}
    (h : ∀ (i : Nat) (ch : Channel), ce.chans[i]? = some ch → ch.freq ≠ 0 → ch.masked = true) (b c : Nat) :
    ce.eligibleAt b c = false := by
  rw [Bool.eq_false_iff]
  intro he
  obtain ⟨ch, hch, hlive⟩ := (ce.eligibleAt_iff b c).1 he
  obtain ⟨hf, -, hm⟩ := (ch.eligible_iff b).1 hlive
  simp [h c ch hch hf] at hm

/-- An unmasked channel of a band is eligible in it and in no other. -/
theorem Channel.eligible_unmask {ch : Channel} (hf : ch.freq ≠ 0) (b : Nat) :
    ({ ch with masked := false } : Channel).eligible b = decide (b = ch.band.toNat) := by
  rw [Bool.eq_iff_iff, Channel.eligible_iff, decide_eq_true_eq]
  exact ⟨fun ⟨_, hb, _⟩ => hb.symm, fun hb => ⟨hf, hb.symm, rfl⟩⟩

/-- Settles O43: with every channel masked nothing is selected, and the first slot unmasked is selected. -/
theorem exhaustionAndRecovery : Obligations.ExhaustionAndRecovery := by
  intro s hinv hmasked
  have hce := hinv.channels
  have hsel : s.ce.sel = none := by
    cases hs : s.ce.sel with
    | none => rfl
    | some sel => simpa [ChanEngine.eligibleAt_of_masked hmasked] using hce.sel_live sel hs
  refine ⟨?_, fun idx ch hch hf => ⟨_, exec_ceUnmask idx s, ?_⟩⟩
  · rw [exec_setting (.inl ⟨rfl, rfl⟩), settingOf_of_none _ (.inl hsel)]
    rfl
  · have hm := hmasked _ ch hch hf
    have hband := hce.assigned _ ch hch hf
    rw [ChanEngine.unmask_counted hch hf hm]
    exact ⟨rfl, hce.selectFirst_sel_of_total_zero (hce.sel_none.1 hsel) hch (ch.not_eligible_masked hm)
      (Channel.eligible_unmask hf) hband fun _ => hband⟩

/-! ## CE_REGISTER_TX -/

/-- CE_REGISTER_TX completes with OK and the transmission registered (rule R291). -/
theorem exec_ceRegisterTx (s : State) :
    exec .ceRegisterTx s =
      .next ((s.setCe (ChanEngine.registerTx s.regionPort s.ce s.nowArg s.txLen)).finish .ok) := rfl

theorem ChanEngine.registerTx_of_none (p : RegionPort) {ce : ChanEngine} (h : ce.sel = none) (now : Time)
    (len : Nat) : ChanEngine.registerTx p ce now len = ce := by
  simp [ChanEngine.registerTx, h]

/-- A transmission sets the selected band's ready-time and recomputes the selection (rule R291). -/
theorem ChanEngine.registerTx_of_some (p : RegionPort) {ce : ChanEngine} {sel : Selection}
    (h : ce.sel = some sel) (now : Time) (len : Nat) :
    ChanEngine.registerTx p ce now len =
      (ce.setReady sel.band (readyAfter now (txAirtime p ce.region ce.rate len)
        (p.askOffTime ce.region sel.band))).cycleChannel := by
  simp [ChanEngine.registerTx, h]

/-- A ready-time is read from the column of ready-times. -/
theorem ChanEngine.readyOf_eq (ce : ChanEngine) (b : Nat) :
    ce.readyOf b = ((ce.bands.map Band.ready)[b]?).getD 0 := by
  unfold ChanEngine.readyOf
  cases h : ce.bands[b]? <;> simp [h]

/-- Recomputing the selection keeps every ready-time. -/
theorem ChanEngine.Reselected.readyOf {ce ce' : ChanEngine} (h : ChanEngine.Reselected ce ce') (b : Nat) :
    ce'.readyOf b = ce.readyOf b := by
  rw [ce'.readyOf_eq, ce.readyOf_eq, h.ready]

theorem ChanEngine.readyOf_setReady_same {ce : ChanEngine} {b : Nat} {band : Band}
    (h : ce.bands[b]? = some band) (r : Time) : (ce.setReady b r).readyOf b = r := by
  simp [ChanEngine.readyOf, ChanEngine.setReady, h]

theorem ChanEngine.readyOf_setReady_other (ce : ChanEngine) {b b' : Nat} (h : b' ≠ b) (r : Time) :
    (ce.setReady b r).readyOf b' = ce.readyOf b' := by
  simp [ChanEngine.readyOf, ChanEngine.setReady, h.symm]

theorem ChanEngine.setReady_num (ce : ChanEngine) (b : Nat) (r : Time) :
    (ce.setReady b r).bands.map Band.num = ce.bands.map Band.num :=
  map_modify_same Band.num (fun band => { band with ready := r }) (fun _ => rfl) ce.bands b

/-- Settles O39: the ready-time set is the only one that changes, and the recomputation keeps them all. -/
theorem registerTxAdvancesTheGate : Obligations.RegisterTxAdvancesTheGate := by
  refine ⟨fun _ hw => decode_of_commandWord hw rfl rfl, fun s now len air hnow hlen hair =>
    ⟨fun hsel => ?_, fun sel band hsel hband => ⟨_, exec_ceRegisterTx s, rfl, ?_⟩⟩⟩
  · rw [exec_ceRegisterTx, ChanEngine.registerTx_of_none _ hsel]
    rfl
  · rw [← s.nowArg_toNat] at hnow
    rw [← s.txLen_eq] at hlen
    have hair' : air = txAirtime s.regionPort s.ce.region s.ce.rate s.txLen := by
      rw [hair, hlen]
      rfl
    have hready : readyAfter s.nowArg air (s.regionPort.askOffTime s.ce.region sel.band) =
        BitVec.ofNat 64 (now + air * (s.regionPort.askOffTime s.ce.region sel.band).toNat) := by
      rw [hnow]
      rfl
    simp only [State.finish_ce, State.setCe_ce]
    rw [ChanEngine.registerTx_of_some _ hsel, ← hair', hready]
    generalize BitVec.ofNat 64 (now + air * (s.regionPort.askOffTime s.ce.region sel.band).toNat) = ready
    have hkeep := (s.ce.setReady sel.band ready).cycleChannel_reselected
    have hset := (hkeep.readyOf sel.band).trans (ChanEngine.readyOf_setReady_same hband ready)
    refine ⟨hset, fun b hb => ?_, hkeep.chans, hkeep.total, ?_, ?_⟩
    · rw [hkeep.readyOf, ChanEngine.readyOf_setReady_other _ hb]
    · exact hkeep.num.trans (s.ce.setReady_num sel.band ready)
    · rw [hset, ← modify_eq_set hband fun band => { band with ready := ready }]
      rfl

/-! ## TIME_ON_AIR -/

/-- A quotient rounded up is at most a bound of its dividend. -/
theorem ceilDiv_le {n d m : Int} (hn : n ≤ m) (hm : 0 ≤ m) (hd : 1 ≤ d) : ceilDiv n d ≤ m := by
  have h : -m ≤ -n / d := (Int.le_ediv_iff_mul_le (by omega)).2 (by nlinarith)
  simp only [ceilDiv]
  omega

theorem symbolTime_le {sf : Nat} (bw : Nat) (hsf : sf ≤ 12) : symbolTime sf bw ≤ 32768 := by
  have hpow : 2 ^ sf ≤ 2 ^ 12 := Nat.pow_le_pow_right (by omega) hsf
  have hbw : 125000 ≤ bwHz bw := by
    unfold bwHz
    split <;> omega
  unfold symbolTime
  refine Nat.div_le_of_le_mul ?_
  nlinarith

/-- A coarse bound of the symbol count, from the dividend alone. -/
theorem payloadSymbols_le {sf len : Nat} (bw : Nat) (hsf : 6 ≤ sf) (hlen : len < 256) :
    payloadSymbols sf bw len ≤ 10408 := by
  have hopt : lowDataRate sf bw ≤ 1 := by
    unfold lowDataRate
    split <;> omega
  have h := ceilDiv_le (n := 8 * len - 4 * sf + 28 + 16 - 20 * headerOn sf)
    (d := 4 * (sf - 2 * lowDataRate sf bw)) (m := 2080) (by omega) (by omega) (by omega)
  unfold payloadSymbols
  omega

/-- Every airtime fits RES0 (rule R273). -/
theorem airtime_lt {sf bw len : Nat} (hsf : sf = 0 ∨ (6 ≤ sf ∧ sf ≤ 12)) (hlen : len < 256) :
    airtime sf bw len < 2 ^ 32 := by
  unfold airtime
  split
  · decide
  · have hbounds : 6 ≤ sf ∧ sf ≤ 12 := by omega
    have htime := symbolTime_le bw hbounds.2
    have hsymbols : (payloadSymbols sf bw len).toNat ≤ 10408 := by
      have := payloadSymbols_le bw hbounds.1 hlen
      omega
    have := Nat.mul_le_mul hsymbols htime
    omega

/-- TIME_ON_AIR for codes of rule R271 completes with OK and the airtime in RES0 (rule R293). -/
theorem exec_timeOnAir_ok {s : State} (h : (s.sfArg = 0 ∨ (6 ≤ s.sfArg ∧ s.sfArg ≤ 12)) ∧ s.bwArg ≤ 3) :
    exec .timeOnAir s =
      .next ((s.setRes0 (BitVec.ofNat 32 (airtime s.sfArg s.bwArg s.airLen))).finish .ok) := by
  rw [← sfOk_iff, ← bwOk_iff, ← Bool.and_eq_true] at h
  exact congrArg Host.Outcome.next (if_pos h)

/-- TIME_ON_AIR for any other code only fails (rule R293). -/
theorem exec_timeOnAir_fail {s : State}
    (h : ¬ ((s.sfArg = 0 ∨ (6 ≤ s.sfArg ∧ s.sfArg ≤ 12)) ∧ s.bwArg ≤ 3)) :
    exec .timeOnAir s = .next (s.finish .fail) := by
  rw [← sfOk_iff, ← bwOk_iff, ← Bool.and_eq_true] at h
  exact congrArg Host.Outcome.next (if_neg h)

/-- Settles O41: the codes are checked as rule R271 lists them, and the airtime fits RES0. -/
theorem timeOnAirAnswersAirtime : Obligations.TimeOnAirAnswersAirtime := by
  refine ⟨fun _ hw => decode_of_commandWord hw rfl rfl, fun s sf bw len hsf hbw hlen => ?_⟩
  rw [← s.sfArg_eq] at hsf
  rw [← s.bwArg_eq] at hbw
  rw [← s.airLen_eq] at hlen
  subst hsf hbw hlen
  refine ⟨fun h => ⟨_, exec_timeOnAir_ok h, rfl, ?_⟩, exec_timeOnAir_fail⟩
  have hlt : airtime s.sfArg s.bwArg s.airLen < 2 ^ 32 := airtime_lt h.1 (byteAt_lt s.args.r1 0)
  exact Nat.mod_eq_of_lt hlt

end Sys2Proof.Machine

/-! NOP and two host writes (O9, O53 and O55; 43_system.md rules R340, R341, R343 and R345): what the command
does, what a host write does with and without a command pending, and what a soft reset leaves. -/

namespace Sys2Proof.Machine

open Sys2Proof

/-! ## NOP -/

/-- NOP is `finish(OK)` and nothing else (rule R340). -/
theorem exec_nop (s : State) : exec .nop s = .next (s.finish .ok) := rfl

/-- Settles O9: the opcode map answers NOP for 0x00, reserved bits are refused first, and `finish` writes
RESULT, BUSY and DONE only. -/
theorem nopOnlyCompletes : Obligations.NopOnlyCompletes :=
  ⟨fun _ hw => decode_of_commandWord hw rfl rfl, decode_reservedBits (by decide), exec_nop⟩

/-! ## A write with and without a command pending -/

/-- With no command pending a write of CMD issues the command (rules R341 and R343). -/
theorem State.hostStore_cmd_of_idle {s : State} (hidle : s.busy = false) (v : Word) :
    s.hostStore .cmd v = s.issue v := by
  simp [State.hostStore, State.writeReg, Reg.writable, hidle]

/-- With a command pending a write of a writable location is dropped and recorded in ERR_BUSY (rule R341). -/
theorem State.hostStore_of_pending {s : State} {r : Reg} (hbusy : s.busy = true) (hr : r.writable = true)
    (v : Word) : s.hostStore r v = { s with errBusy := true } := by
  obtain ⟨rfl, -⟩ | ⟨rfl, -⟩ | ⟨-, -, h⟩ | ⟨-, hidle, -⟩ | ⟨hro, -⟩ := hostStore_cases s r v
  · cases hr
  · cases hr
  · exact h
  · cases hbusy.symm.trans hidle
  · cases hr.symm.trans hro

/-- A write of a location that is not writable does nothing; CTRL and STATUS are always performed (rule
R341). -/
theorem State.hostStore_of_readOnly {s : State} {r : Reg} (hro : r.writable = false) (hctrl : r ≠ .ctrl)
    (hstatus : r ≠ .status) (v : Word) : s.hostStore r v = s := by
  obtain ⟨h, -⟩ | ⟨h, -⟩ | ⟨hr, -⟩ | ⟨hr, -⟩ | ⟨-, h⟩ := hostStore_cases s r v
  · exact absurd h hctrl
  · exact absurd h hstatus
  · cases hr.symm.trans hro
  · cases hr.symm.trans hro
  · exact h

/-- A write of a reserved offset does nothing (10_state.md rule R64). -/
theorem State.writeAt_reserved {s : State} {o : Nat} (h : regAt s.ce.nch s.ce.nband o = none) (v : Word) :
    s.writeAt o v = s := by
  simp [State.writeAt, h]

/-- A reserved offset reads 0 (10_state.md rule R64). -/
theorem State.readAt_reserved {s : State} {o : Nat} (h : regAt s.ce.nch s.ce.nband o = none) :
    s.readAt o = 0 := by
  simp [State.readAt, h]

/-- Settles O53: each clause is one branch of the host write of rule R341. -/
theorem cmdWriteIssuesPendingWritesDrop : Obligations.CmdWriteIssuesPendingWritesDrop := fun _ _ v _ =>
  ⟨fun hidle => State.hostStore_cmd_of_idle hidle v,
    fun hbusy hr => State.hostStore_of_pending hbusy hr v,
    fun hro hctrl hstatus => State.hostStore_of_readOnly hro hctrl hstatus v,
    fun h => ⟨State.writeAt_reserved h v, State.readAt_reserved h⟩⟩

/-! ## The soft reset -/

/-- A write of CTRL with bit 1 set is a soft reset, pending command or not (rules R341 and R345). -/
theorem State.hostStore_ctrl_softReset {v : Word} (hv : v.getLsbD 1 = true) (s : State) :
    s.hostStore .ctrl v = s.softReset :=
  if_pos hv

/-- After a soft reset STATUS is 0: no command pending, no DONE, no ERR_BUSY and no IFAULT. -/
@[simp] theorem State.softReset_statusWord (s : State) : s.softReset.statusWord = 0 := by
  simp [State.statusWord, ChanEngine.empty, flagBit]

/-- CFG shows the parameters, which a soft reset keeps (10_state.md rule R32). -/
@[simp] theorem State.softReset_readReg_cfg (s : State) : s.softReset.readReg .cfg = s.readReg .cfg := by
  simp [State.readReg_cfg]

theorem ChanEngine.eq_empty_of_mem_chans {nch nband : Nat} {ch : Channel}
    (h : ch ∈ (ChanEngine.empty nch nband).chans) : ch = Channel.empty :=
  List.eq_of_mem_replicate h

theorem ChanEngine.eq_empty_of_mem_bands {nch nband : Nat} {band : Band}
    (h : band ∈ (ChanEngine.empty nch nband).bands) : band = Band.empty :=
  List.eq_of_mem_replicate h

/-- Settles O55: the write is a soft reset, which keeps the parameters, the buffers and the host and takes
every other field from the reset state. -/
theorem softResetKeepsOnlyTheBuffers : Obligations.SoftResetKeepsOnlyTheBuffers := by
  rintro s t v hv rfl
  rw [State.hostStore_ctrl_softReset hv]
  have hnch : s.softReset.ce.nch = s.ce.nch := by simp
  have hnband : s.softReset.ce.nband = s.ce.nband := by simp
  exact ⟨s.softReset_mem, s.softReset_host, s.softReset_regionPort, rfl, s.softReset_readReg_cfg,
    s.softReset_ie, s.softReset_statusWord, s.softReset_cmd, s.softReset_result, s.softReset_args,
    s.softReset_ress, s.softReset_fd, s.softReset_keys, s.softReset_blk, hnch, hnband,
    fun _ => ChanEngine.eq_empty_of_mem_chans, fun _ => ChanEngine.eq_empty_of_mem_bands,
    rfl, rfl, rfl, rfl, rfl, rfl, rfl, rfl⟩

end Sys2Proof.Machine

/-! DECODE and the interrupt (O14 and O59; 40_frame_codec.md rule R171, 60_exceptions.md rules R363 and R369):
what the parse of a well-formed frame answers, IRQ after every command, and what a write of CTRL and of STATUS
does to IE and IRQ. -/

namespace Sys2Proof.Machine

open Sys2Proof

/-! ## DECODE -/

/-- Deciphering a payload in place writes the buffers only. -/
theorem decipherPayload_eq (ty : BitVec 3) (len : Nat) (s : State) :
    decipherPayload ty len s = { s with mem := (decipherPayload ty len s).mem } := by
  unfold decipherPayload
  split <;> rfl

/-- A data frame long enough for its options is deciphered, and its descriptor written (rule R171). -/
theorem decData_of_le {len : Nat} {s : State} (h : 12 + s.wireOptsLen ≤ len) (ty : BitVec 3) :
    decData ty len s =
      ({ s with fd := dataFields ty len s, mem := (decipherPayload ty len s).mem },
        micResult (dataMicOk ty len s)) := by
  rw [decData, if_neg (by omega), if_neg (by omega), decipherPayload_eq]
  rfl

/-- The parse of a well-formed frame writes the descriptor and the buffers only, and the MIC alone decides its
result code (rule R171). -/
theorem decodeFrame_wellFormed {s : State} (h : ¬ BadFrame s) :
    ∃ fd mem ok, decodeFrame s.frameLen s = ({ s with fd := fd, mem := mem }, micResult ok) := by
  obtain ht | ht | ht : s.wireType = 0 ∨ s.wireType = 1 ∨ 2 ≤ s.wireType.toNat := by bv_omega
  · obtain ⟨hlen, hparse⟩ := decodeFrame_joinRequest s h ht
    exact ⟨_, _, _, hparse.trans (if_pos hlen)⟩
  · obtain ⟨hlen, hparse⟩ := decodeFrame_joinAccept s h ht
    exact ⟨_, _, _, hparse.trans (if_pos hlen)⟩
  · obtain ⟨hlen, hparse⟩ := decodeFrame_data s h ht
    exact ⟨_, _, _, hparse.trans (decData_of_le hlen s.wireType)⟩

/-- DECODE of a malformed frame clears the keys and completes with BAD, and does nothing else (rule R363). -/
theorem exec_decode_bad {s : State} (h : BadFrame s) :
    exec .decode s = .next (s.zeroizeKeys.finish .bad) :=
  exec_decode s s .bad (decodeFrame_bad s h)

/-- DECODE of a well-formed frame clears the keys and completes with the MIC's result, and writes nothing else
but the descriptor and the buffers (rules R171 and R364). -/
theorem exec_decode_wellFormed {s : State} (h : ¬ BadFrame s) :
    ∃ fd mem ok, exec .decode s =
      .next (({ s with fd := fd, mem := mem } : State).zeroizeKeys.finish (micResult ok)) := by
  obtain ⟨fd, mem, ok, hparse⟩ := decodeFrame_wellFormed h
  exact ⟨fd, mem, ok, exec_decode s _ _ hparse⟩

theorem micResult_eq_ok_or_mic (ok : Bool) : micResult ok = .ok ∨ micResult ok = .mic := by
  cases ok
  · exact .inr rfl
  · exact .inl rfl

/-- Settles O14: the parse refuses a malformed frame before it writes anything, and leaves the result of any
other to the MIC. -/
theorem decodeBadExactlyForMalformed : Obligations.DecodeBadExactlyForMalformed := by
  refine ⟨fun _ hw => decode_of_commandWord hw rfl rfl, fun s => ⟨exec_decode_bad, fun h => ?_⟩⟩
  obtain ⟨_, _, ok, hexec⟩ := exec_decode_wellFormed h
  exact ⟨_, hexec, micResult_eq_ok_or_mic ok⟩

/-! ## IRQ after a command -/

/-- A command that ends raises DONE, so IRQ follows IE (rules R360 and R369). -/
@[simp] theorem State.finish_irq (s : State) (c : ResultCode) : (s.finish c).irq = s.ie := rfl

theorem onRange_ie (s t : State) (ht : t.ie = s.ie) : (onRange s t).1.ie = s.ie := by
  unfold onRange
  split
  · rfl
  · exact ht

/-- A key command ends with IRQ as IE when its effect keeps IE, whatever the key. -/
theorem withKey_irq (ksel : BitVec 4) (s : State) (e : Block → State × ResultCode)
    (he : ∀ k, (e k).1.ie = s.ie) : (withKey ksel s e).irq = s.ie := by
  unfold withKey
  split
  · rfl
  · exact he _

theorem encodeEffect_irq (s : State) : (encodeEffect s).irq = s.ie := by
  unfold encodeEffect
  split <;> rfl

theorem exec_decode_irq {s t : State} (h : exec .decode s = .next t) : t.irq = s.ie := by
  by_cases hbad : BadFrame s
  · cases h.symm.trans (exec_decode_bad hbad)
    rfl
  · obtain ⟨_, _, _, hexec⟩ := exec_decode_wellFormed hbad
    cases h.symm.trans hexec
    rfl

theorem settingOf_irq (s : State) (f : Selection → Word) (r : Byte) : (settingOf s f r).irq = s.ie := by
  unfold settingOf
  split
  · rfl
  · unfold resolveSetting
    split <;> rfl

theorem timeOnAirEffect_irq (s : State) : (timeOnAirEffect s).irq = s.ie := by
  unfold timeOnAirEffect
  split <;> rfl

/-- Every command raises DONE and keeps IE, so that IRQ is IE after it. -/
theorem exec_irq (i : Instr) (s t : State) (h : exec i s = .next t) : t.irq = s.ie := by
  cases i with
  | encode => cases h; exact encodeEffect_irq s
  | decode => exact exec_decode_irq h
  | aesEnc ksel | aesDec ksel => cases h; exact withKey_irq ksel s _ fun _ => rfl
  | ctrXor ksel | cmac ksel | micData ksel =>
    cases h; exact withKey_irq ksel s _ fun _ => onRange_ie s _ rfl
  | ceTxSetting | ceRx1Setting | ceRx2Setting => cases h; exact settingOf_irq s _ _
  | timeOnAir => cases h; exact timeOnAirEffect_irq s
  | nop | phySize | isUpstream | ceInit | ceAdd _ | ceRemove _ | ceMask _ | ceUnmask _ | ceSetRatePower
  | ceWaitTime | ceRegisterTx | ceCapacity => cases h; rfl

/-- After an engine step IRQ is IE, also when the word was no command (rule R369). -/
theorem engineStep_irq (s t : State) (h : engineStep s = .next t) : t.irq = s.ie := by
  obtain ⟨i, -, hi⟩ | ⟨_, -, rfl⟩ := engineStep_cases s t h
  · exact exec_irq i s t hi
  · exact s.finish_irq .illegal

/-! ## IE and IRQ after a host write and after a reset -/

/-- CTRL reads back as IE in bit 0 (10_state.md rule R36). -/
theorem State.readReg_ctrl (s : State) : s.readReg .ctrl = if s.ie then 1 else 0 := rfl

/-- A write of CTRL with bit 1 clear sets IE to bit 0 and does nothing else (rule R341). -/
theorem State.hostStore_ctrl_enable {v : Word} (hv : v.getLsbD 1 = false) (s : State) :
    s.hostStore .ctrl v = { s with ie := v.getLsbD 0 } :=
  if_neg (Bool.eq_false_iff.1 hv)

theorem and_one_eq_ite (v : Word) : v &&& 1 = if v.getLsbD 0 then 1 else 0 := by
  rw [BitVec.ofNat_eq_ofNat, BitVec.and_one_eq_setWidth_ofBool_getLsbD]
  cases v.getLsbD 0 <;> rfl

@[simp] theorem State.softReset_irq (s : State) : s.softReset.irq = false := rfl

@[simp] theorem State.hardReset_irq (s : State) : s.hardReset.irq = false := rfl

@[simp] theorem State.issue_irq (s : State) (v : Word) : (s.issue v).irq = false := rfl

theorem State.irq_of_ie {s : State} (h : s.ie = false) : s.irq = false := by
  simp [State.irq, h]

/-- A write of STATUS with bit 1 set clears DONE, and IRQ with it (rule R341). -/
theorem State.hostStore_status_irq {v : Word} (hv : v.getLsbD 1 = true) (s : State) :
    (s.hostStore .status v).irq = false := by
  simp [State.hostStore, State.irq, hv]

/-- A write of CTRL with bit 1 set resets the block, and IRQ with it. -/
theorem State.hostStore_ctrl_irq_of_softReset {v : Word} (hv : v.getLsbD 1 = true) (s : State) :
    (s.hostStore .ctrl v).irq = false := by
  rw [State.hostStore_ctrl_softReset hv, s.softReset_irq]

/-- A write of CTRL with bit 0 clear deasserts IRQ, as a soft reset or by clearing IE. -/
theorem State.hostStore_ctrl_irq_of_disable {v : Word} (hv : v.getLsbD 0 = false) (s : State) :
    (s.hostStore .ctrl v).irq = false := by
  cases hreset : v.getLsbD 1
  · rw [State.hostStore_ctrl_enable hreset]
    exact State.irq_of_ie hv
  · exact State.hostStore_ctrl_irq_of_softReset hreset s

/-- Settles O59: IRQ is IE after each command, and each way to deassert it clears DONE or IE. -/
theorem interruptFollowsDone : Obligations.InterruptFollowsDone := by
  refine ⟨fun s => ⟨rfl, s.readReg_ctrl⟩, fun s v hv => ?_, engineStep_irq, State.hardReset_irq, fun s v =>
    ⟨fun hidle => ?_, fun hv => ⟨State.hostStore_status_irq hv s, State.hostStore_ctrl_irq_of_softReset hv s⟩,
      fun hv => State.hostStore_ctrl_irq_of_disable hv s⟩⟩
  · rw [State.hostStore_ctrl_enable hv, State.readReg_ctrl, and_one_eq_ite]
    exact ⟨rfl, rfl⟩
  · rw [State.hostStore_cmd_of_idle hidle, s.issue_irq]

end Sys2Proof.Machine

/-! The decoder and the encoder (O1 to O3; 30_encoding.md rules R130 to R137): the opcode map read both ways, the
words that decode to a command, and words written out from the spec. -/

namespace Sys2Proof

/-- The opcode map answers a command exactly for its opcode, its index where it reads IDX and its key select
where it reads KSEL; the other operand bits are ignored (rules R132 and R135). -/
theorem decodeOp_eq_some_iff {op idx : BitVec 8} {ksel : BitVec 4} {i : Instr} :
    decodeOp op idx ksel = some i ↔
      i.opcode = op ∧ (i.usesIdx = true → i.idx = idx) ∧ (i.usesKsel = true → i.ksel = ksel) := by
  constructor
  · intro h
    obtain ⟨hop, hksel⟩ := decodeOp_eq_some h
    refine ⟨hop, ?_, hksel⟩
    unfold decodeOp at h
    split at h <;> cases h <;> simp [Instr.usesIdx, Instr.idx]
  · rintro ⟨rfl, hidx, hksel⟩
    cases i with
    | aesEnc k | aesDec k | ctrXor k | cmac k | micData k => cases hksel rfl; rfl
    | ceAdd k | ceRemove k | ceMask k | ceUnmask k => cases hidx rfl; rfl
    | nop | encode | decode | phySize | isUpstream | ceInit | ceSetRatePower | ceWaitTime | ceTxSetting
    | ceRx1Setting | ceRx2Setting | ceRegisterTx | ceCapacity | timeOnAir => rfl

/-- A word decodes to a command exactly when its reserved bits are 0 and the opcode map answers that command,
well formed (rule R136). -/
theorem decode_eq_command_iff {w : Word} {i : Instr} :
    decode w = .command i ↔
      rsvField w = 0 ∧ decodeOp (opField w) (idxField w) (kselField w) = some i ∧ i.wf = true := by
  refine ⟨fun h => ?_, fun ⟨hrsv, hi, hwf⟩ => Machine.decode_of_decodeOp hrsv hi hwf⟩
  unfold decode at h
  split at h
  · rename_i hrsv
    split at h
    · cases h
    · rename_i j hj
      split at h <;> cases h
      rename_i hwf
      exact ⟨hrsv, hj, hwf⟩
  · cases h

/-- Settles O2: the four fields of the word are those of the command, and the opcode map reads it back. -/
theorem decodeReadsBackEncode : Obligations.DecodeReadsBackEncode := fun i hwf =>
  decode_eq_command_iff.2 ⟨rsvField_encode i, decodeOp_eq_some_iff.2 (by simp), hwf⟩

/-- Settles O3: the decoder asks for reserved bits 0 and then the opcode map, read both ways. -/
theorem decodeFollowsTheOpcodeTable : Obligations.DecodeFollowsTheOpcodeTable := by
  intro w i hwf
  simp only [decode_eq_command_iff, decodeOp_eq_some_iff, hwf, and_true]

/-- Settles O1: each word is read off its fields. -/
theorem specWordsDecode : Obligations.SpecWordsDecode :=
  ⟨rfl, rfl, rfl, rfl, rfl, rfl, rfl, rfl, rfl, rfl, rfl, rfl, rfl, rfl⟩

end Sys2Proof

/-! What a command can do (O7, O8, O46 and O48; 43_system.md rules R344 and R360, 30_encoding.md rule R134,
10_state.md rule R61): the branches of the commands, the effect of every command said once, and what follows for
the frame and for the invariants. -/

namespace Sys2Proof.Machine

open Sys2Proof

/-! ## The branches of the commands -/

/-- A command with a key select has its effect under some key, or is illegal (rules R136 and R239). -/
theorem withKey_cases (ksel : BitVec 4) (s : State) (e : Block → State × ResultCode) :
    withKey ksel s e = s.finish .illegal ∨
    ∃ k, withKey ksel s e = ((e k).1.zeroizeKeys).finish (e k).2 := by
  unfold withKey
  split
  · exact .inl rfl
  · exact .inr ⟨_, rfl⟩

/-- A command on a range of WBUF does nothing, or the range lies in WBUF and it has its effect (R236 to R238). -/
theorem onRange_cases (s t : State) :
    onRange s t = (s, .fail) ∨ (s.rangeOff + s.rangeLen ≤ 256 ∧ onRange s t = (t, .ok)) := by
  by_cases h : s.rangeOff + s.rangeLen ≤ 256
  · exact .inr ⟨h, onRange_in s t h⟩
  · exact .inl (onRange_out s t (by omega))

/-- ENCODE fails, or it writes a frame that fits MAXLEN (rule R167). -/
theorem exec_encode_cases (s : State) :
    exec .encode s = .next (((s.setRes0 0).zeroizeKeys).finish .fail) ∨
    ∃ out, encodeFrame s = some out ∧ out.length ≤ s.maxLen ∧ exec .encode s =
      .next ((((s.setWbuf 0 out).setRes0 (BitVec.ofNat 32 out.length)).zeroizeKeys).finish .ok) := by
  by_cases h : ∃ out, encodeFrame s = some out ∧ out.length ≤ s.maxLen
  · obtain ⟨out, hout, hlen⟩ := h
    exact .inr ⟨out, hout, hlen, exec_encode_ok s out hout hlen⟩
  · exact .inl (exec_encode_fail s fun out hout => Nat.lt_of_not_le fun hlen => h ⟨out, hout, hlen⟩)

/-- A settings command fails, or it answers a frequency and a setting (rules R287 to R290). -/
theorem settingOf_cases (s : State) (f : Selection → Word) (r : Byte) :
    settingOf s f r = s.finish .fail ∨
    ∃ v w, settingOf s f r = ((s.setRes0 v).setRes1 w).finish .ok := by
  unfold settingOf
  split
  · exact .inl rfl
  · unfold resolveSetting
    split
    · exact .inl rfl
    · exact .inr ⟨_, _, rfl⟩

/-- TIME_ON_AIR fails, or it answers an airtime (rule R293). -/
theorem timeOnAirEffect_cases (s : State) :
    timeOnAirEffect s = s.finish .fail ∨ ∃ v, timeOnAirEffect s = (s.setRes0 v).finish .ok := by
  unfold timeOnAirEffect
  split
  · exact .inr ⟨_, rfl⟩
  · exact .inl rfl

/-- DECODE's parse writes nothing, or a byte string inside WBUF and the descriptor (rule R171). -/
theorem decodeFrame_cases (s : State) :
    (decodeFrame s.frameLen s).1 = s ∨
    ∃ o bs fd, o + bs.length ≤ 256 ∧ (decodeFrame s.frameLen s).1 = (s.setWbuf o bs).setFd fd := by
  have hlt := s.frameLen_lt
  by_cases hbad : BadFrame s
  · exact .inl (by rw [decodeFrame_bad s hbad])
  right
  obtain ht | ht | ht : s.wireType = 0 ∨ s.wireType = 1 ∨ 2 ≤ s.wireType.toNat := by bv_omega
  · obtain ⟨hlen, hparse⟩ := decodeFrame_joinRequest s hbad ht
    refine ⟨0, [], (decodeFrame s.frameLen s).1.fd, by simp, ?_⟩
    rw [hparse, decJoinRequest, if_pos hlen]
    rfl
  · obtain ⟨hlen, hparse⟩ := decodeFrame_joinAccept s hbad ht
    refine ⟨1, mapBlocks (aes s.keys.app) ((s.frameLen - 1) / 16) (s.wbufBytes 1 (s.frameLen - 1)),
      (decodeFrame s.frameLen s).1.fd, ?_, ?_⟩
    · rw [mapBlocks_length]; omega
    · rw [hparse, decJoinAccept, if_pos hlen]
      rfl
  · obtain ⟨hlen, hparse⟩ := decodeFrame_data s hbad ht
    rw [hparse, decData, if_neg (by omega), if_neg (by omega), decipherPayload]
    split
    · rename_i hport
      refine ⟨_, _, _, ?_, rfl⟩
      simp only [ctrXor_length, State.wbufBytes_length, State.wireDataOff, State.wireDataLen, if_pos hport]
      have := of_decide_eq_true hport
      omega
    · exact ⟨0, [], _, by simp, rfl⟩

/-! ## The effect of a command -/

/-- What a command `i` has made of the state `s` when it comes to its end, the keys, RESULT, BUSY and DONE left
aside: the registers and tables the spec lists for it (30_encoding.md rule R134, 10_state.md rules R35, R51 and
R58 to R60). -/
inductive Effect (s : State) : Instr → State → Prop
  | nothing (i : Instr) : Effect s i s
  | res0 (i : Instr) (v : Word) (hi : i ∈ [.encode, .phySize, .isUpstream, .ceCapacity, .timeOnAir]) :
      Effect s i (s.setRes0 v)
  | micData (ksel : BitVec 4) (v : Word) : Effect s (.micData ksel) (s.setRes0 v)
  | res01 (i : Instr) (v w : Word) (hi : i ∈ [.ceWaitTime, .ceTxSetting, .ceRx1Setting, .ceRx2Setting]) :
      Effect s i ((s.setRes0 v).setRes1 w)
  | encode (out : List Byte) (v : Word) (h : out.length ≤ 256) :
      Effect s .encode ((s.setWbuf 0 out).setRes0 v)
  | decode (o : Nat) (bs : List Byte) (fd : FrameDesc) (h : o + bs.length ≤ 256) :
      Effect s .decode ((s.setWbuf o bs).setFd fd)
  | aesEnc (ksel : BitVec 4) (b : Block) : Effect s (.aesEnc ksel) (s.setBlk b)
  | aesDec (ksel : BitVec 4) (b : Block) : Effect s (.aesDec ksel) (s.setBlk b)
  | cmac (ksel : BitVec 4) (b : Block) : Effect s (.cmac ksel) (s.setBlk b)
  | ctrXor (ksel : BitVec 4) (o : Nat) (bs : List Byte) (h : o + bs.length ≤ 256) :
      Effect s (.ctrXor ksel) (s.setWbuf o bs)
  | ceInit : Effect s .ceInit (s.setCe (s.ce.initFor s.regionPort s.args.r0))
  | ceAdd (idx : BitVec 8) : Effect s (.ceAdd idx) (s.setCe (s.ce.add s.regionPort idx.toNat s.args.r0).1)
  | ceRemove (idx : BitVec 8) : Effect s (.ceRemove idx) (s.setCe (s.ce.remove idx.toNat))
  | ceMask (idx : BitVec 8) : Effect s (.ceMask idx) (s.setCe (s.ce.mask idx.toNat).1)
  | ceUnmask (idx : BitVec 8) : Effect s (.ceUnmask idx) (s.setCe (s.ce.unmask idx.toNat).1)
  | ceRegisterTx : Effect s .ceRegisterTx (s.setCe (s.ce.registerTx s.regionPort s.nowArg s.txLen))
  | ceSetRatePower (rate power : Byte) :
      Effect s .ceSetRatePower (s.setCe { s.ce with rate := rate, power := power })

/-- A command with its effect, ended, with the keys kept or cleared. -/
def EndsWith (s : State) (i : Instr) (t : State) : Prop :=
  ∃ u c, Effect s i u ∧ (t = u.finish c ∨ t = u.zeroizeKeys.finish c)

theorem EndsWith.keep {s u : State} {i : Instr} (h : Effect s i u) (c : ResultCode) :
    EndsWith s i (u.finish c) := ⟨u, c, h, .inl rfl⟩

theorem EndsWith.clear {s u : State} {i : Instr} (h : Effect s i u) (c : ResultCode) :
    EndsWith s i (u.zeroizeKeys.finish c) := ⟨u, c, h, .inr rfl⟩

theorem EndsWith.withKey {s : State} {i : Instr} (ksel : BitVec 4) {e : Block → State × ResultCode}
    (h : ∀ k, Effect s i (e k).1) : EndsWith s i (withKey ksel s e) := by
  obtain e' | ⟨k, e'⟩ := withKey_cases ksel s e <;> rw [e']
  · exact .keep (.nothing i) _
  · exact .clear (h k) _

theorem Effect.onRange {s u : State} {i : Instr} (h : s.rangeOff + s.rangeLen ≤ 256 → Effect s i u) :
    Effect s i (onRange s u).1 := by
  obtain e | ⟨hr, e⟩ := onRange_cases s u <;> rw [e]
  · exact .nothing i
  · exact h hr

theorem EndsWith.settingOf {s : State} {i : Instr} (f : Selection → Word) (r : Byte)
    (hi : i ∈ [.ceWaitTime, .ceTxSetting, .ceRx1Setting, .ceRx2Setting]) :
    EndsWith s i (settingOf s f r) := by
  obtain e | ⟨v, w, e⟩ := settingOf_cases s f r <;> rw [e]
  · exact .keep (.nothing i) _
  · exact .keep (.res01 i v w hi) _

/-- Every command has a next state, and it is the command's effect, ended (rules R344 and R360). -/
theorem exec_endsWith (i : Instr) (s : State) : ∃ t, exec i s = .next t ∧ EndsWith s i t := by
  cases i with
  | nop => exact ⟨_, rfl, .keep (.nothing _) _⟩
  | phySize | isUpstream | ceCapacity => exact ⟨_, rfl, .keep (.res0 _ _ (by simp)) _⟩
  | timeOnAir =>
    refine ⟨_, rfl, ?_⟩
    obtain e | ⟨v, e⟩ := timeOnAirEffect_cases s <;> rw [e]
    · exact .keep (.nothing _) _
    · exact .keep (.res0 _ v (by simp)) _
  | encode =>
    obtain e | ⟨out, -, hlen, e⟩ := exec_encode_cases s
    · exact ⟨_, e, .clear (.res0 _ 0 (by simp)) _⟩
    · exact ⟨_, e, .clear (.encode out _ (by have := s.maxLen_lt; omega)) _⟩
  | decode =>
    refine ⟨_, rfl, .clear ?_ _⟩
    obtain e | ⟨o, bs, fd, hlen, e⟩ := decodeFrame_cases s <;> rw [e]
    · exact .nothing _
    · exact .decode o bs fd hlen
  | aesEnc ksel => exact ⟨_, rfl, .withKey ksel fun _ => .aesEnc ksel _⟩
  | aesDec ksel => exact ⟨_, rfl, .withKey ksel fun _ => .aesDec ksel _⟩
  | ctrXor ksel =>
    exact ⟨_, rfl, .withKey ksel fun _ => .onRange fun hr =>
      .ctrXor ksel _ _ (by simpa [State.rangeBytes] using hr)⟩
  | cmac ksel => exact ⟨_, rfl, .withKey ksel fun _ => .onRange fun _ => .cmac ksel _⟩
  | micData ksel => exact ⟨_, rfl, .withKey ksel fun _ => .onRange fun _ => .micData ksel _⟩
  | ceInit => exact ⟨_, rfl, .keep .ceInit _⟩
  | ceAdd idx => exact ⟨_, rfl, .keep (.ceAdd idx) _⟩
  | ceRemove idx => exact ⟨_, rfl, .keep (.ceRemove idx) _⟩
  | ceMask idx => exact ⟨_, rfl, .keep (.ceMask idx) _⟩
  | ceUnmask idx => exact ⟨_, rfl, .keep (.ceUnmask idx) _⟩
  | ceSetRatePower => exact ⟨_, rfl, .keep (.ceSetRatePower _ _) _⟩
  | ceWaitTime => exact ⟨_, rfl, .keep (.res01 _ _ _ (by simp)) _⟩
  | ceTxSetting | ceRx1Setting | ceRx2Setting => exact ⟨_, rfl, .settingOf _ _ (by simp)⟩
  | ceRegisterTx => exact ⟨_, rfl, .keep .ceRegisterTx _⟩

/-- The next state of a command is its effect, ended. -/
theorem EndsWith.of_exec {i : Instr} {s t : State} (h : exec i s = .next t) : EndsWith s i t := by
  obtain ⟨t', h', he⟩ := exec_endsWith i s
  cases h.symm.trans h'
  exact he

/-! ## The frame of a command -/

theorem Untouched.refl (s : State) : Untouched s s :=
  ⟨rfl, rfl, rfl, rfl, rfl, rfl, rfl, rfl, rfl, fun _ _ => rfl, rfl⟩

/-- A write of the channel engine that keeps the capacities touches nothing of the frame. -/
theorem Untouched.setCe {s : State} {ce : ChanEngine} (hnch : ce.nch = s.ce.nch) (hnband : ce.nband = s.ce.nband) :
    Untouched s (s.setCe ce) :=
  ⟨rfl, hnch, hnband, rfl, rfl, rfl, rfl, rfl, rfl, fun _ _ => rfl, rfl⟩

/-- A byte string written inside WBUF touches nothing of the frame. -/
theorem Untouched.setWbuf {s : State} {o : Nat} {bs : List Byte} (h : o + bs.length ≤ 256) :
    Untouched s (s.setWbuf o bs) :=
  ⟨rfl, rfl, rfl, rfl, rfl, rfl, rfl, rfl, rfl, fun a _ => s.pbuf_setWbuf o a bs h, rfl⟩

/-- Registers outside the frame do not matter to it: RES0 and RES1, the descriptor, BLK, the keys, RESULT, BUSY
and DONE. -/
theorem Untouched.congr {s t u : State} (h : Untouched s t) (e : u = { t with
    ress := { t.ress with r0 := u.ress.r0, r1 := u.ress.r1 }
    fd := u.fd, blk := u.blk, keys := u.keys, result := u.result, busy := u.busy, done := u.done }) :
    Untouched s u := by
  rw [e]
  exact ⟨h.regionPort, h.nch, h.nband, h.ie, h.errBusy, h.cmd, h.args, h.res2, h.res3, h.pbuf, h.host⟩

/-- No effect touches the frame. -/
theorem Effect.untouched {s u : State} {i : Instr} (h : Effect s i u) : Untouched s u := by
  have same {ce : ChanEngine} (hce : s.ce.SameSettings ce) : Untouched s (s.setCe ce) :=
    .setCe hce.nch hce.nband
  cases h with
  | nothing => exact .refl s
  | res0 | micData | res01 | aesEnc | aesDec | cmac => exact (Untouched.refl s).congr rfl
  | encode out v hlen => exact (Untouched.setWbuf (by omega)).congr rfl
  | decode o bs fd hlen => exact (Untouched.setWbuf hlen).congr rfl
  | ctrXor ksel o bs hlen => exact .setWbuf hlen
  | ceInit =>
    obtain ⟨hnch, hnband⟩ := s.ce.initFor_size s.regionPort s.args.r0
    exact .setCe hnch hnband
  | ceAdd idx => exact same (s.ce.add_same _ _ _)
  | ceRemove idx => exact same (s.ce.remove_same _)
  | ceMask idx => exact same (s.ce.mask_same _)
  | ceUnmask idx => exact same (s.ce.unmask_same _)
  | ceRegisterTx => exact same (s.ce.registerTx_same _ _ _)
  | ceSetRatePower => exact .setCe rfl rfl

/-- A command that ended has a result code, is not busy, and left the frame alone. -/
theorem EndsWith.ended {s t : State} {i : Instr} (h : EndsWith s i t) : ∃ c, Ended t c ∧ Untouched s t := by
  obtain ⟨u, c, hu, rfl | rfl⟩ := h
  · exact ⟨c, ⟨rfl, rfl, rfl⟩, hu.untouched.congr rfl⟩
  · exact ⟨c, ⟨rfl, rfl, rfl⟩, hu.untouched.congr rfl⟩

/-- Settles O7: a command is its effect, ended, and no effect touches the frame. -/
theorem everyCommandEnds : Obligations.EveryCommandEnds := by
  intro i s
  obtain ⟨t, hexec, ht⟩ := exec_endsWith i s
  obtain ⟨c, hended, huntouched⟩ := ht.ended
  exact ⟨t, c, hexec, hended, huntouched⟩

/-! ## The registers and tables one by one -/

/-- The descriptor is written by DECODE only. -/
theorem Effect.fd {s u : State} {i : Instr} (h : Effect s i u) (hi : i ≠ .decode) : u.fd = s.fd := by
  cases h with
  | decode => exact absurd rfl hi
  | _ => rfl

/-- BLK is written by AES_ENC, AES_DEC and CMAC only (10_state.md rule R51). -/
theorem Effect.blk {s u : State} {i : Instr} (h : Effect s i u)
    (hi : ∀ k, i ≠ .aesEnc k ∧ i ≠ .aesDec k ∧ i ≠ .cmac k) : u.blk = s.blk := by
  cases h with
  | aesEnc ksel => exact absurd rfl (hi ksel).1
  | aesDec ksel => exact absurd rfl (hi ksel).2.1
  | cmac ksel => exact absurd rfl (hi ksel).2.2
  | _ => rfl

/-- The buffers are written by CTR_XOR, ENCODE and DECODE only. -/
theorem Effect.mem {s u : State} {i : Instr} (h : Effect s i u) (hctr : ∀ k, i ≠ .ctrXor k)
    (henc : i ≠ .encode) (hdec : i ≠ .decode) : u.mem = s.mem := by
  cases h with
  | ctrXor ksel => exact absurd rfl (hctr ksel)
  | encode => exact absurd rfl henc
  | decode => exact absurd rfl hdec
  | _ => rfl

/-- RES0 is written by the commands of rule R134 only. -/
theorem Effect.res0_eq {s u : State} {i : Instr} (h : Effect s i u) (hmic : ∀ k, i ≠ .micData k)
    (hi : i ∉ [.encode, .phySize, .isUpstream, .ceWaitTime, .ceTxSetting, .ceRx1Setting, .ceRx2Setting,
      .ceCapacity, .timeOnAir]) : u.ress.r0 = s.ress.r0 := by
  cases h with
  | res0 _ v hmem | res01 _ v w hmem => exact absurd (by simp at hmem ⊢; tauto) hi
  | micData ksel => exact absurd rfl (hmic ksel)
  | encode => exact absurd (by simp) hi
  | _ => rfl

/-- RES1 is written by the commands of rule R134 only. -/
theorem Effect.res1_eq {s u : State} {i : Instr} (h : Effect s i u)
    (hi : i ∉ [.ceWaitTime, .ceTxSetting, .ceRx1Setting, .ceRx2Setting]) : u.ress.r1 = s.ress.r1 := by
  cases h with
  | res01 _ v w hmem => exact absurd hmem hi
  | _ => rfl

/-- The channel engine is written by its own commands only. -/
theorem Effect.ce {s u : State} {i : Instr} (h : Effect s i u)
    (hslot : ∀ k, i ≠ .ceAdd k ∧ i ≠ .ceRemove k ∧ i ≠ .ceMask k ∧ i ≠ .ceUnmask k) (hinit : i ≠ .ceInit)
    (htx : i ≠ .ceRegisterTx) (hset : i ≠ .ceSetRatePower) : u.ce = s.ce := by
  cases h with
  | ceAdd idx => exact absurd rfl (hslot idx).1
  | ceRemove idx => exact absurd rfl (hslot idx).2.1
  | ceMask idx => exact absurd rfl (hslot idx).2.2.1
  | ceUnmask idx => exact absurd rfl (hslot idx).2.2.2
  | ceInit => exact absurd rfl hinit
  | ceRegisterTx => exact absurd rfl htx
  | ceSetRatePower => exact absurd rfl hset
  | _ => rfl

/-- The settings and the region are kept by every command but CE_INIT and CE_SET_RATE_POWER (10_state.md rules
R58 to R60). -/
theorem Effect.sameSettings {s u : State} {i : Instr} (h : Effect s i u) (hinit : i ≠ .ceInit)
    (hset : i ≠ .ceSetRatePower) : s.ce.SameSettings u.ce := by
  cases h with
  | ceInit => exact absurd rfl hinit
  | ceSetRatePower => exact absurd rfl hset
  | ceAdd idx => exact s.ce.add_same _ _ _
  | ceRemove idx => exact s.ce.remove_same _
  | ceMask idx => exact s.ce.mask_same _
  | ceUnmask idx => exact s.ce.unmask_same _
  | ceRegisterTx => exact s.ce.registerTx_same _ _ _
  | _ => exact .refl _

/-- CE_SET_RATE_POWER writes the rate and the power only (rule R285). -/
theorem Effect.ceSetRatePower_eq {s u : State} (h : Effect s .ceSetRatePower u) :
    u.ce = { s.ce with rate := u.ce.rate, power := u.ce.power } := by
  cases h with
  | nothing => rfl
  | res0 _ _ hmem | res01 _ _ _ hmem => simp at hmem
  | ceSetRatePower => rfl

/-- Ending a command writes RESULT, BUSY and DONE, and the keys where it clears them. -/
theorem EndsWith.effect {s t : State} {i : Instr} (h : EndsWith s i t) :
    ∃ u, Effect s i u ∧ t.fd = u.fd ∧ t.blk = u.blk ∧ t.mem = u.mem ∧ t.ress = u.ress ∧ t.ce = u.ce := by
  obtain ⟨u, c, hu, rfl | rfl⟩ := h <;> exact ⟨u, hu, rfl, rfl, rfl, rfl, rfl⟩

/-- Settles O8: each clause is one register or table of the effect. -/
theorem onlyListedCommandsWrite : Obligations.OnlyListedCommandsWrite := by
  intro i s t hexec
  obtain ⟨u, hu, hfd, hblk, hmem, hress, hce⟩ := (EndsWith.of_exec hexec).effect
  rw [hfd, hblk, hmem, hress, hce]
  refine ⟨hu.fd, hu.blk, hu.mem, hu.res0_eq, hu.res1_eq, hu.ce, fun hinit => ?_, fun hinit hset => ?_⟩
  · by_cases hset : i = .ceSetRatePower
    · subst hset
      rw [hu.ceSetRatePower_eq]
      exact ⟨rfl, rfl, rfl, rfl⟩
    · have same := hu.sameSettings hinit hset
      exact ⟨same.region, same.rx1Offset, same.rx2Freq, same.rx2Rate⟩
  · have same := hu.sameSettings hinit hset
    exact ⟨same.rate, same.power⟩

/-! ## The invariants -/

/-- A step of the block: from a state with the invariants to one with them, IFAULT not set. -/
def State.Keeps (s t : State) : Prop :=
  s.Inv → t.Inv ∧ (t.ce.ifault = true → s.ce.ifault = true)

/-- The invariants speak of the channel engine and the buffers only. -/
theorem State.Keeps.of_good {s t : State} (hce : s.ce.Inv → s.ce.Good t.ce)
    (hmem : s.mem.wf = true → t.mem.wf = true) : s.Keeps t := fun h =>
  ⟨⟨(hce h.channels).1, hmem h.buffers⟩, fun hf => (hce h.channels).2 ▸ hf⟩

/-- A write of the buffers in canonical form, the channel engine kept. -/
theorem State.Keeps.of_mem {s t : State} (hce : t.ce = s.ce) (hmem : s.mem.wf = true → t.mem.wf = true) :
    s.Keeps t :=
  .of_good (fun h => by rw [hce]; exact ⟨h, rfl⟩) hmem

/-- The channel engine and the buffers kept, the invariants are. -/
theorem State.Keeps.of_eq {s t : State} (hce : t.ce = s.ce) (hmem : t.mem = s.mem) : s.Keeps t :=
  .of_mem hce fun h => by rwa [hmem]

theorem State.Keeps.trans {s t u : State} (h : s.Keeps t) (h' : t.Keeps u) : s.Keeps u := fun hs =>
  ⟨(h' (h hs).1).1, fun hf => (h hs).2 ((h' (h hs).1).2 hf)⟩

theorem State.Keeps.refl (s : State) : s.Keeps s := .of_eq rfl rfl

/-- Empty tables of the same capacities and buffers in canonical form: the invariants, and IFAULT clear. -/
theorem State.Keeps.of_empty {s t : State} (hce : t.ce = ChanEngine.empty s.ce.nch s.ce.nband)
    (hmem : s.mem.wf = true → t.mem.wf = true) : s.Keeps t := fun h => by
  obtain ⟨h1, h2, h3, h4⟩ := h.channels.sized
  refine ⟨⟨hce ▸ .empty _ _ h1 h2 h3 h4, hmem h.buffers⟩, fun hf => ?_⟩
  rw [hce] at hf
  cases hf

/-- Every effect keeps the invariants. -/
theorem Effect.keeps {s u : State} {i : Instr} (h : Effect s i u) : s.Keeps u := by
  have good {ce : ChanEngine} (hce : s.ce.Inv → s.ce.Good ce) : s.Keeps (s.setCe ce) := .of_good hce id
  cases h with
  | nothing | res0 | micData | res01 | aesEnc | aesDec | cmac => exact .of_eq rfl rfl
  | encode | decode | ctrXor => exact .of_mem rfl (Memory.wf_writeBytes _ _ _)
  | ceInit => exact good fun h => h.initFor _ _
  | ceAdd idx => exact good fun h => h.add _ _ _
  | ceRemove idx => exact good fun h => h.remove _
  | ceMask idx => exact good fun h => h.mask _
  | ceUnmask idx => exact good fun h => h.unmask _
  | ceRegisterTx => exact good fun h => h.registerTx _ _ _
  | ceSetRatePower => exact good fun h => ⟨h.settings rfl rfl rfl rfl, rfl⟩

/-- Every command keeps the invariants. -/
theorem exec_keeps {i : Instr} {s t : State} (h : exec i s = .next t) : s.Keeps t := by
  obtain ⟨u, hu, -, -, hmem, -, hce⟩ := (EndsWith.of_exec h).effect
  exact hu.keeps.trans (.of_eq hce hmem)

theorem engineStep_keeps {s t : State} (h : engineStep s = .next t) : s.Keeps t := by
  obtain ⟨i, -, hi⟩ | ⟨r, -, rfl⟩ := engineStep_cases s t h
  · exact exec_keeps hi
  · exact .of_eq rfl rfl

/-- A write of a register keeps the invariants: it writes no table, and the buffers byte by byte. -/
theorem State.writeReg_keeps (s : State) (r : Reg) (v : Word) : s.Keeps (s.writeReg r v) := by
  cases r with
  | wbuf k | pbuf k => exact .of_mem rfl (Memory.wf_writeWord _ _ _)
  | _ => exact .of_eq rfl rfl

theorem State.writeCtrl_keeps (s : State) (v : Word) : s.Keeps (s.writeCtrl v) := by
  unfold State.writeCtrl
  split
  · exact .of_empty rfl id
  · exact .of_eq rfl rfl

/-- A host write of an offset keeps the invariants. -/
theorem State.writeAt_keeps (s : State) (o : Nat) (v : Word) : s.Keeps (s.writeAt o v) := by
  obtain ⟨r, -, hw⟩ | ⟨-, hw⟩ := writeAt_cases s o v <;> rw [hw]
  · obtain ⟨-, hr⟩ | ⟨-, hr⟩ | ⟨-, -, hr⟩ | ⟨-, -, hr⟩ | ⟨-, hr⟩ := hostStore_cases s r v <;> rw [hr]
    · exact s.writeCtrl_keeps v
    · exact .of_eq rfl rfl
    · exact .of_eq rfl rfl
    · exact s.writeReg_keeps r v
    · exact .refl s
  · exact .refl s

/-- A line of the host's program keeps the invariants. -/
theorem hostLine_keeps {line : HostLine} {s t : State} (h : hostLine line s = .next t) : s.Keeps t := by
  have past : s.Keeps s.nextLine := .of_eq rfl rfl
  obtain ⟨o, n, v, -, -, rfl⟩ | ⟨o, n, -, -, rfl⟩ | ⟨o, m, v, -, -, rfl⟩ | ⟨-, rfl⟩ | ⟨-, rfl⟩ :=
    hostLine_cases line s t h
  · exact past.trans (s.nextLine.writeAt_keeps o.toNat v)
  · exact .of_eq rfl rfl
  · split
    · exact past
    · exact .refl s
  · exact past
  · exact .of_empty rfl fun _ => Memory.wf_powerCycle _

/-- Every step of the machine keeps the invariants, and sets IFAULT from none of them (rules R61 and R279). -/
theorem step_keeps {s t : State} (h : step s = .next t) : s.Keeps t := by
  have turn : s.Keeps s.nextTurn := .of_eq rfl rfl
  obtain ⟨-, -, he⟩ | ⟨line, u, hu, -, hl⟩ | ⟨ht, -⟩ := step_cases s t h
  · exact turn.trans (engineStep_keeps he)
  · obtain rfl | rfl := hu
    · exact hostLine_keeps hl
    · exact turn.trans (hostLine_keeps hl)
  · obtain rfl | rfl := ht
    · exact .refl t
    · exact turn

/-- Settles O46: by the engine step's effect, or the host line's. -/
theorem stepKeepsTheInvariants : Obligations.StepKeepsTheInvariants := fun _ _ hinv h => (step_keeps h hinv).1

/-- Settles O48: recomputing the selection always finds a slot where the counts are live counts. -/
theorem internalFaultUnreachable : Obligations.InternalFaultUnreachable := fun _ _ hinv h =>
  (step_keeps h hinv).2

/-- The reset state of legal capacities has the invariants, whatever the region, the host and the count of
resets. -/
theorem State.init_inv (port : RegionPort) {nch nband : Nat} (resets : Nat) (host : HostAgent) (h1 : 1 ≤ nch)
    (h2 : nch ≤ 64) (h3 : 1 ≤ nband) (h4 : nband ≤ 32) :
    (State.init port nch nband ⟨[], resets⟩ host).Inv :=
  ⟨.empty nch nband h1 h2 h3 h4, rfl⟩

/-- Settles O47: empty tables have the invariants, and the spec's default capacities are legal. -/
theorem resetHasTheInvariants : Obligations.ResetHasTheInvariants :=
  ⟨State.init_inv _ _ _ (by decide) (by decide) (by decide) (by decide),
    fun port _ _ resets host => State.init_inv port resets host⟩

end Sys2Proof.Machine

/-! The ciphers (O23 and O24; 41_crypto.md rules R220 to R226 and R234): the S-box against the field GF(2^8), each
step of the inverse cipher against its step of the forward one, and the two functions that undo themselves. -/

namespace Sys2Proof

/-! ## The S-box -/

/-- The inverse of the S-box's affine map. -/
def sboxAffineInv (y : Byte) : Byte := y.rotateLeft 1 ^^^ y.rotateLeft 3 ^^^ y.rotateLeft 6 ^^^ 0x05

theorem sboxAffine_sboxAffineInv : ∀ y : Byte, sboxAffine (sboxAffineInv y) = y := by decide

/-- The affine map taken off an S-box entry leaves the inverse of its index in GF(2^8), and 0 for 0. -/
theorem gfTimes_sboxAffineInv_sbox :
    ∀ x : Byte, if x = 0 then sboxAffineInv (sbox x) = 0 else gfTimes x (sboxAffineInv (sbox x)) = 1 := by
  decide

@[simp] theorem invSbox_sbox : ∀ x : Byte, invSbox (sbox x) = x := by decide

@[simp] theorem sbox_invSbox : ∀ x : Byte, sbox (invSbox x) = x := by decide

/-- Settles O24: the affine map undone on each entry gives the field inverse. -/
theorem sboxIsAffineOfInverse : Obligations.SboxIsAffineOfInverse :=
  ⟨fun x => ⟨sboxAffineInv (sbox x), gfTimes_sboxAffineInv_sbox x, (sboxAffine_sboxAffineInv _).symm⟩,
    invSbox_sbox⟩

/-! ## MixColumns -/

/-- `xtime` is additive: multiplication by 02 distributes over the exclusive-or (rule R223). -/
theorem xtime_xor (a b : Byte) : xtime (a ^^^ b) = xtime a ^^^ xtime b := by
  unfold xtime
  rw [BitVec.getLsbD_xor, BitVec.shiftLeft_xor_distrib]
  cases a.getLsbD 7 <;> cases b.getLsbD 7 <;> simp [BitVec.xor_assoc]
  ac_rfl

theorem gfMul_one (a : Byte) : gfMul 0x1 a = a := by simp [gfMul]

theorem gfMul_two (a : Byte) : gfMul 0x2 a = xtime a := by simp [gfMul]

theorem gfMul_three (a : Byte) : gfMul 0x3 a = a ^^^ xtime a := by simp [gfMul]

theorem gfMul_nine (a : Byte) : gfMul 0x9 a = a ^^^ xtime (xtime (xtime a)) := by simp [gfMul]

theorem gfMul_eleven (a : Byte) : gfMul 0xb a = a ^^^ xtime a ^^^ xtime (xtime (xtime a)) := by simp [gfMul]

theorem gfMul_thirteen (a : Byte) : gfMul 0xd a = a ^^^ xtime (xtime a) ^^^ xtime (xtime (xtime a)) := by
  simp [gfMul]

theorem gfMul_fourteen (a : Byte) :
    gfMul 0xe a = xtime a ^^^ xtime (xtime a) ^^^ xtime (xtime (xtime a)) := by simp [gfMul]

/-- InvMixColumns undoes MixColumns on a column: in the products of the two matrices every power of 02 off the
diagonal occurs twice (rule R226). -/
theorem invMixWith_mixWith (c : Col) : mixWith 0xe 0xb 0xd 0x9 (mixWith 0x2 0x3 0x1 0x1 c) = c := by
  obtain ⟨b0, b1, b2, b3⟩ := c
  simp only [mixWith, gfMul_one, gfMul_two, gfMul_three, gfMul_nine, gfMul_eleven, gfMul_thirteen,
    gfMul_fourteen, xtime_xor, Col.mk.injEq]
  ac_nf
  simp

/-- MixColumns undoes InvMixColumns on a column. -/
theorem mixWith_invMixWith (c : Col) : mixWith 0x2 0x3 0x1 0x1 (mixWith 0xe 0xb 0xd 0x9 c) = c := by
  obtain ⟨b0, b1, b2, b3⟩ := c
  simp only [mixWith, gfMul_one, gfMul_two, gfMul_three, gfMul_nine, gfMul_eleven, gfMul_thirteen,
    gfMul_fourteen, xtime_xor, Col.mk.injEq]
  ac_nf
  simp

/-! ## The steps of a round and their inverses -/

/-- A function on columns undone column by column. -/
theorem Block.mapCols_mapCols {f g : Col → Col} (h : ∀ c, f (g c) = c) (s : Block) :
    (s.mapCols g).mapCols f = s := by
  simp only [Block.mapCols, h]

@[simp] theorem invMixColumns_mixColumns (s : Block) : invMixColumns (mixColumns s) = s :=
  Block.mapCols_mapCols invMixWith_mixWith s

@[simp] theorem mixColumns_invMixColumns (s : Block) : mixColumns (invMixColumns s) = s :=
  Block.mapCols_mapCols mixWith_invMixWith s

@[simp] theorem invSubBytes_subBytes (s : Block) : invSubBytes (subBytes s) = s :=
  Block.mapCols_mapCols (fun c => by simp [Col.map]) s

@[simp] theorem subBytes_invSubBytes (s : Block) : subBytes (invSubBytes s) = s :=
  Block.mapCols_mapCols (fun c => by simp [Col.map]) s

@[simp] theorem invShiftRows_shiftRows (s : Block) : invShiftRows (shiftRows s) = s := rfl

@[simp] theorem shiftRows_invShiftRows (s : Block) : shiftRows (invShiftRows s) = s := rfl

/-! ## The ciphers -/

/-- The key schedule has eleven round keys (rule R224). -/
theorem roundKeys_eq (key : Block) : ∃ k0 k1 k2 k3 k4 k5 k6 k7 k8 k9 k10,
    roundKeys key = [k0, k1, k2, k3, k4, k5, k6, k7, k8, k9, k10] :=
  ⟨_, _, _, _, _, _, _, _, _, _, _, rfl⟩

/-- The inverse cipher meets the round keys and the steps of the forward one from the last to the first, each
undone by its inverse (rule R226). -/
theorem aesInv_aes (key b : Block) : aesInv key (aes key b) = b := by
  obtain ⟨k0, k1, k2, k3, k4, k5, k6, k7, k8, k9, k10, hkeys⟩ := roundKeys_eq key
  simp [aes, aesInv, hkeys, withRoundKeys, cipherRounds, invCipherRounds]

theorem aes_aesInv (key b : Block) : aes key (aesInv key b) = b := by
  obtain ⟨k0, k1, k2, k3, k4, k5, k6, k7, k8, k9, k10, hkeys⟩ := roundKeys_eq key
  simp [aes, aesInv, hkeys, withRoundKeys, cipherRounds, invCipherRounds]

/-- The same keystream is added twice (rule R234). -/
theorem ctrXor_ctrXor (key : Block) (d : Bool) (a n : Word) (p : List Byte) :
    ctrXor key d a n (ctrXor key d a n p) = p := by
  have hlen := Machine.ctrXor_length key d a n p
  unfold ctrXor at hlen ⊢
  rw [hlen, xorBytes_xorBytes]
  rw [keystream_length]
  omega

/-- Settles O23: round by round for the block ciphers, byte by byte for the counter mode. -/
theorem ciphersUndoThemselves : Obligations.CiphersUndoThemselves :=
  ⟨fun k b => ⟨aesInv_aes k b, aes_aesInv k b⟩,
    fun k d a n p _ => ⟨ctrXor_ctrXor k d a n p, Machine.ctrXor_length k d a n p⟩⟩

end Sys2Proof

/-! ENCODE (O12 and O13; 40_frame_codec.md rules R164, R167 and R170, 60_exceptions.md rule R362): the frames
ENCODE builds and their lengths, the data frame field by field, and the causes for which it fails. -/

namespace Sys2Proof.Machine

open Sys2Proof

/-! ## The frames ENCODE builds -/

/-- A data frame before its MIC (rule R170). -/
def dataMsg (fd : FrameDesc) (keys : Keys) (payload : List Byte) : List Byte :=
  dataHeader fd.type fd ++ dataPayload fd.type fd keys payload

/-- A data frame with its MIC (rule R170). -/
def dataFrame (fd : FrameDesc) (keys : Keys) (payload : List Byte) : List Byte :=
  dataMsg fd keys payload ++
    micData keys.nwkS (isDown fd.type) fd.devAddr fd.fCnt (dataMsg fd keys payload)

/-- A descriptor a data frame can be built from: its options fit FOptsLen and a payload has a port (R170). -/
def FrameDesc.Buildable (fd : FrameDesc) : Prop :=
  fd.len.optsLen.toNat ≤ 15 ∧ (fd.flags.portPresent = true ∨ fd.len.dataLen = 0)

theorem encodeFrame_data {s : State} (hlo : 2 ≤ s.fd.type.toNat) (hhi : s.fd.type.toNat ≤ 5) :
    encodeFrame s = encData s.fd.type s.fd s.keys (s.pbufBytes 0 s.fd.len.dataLen.toNat) := by
  obtain h | h | h | h :
      s.fd.type.toNat = 2 ∨ s.fd.type.toNat = 3 ∨ s.fd.type.toNat = 4 ∨ s.fd.type.toNat = 5 := by omega
  all_goals simp [encodeFrame, h]

/-- Type codes 6 and 7 name no frame (rule R167). -/
theorem encodeFrame_none {s : State} (h : 6 ≤ s.fd.type.toNat) : encodeFrame s = none := by
  have hlt := s.fd.type.isLt
  obtain h | h : s.fd.type.toNat = 6 ∨ s.fd.type.toNat = 7 := by omega
  all_goals simp [encodeFrame, h]

/-- From a buildable descriptor `encData` builds the data frame. -/
theorem encData_buildable {fd : FrameDesc} (h : fd.Buildable) (keys : Keys) (payload : List Byte) :
    encData fd.type fd keys payload = some (dataFrame fd keys payload) :=
  encData_some fd.type fd keys payload h.1 h.2

/-- From any other it builds none. -/
theorem encData_not_buildable {fd : FrameDesc} (h : ¬ fd.Buildable) (keys : Keys) (payload : List Byte) :
    encData fd.type fd keys payload = none := by
  unfold encData
  split
  · rfl
  · rename_i hopts
    refine if_pos ?_
    have hport : fd.flags.portPresent ≠ true ∧ fd.len.dataLen ≠ 0 := by
      rw [← not_or]
      exact fun hp => h ⟨by omega, hp⟩
    exact ⟨Bool.eq_false_iff.2 hport.1, by have := hport.2; bv_omega⟩

theorem dataMsg_length {fd : FrameDesc} (h : fd.Buildable) (keys : Keys) {payload : List Byte}
    (hp : payload.length = fd.len.dataLen.toNat) :
    (dataMsg fd keys payload).length = fd.dataFrameLen - 4 := by
  rw [dataMsg, List.length_append, dataHeader_length fd.type fd h.1, dataPayload_length, hp,
    FrameDesc.dataFrameLen]
  split <;> omega

theorem dataFrame_length {fd : FrameDesc} (h : fd.Buildable) (keys : Keys) {payload : List Byte}
    (hp : payload.length = fd.len.dataLen.toNat) : (dataFrame fd keys payload).length = fd.dataFrameLen :=
  encData_length fd.type fd keys payload hp h.1

/-- The frame ENCODE builds is the one of its type, and it has the exact length of its layout. -/
theorem encodeFrame_cases {s : State} {out : List Byte} (h : encodeFrame s = some out) :
    (s.fd.type = 0 ∧ out = encJoinRequest s.fd s.keys ∧ out.length = 23) ∨
    (s.fd.type = 1 ∧ out = encJoinAccept s.fd s.keys ∧ out.length = s.fd.joinAcceptLen) ∨
    (2 ≤ s.fd.type.toNat ∧ s.fd.type.toNat ≤ 5 ∧ s.fd.Buildable ∧
      out = dataFrame s.fd s.keys (s.pbufBytes 0 s.fd.len.dataLen.toNat) ∧
      out.length = s.fd.dataFrameLen) := by
  obtain ht | ht | ht : s.fd.type = 0 ∨ s.fd.type = 1 ∨ 2 ≤ s.fd.type.toNat := by bv_omega
  · obtain rfl := Option.some.inj ((encodeFrame_joinRequest ht).symm.trans h)
    exact .inl ⟨ht, rfl, encJoinRequest_length _ _⟩
  · obtain rfl := Option.some.inj ((encodeFrame_joinAccept ht).symm.trans h)
    exact .inr (.inl ⟨ht, rfl, encJoinAccept_length _ _⟩)
  · have ht' : s.fd.type.toNat ≤ 5 := by
      by_contra hgt
      simp [encodeFrame_none (s := s) (by omega)] at h
    rw [encodeFrame_data ht ht'] at h
    by_cases hb : s.fd.Buildable
    · obtain rfl := Option.some.inj ((encData_buildable hb _ _).symm.trans h)
      exact .inr (.inr ⟨ht, ht', hb, rfl, dataFrame_length hb _ (by simp)⟩)
    · simp [encData_not_buildable hb] at h

/-- Settles O13: every listed cause leaves ENCODE without a frame, or with one longer than MAXLEN. -/
theorem encodeFailuresChangeNothingElse : Obligations.EncodeFailuresChangeNothingElse := by
  refine ⟨fun _ hw => decode_of_commandWord hw rfl rfl, fun s hcause => ?_⟩
  refine exec_encode_fail s fun out hout => ?_
  obtain ⟨ht, -, hlen⟩ | ⟨ht, -, hlen⟩ | ⟨hlo, hhi, ⟨hopts, hport⟩, -, hlen⟩ := encodeFrame_cases hout
  · simp [ht] at hcause
    omega
  · simp [ht] at hcause
    omega
  · obtain h | ⟨h, -⟩ | ⟨h, -⟩ | ⟨-, h | ⟨hnone, hdata⟩ | h⟩ := hcause
    · omega
    · simp [h] at hlo
    · simp [h] at hlo
    · omega
    · obtain hport | hport := hport
      · simp [hnone] at hport
      · exact absurd hport hdata
    · omega

/-! ## Byte strings in WBUF -/

/-- A byte string stands in WBUF from an offset on. -/
def State.Holds (t : State) (o : Nat) (bs : List Byte) : Prop := t.wbufBytes o bs.length = bs

/-- The whole frame ENCODE wrote stands in WBUF. -/
theorem Encoded.holds {s t : State} {out : List Byte} (h : Encoded s t out) : t.Holds 0 out := h.frame

theorem State.wbufBytes_add (t : State) (o a b : Nat) :
    t.wbufBytes o (a + b) = t.wbufBytes o a ++ t.wbufBytes (o + a) b := by
  rw [State.wbufBytes, Memory.readBytes_add, Nat.add_assoc]
  rfl

/-- Two strings one after the other stand in WBUF exactly when each does. -/
theorem State.holds_append (t : State) (o : Nat) (as bs : List Byte) :
    t.Holds o (as ++ bs) ↔ t.Holds o as ∧ t.Holds (o + as.length) bs := by
  rw [State.Holds, List.length_append, t.wbufBytes_add]
  exact ⟨fun h => List.append_inj h (t.wbufBytes_length _ _), fun ⟨has, hbs⟩ => congrArg₂ (· ++ ·) has hbs⟩

theorem State.holds_cons (t : State) (o : Nat) (b : Byte) (bs : List Byte) :
    t.Holds o (b :: bs) ↔ t.wbuf o = b ∧ t.Holds (o + 1) bs := by
  rw [State.Holds, List.length_cons, Nat.add_comm, t.wbufBytes_add]
  exact List.cons_eq_cons

/-! ## The data frame field by field -/

theorem mhdr_toNat (t : BitVec 3) : (mhdr t).toNat = 32 * t.toNat := by
  rw [mhdr, toNat_append_add]
  simp [Nat.mul_comm]

/-- Four flags packed, each read from its bit. -/
theorem ofBool_append_bits : ∀ a b c d : Bool,
    (BitVec.ofBool a ++ BitVec.ofBool b ++ BitVec.ofBool c ++ BitVec.ofBool d).getLsbD 3 = a ∧
    (BitVec.ofBool a ++ BitVec.ofBool b ++ BitVec.ofBool c ++ BitVec.ofBool d).getLsbD 2 = b ∧
    (BitVec.ofBool a ++ BitVec.ofBool b ++ BitVec.ofBool c ++ BitVec.ofBool d).getLsbD 1 = c ∧
    (BitVec.ofBool a ++ BitVec.ofBool b ++ BitVec.ofBool c ++ BitVec.ofBool d).getLsbD 0 = d := by
  decide

/-- FCtrl bit by bit (rule R164). -/
theorem fCtrl_bits (t : BitVec 3) (fl : FrameFlags) (ol : BitVec 4) :
    (fCtrl t fl ol).getLsbD 7 = fl.adr ∧
    (fCtrl t fl ol).getLsbD 6 = (isUp t && fl.adrAckReq) ∧
    (fCtrl t fl ol).getLsbD 5 = fl.ack ∧
    (fCtrl t fl ol).getLsbD 4 = (isDown t && fl.pending) ∧
    (fCtrl t fl ol).toNat % 16 = ol.toNat := by
  have hol := ol.isLt
  have bit (i : Nat) : (fCtrl t fl ol).getLsbD i = _ := BitVec.getLsbD_append
  obtain ⟨hadr, hreq, hack, hpending⟩ :=
    ofBool_append_bits fl.adr (isUp t && fl.adrAckReq) fl.ack (isDown t && fl.pending)
  refine ⟨(bit 7).trans hadr, (bit 6).trans hreq, (bit 5).trans hack, (bit 4).trans hpending, ?_⟩
  rw [fCtrl, toNat_append_add]
  omega

/-- The bytes of a data frame, field by field (rule R164). -/
theorem dataFrame_eq (fd : FrameDesc) (keys : Keys) (payload : List Byte) :
    dataFrame fd keys payload =
      mhdr fd.type :: (le fd.devAddr 4 ++ (fCtrl fd.type fd.flags (fd.len.optsLen.setWidth 4) ::
        (le fd.fCnt 2 ++ (fd.opts.bytes.take fd.len.optsLen.toNat ++ (dataPayload fd.type fd keys payload ++
          micData keys.nwkS (isDown fd.type) fd.devAddr fd.fCnt (dataMsg fd keys payload)))))) := by
  simp [dataFrame, dataMsg, dataHeader]

theorem dataPayload_present {fd : FrameDesc} (t : BitVec 3) (keys : Keys) (payload : List Byte)
    (h : fd.flags.portPresent = true) : dataPayload t fd keys payload =
      fd.port :: ctrXor (keys.payKey fd.port) (isDown t) fd.devAddr fd.fCnt payload :=
  if_pos h

/-- Where the fields of a data frame stand in WBUF, when the frame stands there (rule R164). -/
structure DataLayout (fd : FrameDesc) (keys : Keys) (plain : List Byte) (t : State) : Prop where
  mhdr     : t.wbuf 0 = mhdr fd.type
  devAddr  : t.wbufBytes 1 4 = le fd.devAddr 4
  fCtrl    : t.wbuf 5 = fCtrl fd.type fd.flags (fd.len.optsLen.setWidth 4)
  fCnt     : t.wbufBytes 6 2 = le fd.fCnt 2
  opts     : t.wbufBytes 8 fd.len.optsLen.toNat = fd.opts.bytes.take fd.len.optsLen.toNat
  port     : fd.flags.portPresent = true → t.wbuf (8 + fd.len.optsLen.toNat) = fd.port
  payload  : fd.flags.portPresent = true →
    t.wbufBytes (9 + fd.len.optsLen.toNat) fd.len.dataLen.toNat =
      ctrXor (keys.payKey fd.port) (isDown fd.type) fd.devAddr fd.fCnt plain
  msg      : t.wbufBytes 0 (fd.dataFrameLen - 4) = dataMsg fd keys plain
  mic      : t.wbufBytes (fd.dataFrameLen - 4) 4 =
    micData keys.nwkS (isDown fd.type) fd.devAddr fd.fCnt (dataMsg fd keys plain)

/-- A data frame that stands in WBUF has its layout. -/
theorem State.Holds.dataLayout {t : State} {fd : FrameDesc} {keys : Keys} {plain : List Byte}
    (h : t.Holds 0 (dataFrame fd keys plain)) (hb : fd.Buildable)
    (hp : plain.length = fd.len.dataLen.toNat) : DataLayout fd keys plain t := by
  have hopts : (fd.opts.bytes.take fd.len.optsLen.toNat).length = fd.len.optsLen.toNat := by
    have := hb.1
    simp only [List.length_take, Block.bytes_length]
    omega
  obtain ⟨hmsg, hmic⟩ := (t.holds_append 0 (dataMsg fd keys plain) _).1 h
  rw [Nat.zero_add] at hmic
  rw [dataFrame_eq] at h
  simp only [State.holds_append, State.holds_cons, le_length, hopts, Nat.reduceAdd] at h
  obtain ⟨hmhdr, haddr, hctrl, hcnt, hopt, hpay, -⟩ := h
  have hport (hpres : fd.flags.portPresent = true) :
      t.wbuf (8 + fd.len.optsLen.toNat) = fd.port ∧ t.Holds (8 + fd.len.optsLen.toNat + 1)
        (ctrXor (keys.payKey fd.port) (isDown fd.type) fd.devAddr fd.fCnt plain) := by
    rwa [dataPayload_present fd.type keys plain hpres, State.holds_cons] at hpay
  unfold State.Holds at *
  rw [dataMsg_length hb keys hp] at hmsg hmic
  rw [hopts] at hopt
  exact
    { mhdr := hmhdr, devAddr := haddr, fCtrl := hctrl, fCnt := hcnt, opts := hopt, msg := hmsg, mic := hmic
      port := fun hpres => (hport hpres).1
      payload := fun hpres => by
        have hpl := (hport hpres).2
        rwa [ctrXor_length, hp, Nat.add_right_comm] at hpl }

/-- Settles O12: the frame stands in WBUF, field by field. -/
theorem encodeDataFrameLayout : Obligations.EncodeDataFrameLayout := by
  intro s hlo hhi hopts hport hmax
  have hb : s.fd.Buildable := ⟨hopts, hport⟩
  have hlen := dataFrame_length hb s.keys (s.pbufBytes_length 0 s.fd.len.dataLen.toNat)
  have hframe := (encodeFrame_data hlo hhi).trans (encData_buildable hb _ _)
  obtain ⟨t, hexec, ht⟩ := exec_encode_encoded s _ hframe (by omega)
  have layout := ht.holds.dataLayout hb (s.pbufBytes_length 0 s.fd.len.dataLen.toNat)
  obtain ⟨hadr, hreq, hack, hpending, hol⟩ :=
    fCtrl_bits s.fd.type s.fd.flags (s.fd.len.optsLen.setWidth 4)
  rw [← layout.fCtrl] at hadr hreq hack hpending hol
  refine ⟨t, hexec, ht.ended, ht.untouched, ht.res0.trans hlen, ht.keys, ht.fd, ht.blk, ht.ce, ht.res1, ?_,
    layout.devAddr, hadr, hreq, hack, hpending, ?_, layout.fCnt, layout.opts,
    fun hpres => ⟨layout.port hpres, layout.payload hpres⟩, ?_, hlen ▸ ht.outside⟩
  · rw [layout.mhdr, mhdr_toNat]
  · rw [hol, BitVec.toNat_setWidth]
    omega
  · rw [layout.msg, layout.mic]
    rfl

end Sys2Proof.Machine

/-! DECODE (O15 to O18; 40_frame_codec.md rules R164, R166, R171 and R176): what it leaves of each kind of frame,
and that it neither reads nor writes past the frame. -/

namespace Sys2Proof.Machine

open Sys2Proof

/-! ## What DECODE leaves -/

/-- No command touches the frame of the block (O7), DECODE among them. -/
theorem exec_untouched {i : Instr} {s t : State} (h : exec i s = .next t) : Untouched s t := by
  obtain ⟨_, -, hu⟩ := (EndsWith.of_exec h).ended
  exact hu

/-- The result of a MIC comparison (rule R171). -/
theorem micResult_beq (a b : List Byte) : micResult (a == b) = if a = b then .ok else .mic := by
  by_cases h : a = b <;> simp [micResult, h]

/-- Settles O15: the fields are read where the layout has them, and the buffers are not written. -/
theorem decodeJoinRequestFields : Obligations.DecodeJoinRequestFields := by
  intro s hbad ht
  obtain ⟨hlen, hparse⟩ := decodeFrame_joinRequest s hbad ht
  rw [decJoinRequest, if_pos hlen, micResult_beq] at hparse
  have hexec := exec_decode s _ _ hparse
  exact ⟨_, hexec, exec_untouched hexec, ⟨rfl, rfl, rfl⟩, rfl, rfl, rfl, rfl, rfl, rfl⟩

/-- Settles O16: the deciphered string has the length of what it replaces, and the fields are read from it. -/
theorem decodeJoinAcceptFields : Obligations.DecodeJoinAcceptFields := by
  intro s hbad ht
  have hlt := s.frameLen_lt
  obtain ⟨hlen, hparse⟩ := decodeFrame_joinAccept s hbad ht
  have hplain : (mapBlocks (aes s.keys.app) ((s.frameLen - 1) / 16)
      (s.wbufBytes 1 (s.frameLen - 1))).length = s.frameLen - 1 := by
    rw [mapBlocks_length]
    omega
  simp only [decJoinAccept, if_pos hlen, micResult_beq] at hparse
  have hexec := exec_decode s _ _ hparse
  refine ⟨_, hexec, exec_untouched hexec, ⟨rfl, rfl, rfl⟩, rfl, rfl, rfl, rfl, ?_, ?_, fun a ha => ?_, rfl⟩
  · exact s.wbuf_setWbuf_outside 1 0 _ (by omega)
  · have hread := s.wbufBytes_setWbuf 1 _ (by rw [hplain]; omega)
    rwa [hplain] at hread
  · exact Memory.read_writeBytes_outside _ _ _ _ (by rw [hplain]; omega)

/-- FOptsLen is the low half of FCtrl (rule R164). -/
theorem State.wireOptsLen_eq (s : State) : s.wireOptsLen = (s.wbuf 5).toNat % 16 := by
  rw [State.wireOptsLen, toNat_field]
  simp

/-- Deciphering leaves the payload's image in its place, when there is a port, and every other byte alone
(rule R171). -/
theorem decipherPayload_mem (t : BitVec 3) {s : State} {len : Nat} (hlen : len < 256) :
    (s.wirePort len = true → (decipherPayload t len s).wbufBytes (s.wireDataOff len) (s.wireDataLen len) =
      ctrXor (s.keys.payKey s.wireFPort) (isDown t) s.wireDevAddr s.wireFCnt
        (s.wbufBytes (s.wireDataOff len) (s.wireDataLen len))) ∧
    (∀ a, a < wbufBase + s.wireDataOff len ∨ wbufBase + s.wireDataOff len + s.wireDataLen len ≤ a →
      (decipherPayload t len s).mem.read a = s.mem.read a) := by
  unfold decipherPayload
  split
  · rename_i hport
    have himage := ctrXor_length (s.keys.payKey s.wireFPort) (isDown t) s.wireDevAddr s.wireFCnt
      (s.wbufBytes (s.wireDataOff len) (s.wireDataLen len))
    rw [s.wbufBytes_length] at himage
    refine ⟨fun _ => ?_, fun a ha => Memory.read_writeBytes_outside _ _ _ _ (by rwa [himage])⟩
    have hin : s.wireDataOff len + s.wireDataLen len ≤ 256 := by
      have := of_decide_eq_true hport
      simp only [State.wireDataOff, State.wireDataLen, if_pos hport]
      omega
    have hread := s.wbufBytes_setWbuf (s.wireDataOff len) _ (himage ▸ hin)
    rwa [himage] at hread
  · rename_i hport
    exact ⟨fun h => absurd h hport, fun _ _ => rfl⟩

/-- Settles O17: the fields are read where the layout has them, and only the payload is written. -/
theorem decodeDataFrameFields : Obligations.DecodeDataFrameFields := by
  intro s ol dl doff port hbad ht hol hport hdl hdoff
  obtain ⟨hlen, hparse⟩ := decodeFrame_data s hbad ht
  rw [← s.wireOptsLen_eq] at hol
  subst hol
  obtain rfl : port = s.wirePort s.frameLen := hport
  obtain rfl : dl = s.wireDataLen s.frameLen := hdl
  obtain rfl : doff = s.wireDataOff s.frameLen := hdoff
  obtain ⟨hpayload, hmem⟩ := decipherPayload_mem s.wireType (s := s) s.frameLen_lt
  rw [decData_of_le hlen, dataMicOk, micResult_beq] at hparse
  have hexec := exec_decode s _ _ hparse
  refine ⟨_, hexec, exec_untouched hexec, ⟨rfl, rfl, rfl⟩, rfl, rfl, rfl, rfl, hpayload, hmem, ?_⟩
  change dataFields s.wireType s.frameLen s = _
  rw [dataFields, Block.overwrite, s.wbufBytes_length]
  rfl

/-! ## DECODE stays inside the frame -/

/-- Two states with the same bytes in WBUF up to an offset. -/
def SameBytes (n : Nat) (s s' : State) : Prop := ∀ o, o < n → s'.wbuf o = s.wbuf o

theorem SameBytes.wbufBytes {n : Nat} {s s' : State} (h : SameBytes n s s') {o k : Nat} (hk : o + k ≤ n) :
    s'.wbufBytes o k = s.wbufBytes o k :=
  Memory.readBytes_congr _ _ _ _ fun i hi => by
    rw [Nat.add_assoc]
    exact h (o + i) (by omega)

/-- A byte of two equal strings in WBUF. -/
theorem wbuf_eq_of_wbufBytes_eq {s s' : State} {o k a : Nat} (h : s'.wbufBytes o k = s.wbufBytes o k)
    (ho : o ≤ a) (ha : a < o + k) : s'.wbuf a = s.wbuf a := by
  have hbyte := congrArg (·[a - o]?) h
  simp only [State.wbufBytes, Memory.getElem?_readBytes, if_pos (show a - o < k by omega),
    Option.some.injEq] at hbyte
  rwa [Nat.add_assoc, show o + (a - o) = a by omega] at hbyte

/-- Two states that a DECODE cannot tell apart: the same descriptor, keys, length and frame bytes. -/
structure SameFrame (s s' : State) : Prop where
  fd    : s'.fd = s.fd
  keys  : s'.keys = s.keys
  len   : s'.frameLen = s.frameLen
  bytes : SameBytes s.frameLen s s'

theorem SameFrame.wireType {s s' : State} (h : SameFrame s s') (h0 : s.frameLen ≠ 0) :
    s'.wireType = s.wireType := by
  rw [State.wireType, h.bytes 0 (by omega)]
  rfl

/-- Whether a frame is malformed is read off its own bytes. -/
theorem SameFrame.badFrame_iff {s s' : State} (h : SameFrame s s') : BadFrame s' ↔ BadFrame s := by
  by_cases h0 : s.frameLen = 0
  · simp [BadFrame, h.len, h0]
  have hopts : (s.frameLen < 12 ∨ s.frameLen < 12 + s'.wireOptsLen) ↔
      (s.frameLen < 12 ∨ s.frameLen < 12 + s.wireOptsLen) := by
    refine or_congr_right' fun hlen => ?_
    rw [s'.wireOptsLen_eq, s.wireOptsLen_eq, h.bytes 5 (by omega)]
  simp only [BadFrame, h.len, h.wireType h0, h.bytes 0 (by omega), hopts]

/-- DECODE writes no byte past the frame (rule R176). -/
theorem exec_decode_outside {s t : State} (h : exec .decode s = .next t) (a : Nat)
    (ha : a < wbufBase ∨ wbufBase + s.frameLen ≤ a) : t.mem.read a = s.mem.read a := by
  by_cases hbad : BadFrame s
  · cases h.symm.trans (exec_decode_bad hbad)
    rfl
  obtain ht | ht | ht : s.wireType = 0 ∨ s.wireType = 1 ∨ 2 ≤ s.wireType.toNat := by bv_omega
  · obtain ⟨t', h', -, -, -, hmem, -⟩ := decodeJoinRequestFields s hbad ht
    cases h.symm.trans h'
    rw [hmem]
  · obtain ⟨t', h', -, -, -, -, -, -, -, -, hmem, -⟩ := decodeJoinAcceptFields s hbad ht
    cases h.symm.trans h'
    exact hmem a ha
  · have hlen := (decodeFrame_data s hbad ht).1
    rw [s.wireOptsLen_eq] at hlen
    obtain ⟨t', h', -, -, -, -, -, -, -, hmem, -⟩ :=
      decodeDataFrameFields s _ _ _ _ hbad ht rfl rfl rfl rfl
    cases h.symm.trans h'
    refine hmem a ?_
    split
    · rename_i hport
      have := of_decide_eq_true hport
      omega
    · omega

/-- What DECODE answers: its result, its descriptor and the bytes of the frame. -/
def SameAnswer (n : Nat) (t u : State) : Prop := t.result = u.result ∧ t.fd = u.fd ∧ SameBytes n u t

theorem SameFrame.decode_joinRequest {s s' t u : State} (h : SameFrame s s') (hbad : ¬ BadFrame s)
    (ht : s.wireType = 0) (hs : exec .decode s = .next t) (hs' : exec .decode s' = .next u) :
    SameAnswer s.frameLen t u := by
  have hbad' := mt h.badFrame_iff.1 hbad
  have hlen := (decodeFrame_joinRequest s hbad ht).1
  have ht' : s'.wireType = 0 := (h.wireType (by omega)).trans ht
  obtain ⟨_, e, -, hend, -, hmem, -, -, -, hfd⟩ := decodeJoinRequestFields s hbad ht
  cases hs.symm.trans e
  obtain ⟨_, e, -, hend', -, hmem', -, -, -, hfd'⟩ := decodeJoinRequestFields s' hbad' ht'
  cases hs'.symm.trans e
  have bytes {o k : Nat} (hk : o + k ≤ 23) : s'.wbufBytes o k = s.wbufBytes o k :=
    h.bytes.wbufBytes (by omega)
  refine ⟨?_, ?_, fun o ho => ?_⟩
  · rw [hend.result, hend'.result, h.keys, bytes (by omega), bytes (by omega)]
  · rw [hfd, hfd', h.fd, bytes (by omega), bytes (by omega), bytes (by omega), bytes (by omega),
      bytes (by omega)]
  · have := h.bytes o ho
    simpa only [State.wbuf, hmem, hmem'] using this.symm

theorem SameFrame.decode_joinAccept {s s' t u : State} (h : SameFrame s s') (hbad : ¬ BadFrame s)
    (ht : s.wireType = 1) (hs : exec .decode s = .next t) (hs' : exec .decode s' = .next u) :
    SameAnswer s.frameLen t u := by
  have hbad' := mt h.badFrame_iff.1 hbad
  have hlen := (decodeFrame_joinAccept s hbad ht).1
  have ht' : s'.wireType = 1 := (h.wireType (by omega)).trans ht
  obtain ⟨_, e, -, hend, -, -, -, -, h0, hplain, -, hfd⟩ := decodeJoinAcceptFields s hbad ht
  cases hs.symm.trans e
  obtain ⟨_, e, -, hend', -, -, -, -, h0', hplain', -, hfd'⟩ := decodeJoinAcceptFields s' hbad' ht'
  cases hs'.symm.trans e
  rw [h.len] at hend' hplain' hfd'
  have hbytes : SameBytes s.frameLen u t := by
    intro o ho
    cases o with
    | zero => rw [h0, h0', h.bytes 0 ho]
    | succ o =>
      refine wbuf_eq_of_wbufBytes_eq (o := 1) (k := s.frameLen - 1) ?_ (by omega) (by omega)
      rw [hplain, hplain', h.keys, h.bytes.wbufBytes (by omega)]
  refine ⟨?_, ?_, hbytes⟩
  · rw [hend.result, hend'.result, h.keys, hbytes.wbufBytes (by omega), hbytes.wbufBytes (by omega)]
  · rw [hfd, hfd', h.fd, hbytes.wbufBytes (by omega), hbytes.wbufBytes (by omega),
      hbytes.wbufBytes (by omega), hbytes 11 (by omega), hbytes 12 (by omega)]
    split
    · rw [hbytes.wbufBytes (by omega)]
    · rfl

theorem SameFrame.decode_data {s s' t u : State} (h : SameFrame s s') (hbad : ¬ BadFrame s)
    (ht : 2 ≤ s.wireType.toNat) (hs : exec .decode s = .next t) (hs' : exec .decode s' = .next u) :
    SameAnswer s.frameLen t u := by
  have hbad' := mt h.badFrame_iff.1 hbad
  have hlen := (decodeFrame_data s hbad ht).1
  have htype := h.wireType (by omega)
  have bytes {o k : Nat} (hk : o + k ≤ s.frameLen) : s'.wbufBytes o k = s.wbufBytes o k :=
    h.bytes.wbufBytes hk
  obtain ⟨ol, hol⟩ : ∃ ol, ol = (s.wbuf 5).toNat % 16 := ⟨_, rfl⟩
  obtain ⟨port, hport⟩ : ∃ port, port = decide (12 + ol < s.frameLen) := ⟨_, rfl⟩
  obtain ⟨dl, hdl⟩ : ∃ dl, dl = if port then s.frameLen - 13 - ol else 0 := ⟨_, rfl⟩
  obtain ⟨doff, hdoff⟩ : ∃ doff, doff = if port then 9 + ol else 0 := ⟨_, rfl⟩
  obtain ⟨_, e, -, hend, -, -, -, -, hpay, hmem, hfd⟩ :=
    decodeDataFrameFields s ol dl doff port hbad ht hol hport hdl hdoff
  cases hs.symm.trans e
  obtain ⟨_, e, -, hend', -, -, -, -, hpay', hmem', hfd'⟩ :=
    decodeDataFrameFields s' ol dl doff port hbad' (htype ▸ ht) (by rw [hol, h.bytes 5 (by omega)])
      (by rw [hport, h.len]) (by rw [hdl, h.len]) hdoff
  cases hs'.symm.trans e
  rw [s.wireOptsLen_eq, ← hol] at hlen
  refine ⟨?_, ?_, fun o ho => ?_⟩
  · rw [hend.result, hend'.result, h.keys, h.len, htype, bytes (by omega), bytes (by omega), bytes (by omega),
      bytes (by omega)]
  · rw [hfd, hfd', h.fd, htype, bytes (by omega), bytes (by omega), bytes (by omega), h.bytes 5 (by omega)]
    cases port with
    | false => rfl
    | true =>
      have := of_decide_eq_true hport.symm
      rw [h.bytes (8 + ol) (by omega)]
  · by_cases hin : doff ≤ o ∧ o < doff + dl
    · have hpres : port = true := by
        by_contra hno
        simp [hdl, hno] at hin
        omega
      have hlt := of_decide_eq_true (hport.symm.trans hpres)
      rw [if_pos hpres] at hdl hdoff
      refine wbuf_eq_of_wbufBytes_eq ?_ hin.1 hin.2
      rw [hpay hpres, hpay' hpres, h.keys, htype, h.bytes (8 + ol) (by omega), bytes (by omega), bytes (by omega),
        bytes (by omega)]
    · have hout : wbufBase + o < wbufBase + doff ∨ wbufBase + doff + dl ≤ wbufBase + o := by omega
      exact (hmem _ hout).trans ((h.bytes o ho).symm.trans (hmem' _ hout).symm)

/-- DECODE cannot tell two states with the same frame apart (rule R176). -/
theorem SameFrame.decode {s s' t u : State} (h : SameFrame s s') (hs : exec .decode s = .next t)
    (hs' : exec .decode s' = .next u) : SameAnswer s.frameLen t u := by
  by_cases hbad : BadFrame s
  · cases hs.symm.trans (exec_decode_bad hbad)
    cases hs'.symm.trans (exec_decode_bad (h.badFrame_iff.2 hbad))
    exact ⟨rfl, h.fd.symm, fun o ho => (h.bytes o ho).symm⟩
  · obtain ht | ht | ht : s.wireType = 0 ∨ s.wireType = 1 ∨ 2 ≤ s.wireType.toNat := by bv_omega
    · exact h.decode_joinRequest hbad ht hs hs'
    · exact h.decode_joinAccept hbad ht hs hs'
    · exact h.decode_data hbad ht hs hs'

/-- Settles O18: the answer depends on the frame alone, and no byte past it is written. -/
theorem decodeStaysInsideTheFrame : Obligations.DecodeStaysInsideTheFrame := by
  intro s m hm
  have hsame : SameFrame s { s with mem := m } := ⟨rfl, rfl, rfl, hm⟩
  obtain ⟨hresult, hfd, hbytes⟩ := hsame.decode rfl rfl
  exact ⟨_, _, rfl, rfl, hresult, hfd, hbytes, fun a ha =>
    ⟨exec_decode_outside rfl a ha, exec_decode_outside (s := { s with mem := m }) rfl a ha⟩⟩

end Sys2Proof.Machine

/-! Round trips (O19 to O21; 40_frame_codec.md rule R174): what stands in WBUF after an ENCODE that completed
with OK, the fields taken off their little-endian bytes, and what DECODE makes of the frame. -/

namespace Sys2Proof.Machine

open Sys2Proof

/-! ## The frame between ENCODE and DECODE -/

/-- An ENCODE that completed with OK wrote the frame of its descriptor (rule R167). -/
theorem encoded_of_ok {s t : State} (h : exec .encode s = .next t) (hok : t.result = .ok) :
    ∃ out, encodeFrame s = some out ∧ out.length < 256 ∧ Encoded s t out := by
  obtain e | ⟨out, hout, hlen, -⟩ := exec_encode_cases s
  · cases h.symm.trans e
    cases hok
  · obtain ⟨t', h', ht'⟩ := exec_encode_encoded s out hout hlen
    cases h.symm.trans h'
    exact ⟨out, hout, hlen.trans_lt s.maxLen_lt, ht'⟩

/-- DECODE is given the length ENCODE answered. -/
theorem Encoded.reload_frameLen {s t : State} {out : List Byte} (h : Encoded s t out) (hlt : out.length < 256)
    (keys : Keys) (fd : FrameDesc) : (t.reload keys fd).frameLen = out.length := by
  rw [State.frameLen_eq]
  change t.ress.r0.toNat % 256 = _
  rw [h.res0]
  exact Nat.mod_eq_of_lt hlt

/-- DECODE meets the frame ENCODE wrote. -/
theorem Encoded.reload_holds {s t : State} {out : List Byte} (h : Encoded s t out) (keys : Keys)
    (fd : FrameDesc) : (t.reload keys fd).Holds 0 out := h.holds

/-- A string read from WBUF stands there. -/
theorem State.Holds.of_eq {t : State} {o n : Nat} {bs : List Byte} (h : t.wbufBytes o n = bs) : t.Holds o bs := by
  rw [← h, State.Holds, t.wbufBytes_length]

/-- MHDR holds the type code and Major 0 (rule R161). -/
theorem mhdr_fields : ∀ ty : BitVec 3, (mhdr ty).extractLsb' 5 3 = ty ∧ (mhdr ty).extractLsb' 0 2 = 0 := by
  decide

theorem wireType_of_mhdr {s : State} {ty : BitVec 3} (h : s.wbuf 0 = mhdr ty) :
    s.wireType = ty ∧ (s.wbuf 0).extractLsb' 0 2 = 0 := by
  rw [State.wireType, h]
  exact mhdr_fields ty

/-! ## Fields taken off their bytes -/

/-- A field is read back from as many little-endian bytes as hold it. -/
theorem ofNat_uintLe_le {w n : Nat} (v : BitVec w) (h : w ≤ 8 * n) : BitVec.ofNat w (uintLe (le v n)) = v := by
  have hbytes : 2 ^ w ≤ 256 ^ n := by
    rw [show 256 = 2 ^ 8 from rfl, ← Nat.pow_mul]
    exact Nat.pow_le_pow_right (by decide) h
  apply BitVec.eq_of_toNat_eq
  rw [uintLe_le, BitVec.toNat_ofNat, Nat.mod_eq_of_lt (v.isLt.trans_le hbytes), Nat.mod_eq_of_lt v.isLt]

/-- A counter below 2^16 is read back from its two low bytes (90_conflicts.md C4). -/
theorem wordLe_le_two {w : Word} (h : w.toNat < 2 ^ 16) : wordLe (le w 2) = w := by
  apply BitVec.eq_of_toNat_eq
  rw [wordLe, uintLe_le, BitVec.toNat_ofNat]
  omega

/-! ## The JoinRequest -/

/-- Settles O19: the fields are read where ENCODE wrote them, and so is the MIC over them. -/
theorem roundTripJoinRequest : Obligations.RoundTripJoinRequest := by
  intro s t fd htype hexec hok
  obtain ⟨out, hout, hlt, ht⟩ := encoded_of_ok hexec hok
  obtain rfl := Option.some.inj ((encodeFrame_joinRequest htype).symm.trans hout)
  have hframeLen := ht.reload_frameLen hlt s.keys fd
  have hholds := ht.reload_holds s.keys fd
  have hkeys : (t.reload s.keys fd).keys = s.keys := rfl
  have hfd : (t.reload s.keys fd).fd = fd := rfl
  generalize t.reload s.keys fd = r at *
  rw [encJoinRequest_length] at hframeLen
  obtain ⟨hmsg, hmic⟩ := (r.holds_append 0 (joinRequestMsg s.fd) _).1 hholds
  rw [encJoinRequest_eq] at hholds
  simp only [State.holds_append, State.holds_cons, le_length, Nat.reduceAdd, List.length_append] at hholds
  obtain ⟨hmhdr, ⟨happLo, happHi⟩, ⟨hdevLo, hdevHi⟩, hnonce, -⟩ := hholds
  obtain ⟨hwire, hmajor⟩ := wireType_of_mhdr (ty := 0) hmhdr
  have hbad : ¬ BadFrame r := by simp [BadFrame, hframeLen, hwire, hmajor]
  obtain ⟨u, hu, -, hend, -, -, -, -, -, hufd⟩ := decodeJoinRequestFields r hbad hwire
  unfold State.Holds at *
  simp only [joinRequestMsg_length, le_length, mic32_length, Nat.zero_add] at *
  refine ⟨u, hu, ?_, ?_⟩
  · rw [hend.result, hmsg, hmic, hkeys, if_pos rfl]
  · rw [hufd, hfd, happLo, happHi, hdevLo, hdevHi, hnonce, wordLe_le, wordLe_le, wordLe_le, wordLe_le,
      ofNat_uintLe_le _ (by decide)]

/-! ## The JoinAccept -/

/-- The bytes of a JoinAccept's plaintext, field by field (rule R163). -/
theorem joinAcceptPlain_eq (fd : FrameDesc) (mic : List Byte) :
    mhdr 1 :: joinAcceptBody fd ++ mic =
      mhdr 1 :: (le fd.appNonce 3 ++ (le fd.netId 3 ++ (le fd.devAddr 4 ++
        (fd.ja.dlSettings :: fd.ja.rxDelayByte ::
          ((if fd.ja.cfListPresent then fd.cfList.bytes else []) ++ mic))))) := by
  simp [joinAcceptBody]

/-- DLSettings and RxDelay give their fields back (rule R163). -/
theorem JoinFields.fields_of_bytes (ja : JoinFields) :
    ja.dlSettings.extractLsb' 4 3 = ja.rx1DrOffset ∧ ja.dlSettings.extractLsb' 0 4 = ja.rx2Dr ∧
    ja.rxDelayByte.extractLsb' 0 4 = ja.rxDelay := by
  have hoff := ja.rx1DrOffset.isLt
  have hdr := ja.rx2Dr.isLt
  have hdelay := ja.rxDelay.isLt
  simp only [JoinFields.dlSettings, JoinFields.rxDelayByte]
  refine ⟨?_, ?_, ?_⟩ <;> apply BitVec.eq_of_toNat_eq <;>
    simp only [toNat_field, toNat_append_add] <;> omega

/-- Where the fields of a JoinAccept's plaintext stand in WBUF (rule R163). -/
structure JoinAcceptLayout (fd : FrameDesc) (t : State) : Prop where
  appNonce   : t.wbufBytes 1 3 = le fd.appNonce 3
  netId      : t.wbufBytes 4 3 = le fd.netId 3
  devAddr    : t.wbufBytes 7 4 = le fd.devAddr 4
  dlSettings : t.wbuf 11 = fd.ja.dlSettings
  rxDelay    : t.wbuf 12 = fd.ja.rxDelayByte
  cfList     : fd.ja.cfListPresent = true → t.wbufBytes 13 16 = fd.cfList.bytes

/-- A JoinAccept's plaintext that stands in WBUF has its layout. -/
theorem State.Holds.joinAcceptLayout {t : State} {fd : FrameDesc} {mic : List Byte}
    (h : t.Holds 0 (mhdr 1 :: joinAcceptBody fd ++ mic)) : JoinAcceptLayout fd t := by
  rw [joinAcceptPlain_eq] at h
  simp only [State.holds_append, State.holds_cons, le_length, Nat.reduceAdd] at h
  obtain ⟨-, happ, hnet, haddr, hdl, hdelay, hcf, -⟩ := h
  exact
    { appNonce := happ, netId := hnet, devAddr := haddr, dlSettings := hdl, rxDelay := hdelay
      cfList := fun hpres => by rwa [if_pos hpres] at hcf }

/-- The body and MIC of a JoinAccept deciphered: DECODE's forward cipher undoes ENCODE's inverse one (rules R169
and R171). -/
theorem decipher_encJoinAccept (fd : FrameDesc) (key : Block) (mic : List Byte) (hmic : mic.length = 4) :
    mapBlocks (aes key) ((fd.joinAcceptLen - 1) / 16)
      (mapBlocks (aesInv key) ((fd.joinAcceptLen - 1) / 16) (joinAcceptBody fd ++ mic)) =
      joinAcceptBody fd ++ mic := by
  have hlen := joinAcceptBody_length fd
  have hblocks : 16 * ((fd.joinAcceptLen - 1) / 16) = fd.joinAcceptLen - 1 := by
    unfold FrameDesc.joinAcceptLen
    split <;> rfl
  refine mapBlocks_mapBlocks _ _ (aes_aesInv key) _ _ ?_
  rw [List.length_append, hmic]
  omega

/-- Settles O20: the plaintext stands in WBUF again, and the fields are read from it. -/
theorem roundTripJoinAccept : Obligations.RoundTripJoinAccept := by
  intro s t fd msg htype hexec hok hmsg
  obtain rfl : msg = mhdr 1 :: joinAcceptBody s.fd := by
    rw [hmsg, joinAcceptBody, s.fd.ja.dlSettings_eq, s.fd.ja.rxDelayByte_eq]
    rfl
  obtain ⟨out, hout, hlt, ht⟩ := encoded_of_ok hexec hok
  obtain rfl := Option.some.inj ((encodeFrame_joinAccept htype).symm.trans hout)
  have hframeLen := ht.reload_frameLen hlt s.keys fd
  have hholds := ht.reload_holds s.keys fd
  have hkeys : (t.reload s.keys fd).keys = s.keys := rfl
  have hfd : (t.reload s.keys fd).fd = fd := rfl
  generalize t.reload s.keys fd = r at *
  have hlen := encJoinAccept_length s.fd s.keys
  rw [hlen] at hframeLen
  rw [encJoinAccept_eq] at hholds hlen
  obtain ⟨hmhdr, hcipher⟩ := (r.holds_cons 0 _ _).1 hholds
  obtain ⟨hwire, hmajor⟩ := wireType_of_mhdr (ty := 1) hmhdr
  have hsize : s.fd.joinAcceptLen = if s.fd.ja.cfListPresent then 33 else 17 := rfl
  have hbad : ¬ BadFrame r := by
    simp [BadFrame, hframeLen, hwire, hmajor, hsize]
    split <;> decide
  obtain ⟨u, hu, -, hend, -, -, -, -, hu0, hplain, -, hufd⟩ := decodeJoinAcceptFields r hbad hwire
  have hmsgLen : (mhdr 1 :: joinAcceptBody s.fd).length = s.fd.joinAcceptLen - 4 := by
    have := joinAcceptBody_length s.fd
    rw [List.length_cons]
    omega
  have hwhole : u.Holds 0 (mhdr 1 :: joinAcceptBody s.fd ++
      mic32 (cmacTag s.keys.app (mhdr 1 :: joinAcceptBody s.fd))) := by
    refine (u.holds_cons 0 _ _).2 ⟨hu0.trans hmhdr, ?_⟩
    rw [List.length_cons] at hlen
    rw [State.Holds, Nat.eq_sub_of_add_eq hlen, Nat.zero_add] at hcipher
    rw [hframeLen, hkeys, hcipher, decipher_encJoinAccept _ _ _ rfl] at hplain
    exact .of_eq hplain
  obtain ⟨humsg, humic⟩ := (u.holds_append 0 _ _).1 hwhole
  rw [State.Holds, hmsgLen] at humsg
  rw [State.Holds, hmsgLen, Nat.zero_add, mic32_length] at humic
  refine ⟨u, hu, ?_, ?_, ?_⟩
  · rw [hend.result, hframeLen, hkeys, humsg, humic, if_pos rfl]
  · have hsplit := u.wbufBytes_add 0 (s.fd.joinAcceptLen - 4) 4
    rwa [Nat.zero_add, humsg, humic, Nat.sub_add_cancel (by rw [hsize]; split <;> decide)] at hsplit
  · have layout := hwhole.joinAcceptLayout
    obtain ⟨hoff, hdr, hdelay⟩ := s.fd.ja.fields_of_bytes
    rw [hufd, hfd, layout.appNonce, layout.netId, layout.devAddr, layout.dlSettings, layout.rxDelay, hoff, hdr,
      hdelay, wordLe_le, ofNat_uintLe_le _ (by decide), ofNat_uintLe_le _ (by decide), hframeLen, hsize]
    cases hcf : s.fd.ja.cfListPresent with
    | false => simp [← hcf]
    | true => simp [← hcf, layout.cfList hcf]

/-! ## The data frame -/

/-- FOptsLen is read back from FCtrl (rule R164). -/
theorem DataLayout.wireOptsLen {fd : FrameDesc} {keys : Keys} {plain : List Byte} {t : State}
    (h : DataLayout fd keys plain t) (hb : fd.Buildable) : (t.wbuf 5).toNat % 16 = fd.len.optsLen.toNat := by
  have hopts := hb.1
  obtain ⟨-, -, -, -, hol⟩ := fCtrl_bits fd.type fd.flags (fd.len.optsLen.setWidth 4)
  rw [h.fCtrl, hol, BitVec.toNat_setWidth]
  omega

/-- The frame has a port exactly when it is longer than its header and MIC (rule R164). -/
theorem FrameDesc.portPresent_eq (fd : FrameDesc) :
    fd.flags.portPresent = decide (12 + fd.len.optsLen.toNat < fd.dataFrameLen) := by
  unfold FrameDesc.dataFrameLen
  cases fd.flags.portPresent with
  | false => simp
  | true =>
    rw [if_pos rfl, eq_comm, decide_eq_true_eq]
    omega

/-- The payload is what the length leaves of a frame with a port, and nothing without one (rule R164). -/
theorem FrameDesc.Buildable.dataLen_eq {fd : FrameDesc} (hb : fd.Buildable) : fd.len.dataLen.toNat =
    if fd.flags.portPresent then fd.dataFrameLen - 13 - fd.len.optsLen.toNat else 0 := by
  unfold FrameDesc.dataFrameLen
  obtain ⟨-, hport⟩ := hb
  cases hpres : fd.flags.portPresent with
  | false =>
    have hdata : fd.len.dataLen = 0 := by simpa [hpres] using hport
    rw [hdata]
    rfl
  | true =>
    rw [if_pos rfl, if_pos rfl]
    omega

/-- A data frame that ENCODE built is well formed. -/
theorem DataLayout.not_badFrame {fd : FrameDesc} {keys : Keys} {plain : List Byte} {t : State}
    (h : DataLayout fd keys plain t) (hb : fd.Buildable) (hlo : 2 ≤ fd.type.toNat) (hhi : fd.type.toNat ≤ 5)
    (hlen : t.frameLen = fd.dataFrameLen) : ¬ BadFrame t := by
  obtain ⟨hwire, hmajor⟩ := wireType_of_mhdr h.mhdr
  have hle : 12 + fd.len.optsLen.toNat ≤ t.frameLen := by
    rw [hlen, FrameDesc.dataFrameLen]
    split <;> omega
  rw [BadFrame, hwire, t.wireOptsLen_eq, h.wireOptsLen hb]
  rintro (h | h | h | ⟨h, -⟩ | ⟨h, -⟩ | ⟨-, h⟩)
  · omega
  · omega
  · exact h hmajor
  · simp [h] at hlo
  · simp [h] at hlo
  · omega

/-- Settles O21: the header is read where ENCODE wrote it, the MIC is over the same bytes, and the keystream of
the same counter takes the cipher off the payload. -/
theorem roundTripDataFrame : Obligations.RoundTripDataFrame := by
  intro s t fd hlo hhi hcnt hexec hok
  obtain ⟨out, hout, hlt, ht⟩ := encoded_of_ok hexec hok
  obtain ⟨h, -⟩ | ⟨h, -⟩ | ⟨-, -, hb, rfl, hlen⟩ := encodeFrame_cases hout
  · simp [h] at hlo
  · simp [h] at hlo
  have hframeLen := (ht.reload_frameLen hlt s.keys fd).trans hlen
  have layout := (ht.reload_holds s.keys fd).dataLayout hb (s.pbufBytes_length 0 s.fd.len.dataLen.toNat)
  have hkeys : (t.reload s.keys fd).keys = s.keys := rfl
  have hfd : (t.reload s.keys fd).fd = fd := rfl
  generalize t.reload s.keys fd = r at *
  have hwire := (wireType_of_mhdr layout.mhdr).1
  have hdown : isDown s.fd.type = !isUp s.fd.type := rfl
  obtain ⟨u, hu, -, hend, -, -, -, -, hplain, -, hufd⟩ :=
    decodeDataFrameFields r s.fd.len.optsLen.toNat s.fd.len.dataLen.toNat
      (if s.fd.flags.portPresent then 9 + s.fd.len.optsLen.toNat else 0) s.fd.flags.portPresent
      (layout.not_badFrame hb hlo hhi hframeLen) (hwire ▸ hlo) (layout.wireOptsLen hb).symm
      (hframeLen ▸ s.fd.portPresent_eq) (hframeLen ▸ hb.dataLen_eq) rfl
  rw [hwire, hkeys, layout.devAddr, layout.fCnt, wordLe_le, wordLe_le_two hcnt] at hend hplain
  refine ⟨u, hu, ?_, fun hpres => ?_, ?_⟩
  · rw [hend.result, hframeLen, layout.msg, layout.mic, hdown]
    exact if_pos rfl
  · have hpl := hplain hpres
    rw [if_pos hpres, layout.port hpres, layout.payload hpres] at hpl
    exact hpl.trans (ctrXor_ctrXor _ _ _ _ _)
  · obtain ⟨hadr, hreq, hack, hpending, -⟩ :=
      fCtrl_bits s.fd.type s.fd.flags (s.fd.len.optsLen.setWidth 4)
    rw [hufd, hfd, hwire, layout.devAddr, layout.fCnt, wordLe_le, wordLe_le_two hcnt, layout.fCtrl, hadr, hreq,
      hack, hpending, layout.opts, hdown]
    cases hpres : s.fd.flags.portPresent with
    | false => simp [hpres]
    | true => simp [layout.port hpres, hpres, BitVec.ofNat_add]

end Sys2Proof.Machine

/-! The channel engine and time (O42, O44 and O45; 42_channel_engine.md rules R273, R297 and R298): the bounds of
the airtime formula, the round robin of a band that is alone eligible, and the wait after a transmission. -/

namespace Sys2Proof.Machine

open Sys2Proof

/-! ## The airtime -/

/-- The bandwidth divides the symbol's dividend, and the symbol time is divisible by 4 (rule R273). -/
theorem symbolTime_exact {sf bw : Nat} (hsf : 6 ≤ sf ∧ sf ≤ 12) (hbw : bw ≤ 2) :
    symbolTime sf bw * bwHz bw = 2 ^ sf * 1000000 ∧ symbolTime sf bw % 4 = 0 := by
  obtain ⟨hlo, hhi⟩ := hsf
  interval_cases sf <;> interval_cases bw <;> decide

/-- The payload symbols of each pair of codes lie between 8 and what makes the airtime's bound (rule R273). -/
theorem payloadSymbols_bounds {sf bw len : Nat} (hsf : 6 ≤ sf ∧ sf ≤ 12) (hbw : bw ≤ 2) (hlen : len ≤ 255) :
    8 ≤ payloadSymbols sf bw len ∧
      12 * symbolTime sf bw + symbolTime sf bw / 4 +
        (payloadSymbols sf bw len).toNat * symbolTime sf bw ≤ 9019392 := by
  obtain ⟨hlo, hhi⟩ := hsf
  interval_cases sf <;> interval_cases bw <;>
    simp [payloadSymbols, symbolTime, bwHz, headerOn, lowDataRate, ceilDiv] <;> omega

/-- Settles O42: code pair by code pair. -/
theorem airtimeIsBounded : Obligations.AirtimeIsBounded := by
  intro sf bw len hlen hbw hsf
  by_cases hfsk : sf = 0 ∨ bw = 3
  · have hzero : airtime sf bw len = 0 := if_pos hfsk
    refine ⟨by omega, fun _ => hzero, fun h h' => ?_⟩
    omega
  · have hcodes : (6 ≤ sf ∧ sf ≤ 12) ∧ bw ≤ 2 := by omega
    obtain ⟨hmin, hmax⟩ := payloadSymbols_bounds hcodes.1 hcodes.2 hlen
    have hair : airtime sf bw len = _ := if_neg hfsk
    exact ⟨hair ▸ hmax, fun h => absurd h hfsk, fun _ _ => ⟨hmin, symbolTime_exact hcodes.1 hcodes.2⟩⟩

/-! ## The wait after a transmission -/

/-- A ready-time that does not wrap is now plus the off-time (rule R272). -/
theorem readyAfter_toNat {now : Time} {air : Nat} {factor : Word} (h : now.toNat + air * factor.toNat < 2 ^ 64) :
    (readyAfter now air factor).toNat = now.toNat + air * factor.toNat := by
  rw [readyAfter, BitVec.toNat_ofNat, Nat.mod_eq_of_lt h]

/-- After a transmission the selected band's ready-time is now plus the off-time (rule R291). -/
theorem ChanEngine.Inv.readyOf_registerTx {ce : ChanEngine} (h : ce.Inv) {sel : Selection}
    (hsel : ce.sel = some sel) (p : RegionPort) (now : Time) (len : Nat) :
    (ChanEngine.registerTx p ce now len).readyOf sel.band =
      readyAfter now (txAirtime p ce.region ce.rate len) (p.askOffTime ce.region sel.band) := by
  obtain ⟨band, hband, -⟩ := h.sel_last sel hsel
  rw [ChanEngine.registerTx_of_some p hsel, (ChanEngine.cycleChannel_reselected _).readyOf,
    ChanEngine.readyOf_setReady_same hband]

/-- Settles O45: the ready-time set is read back, and what is left of it at the later time is the wait. -/
theorem dutyCycleIsMonotone : Obligations.DutyCycleIsMonotone := by
  intro s t args sel sel' off now' hinv hsel hexec hsel' hband hoff hwrap hnow
  have hlater : ({ t with args := args } : State).nowArg.toNat = now' := (State.nowArg_toNat _).trans hnow.symm
  have hready : (t.ce.readyOf sel.band).toNat = s.nowArg.toNat + off := by
    cases hexec
    rw [State.finish_ce, State.setCe_ce, hinv.channels.readyOf_registerTx hsel, hoff]
    exact readyAfter_toNat (hoff ▸ hwrap)
  refine ⟨_, exec_ceWaitTime _, (toNat_two_words _).trans ?_⟩
  rw [ChanEngine.waitTime_toNat hsel', hlater, hband, hready]

/-! ## The round robin -/

/-- Band `b` alone has eligible channels. -/
def ChanEngine.OnlyBand (ce : ChanEngine) (b : Nat) : Prop :=
  ∀ (b' : Nat) (band : Band), ce.bands[b']? = some band → b' ≠ b → band.num = 0

/-- Recomputing the selection keeps the band that is alone eligible. -/
theorem ChanEngine.OnlyBand.reselected {ce ce' : ChanEngine} {b : Nat} (h : ce.OnlyBand b)
    (hkeep : ChanEngine.Reselected ce ce') : ce'.OnlyBand b := by
  intro b' band hb' hne
  have hnum := congrArg (·[b']?) hkeep.num
  simp only [List.getElem?_map, hb', Option.map_some] at hnum
  obtain ⟨band₀, hb₀, hnum₀⟩ := Option.map_eq_some_iff.1 hnum.symm
  rw [← hnum₀]
  exact h b' band₀ hb₀ hne

theorem ChanEngine.Reselected.eligibleAt {ce ce' : ChanEngine} (h : ChanEngine.Reselected ce ce') (b c : Nat) :
    ce'.eligibleAt b c = ce.eligibleAt b c := by
  rw [ChanEngine.eligibleAt, h.chans]
  rfl

/-- How many of the first `n` slots of the scan from `start` on, wrapping at the capacity, are eligible in band
`b`. -/
def ChanEngine.liveWithin (ce : ChanEngine) (b start n : Nat) : Nat :=
  Nat.count (fun j => ce.eligibleAt b ((start + j) % ce.nch) = true) n

theorem ChanEngine.liveWithin_add (ce : ChanEngine) (b start m n : Nat) :
    ce.liveWithin b start (m + n) = ce.liveWithin b start m + ce.liveWithin b (start + m) n := by
  simp only [ChanEngine.liveWithin, Nat.count_add, Nat.add_assoc]

/-- The count of a scan depends on the slot it starts at only. -/
theorem ChanEngine.liveWithin_congr {ce ce' : ChanEngine} (hkeep : ChanEngine.Reselected ce ce')
    {start start' : Nat} (h : start % ce.nch = start' % ce.nch) (b n : Nat) :
    ce'.liveWithin b start' n = ce.liveWithin b start n := by
  have hslot (j : Nat) : (start + j) % ce.nch = (start' + j) % ce.nch := Nat.ModEq.add_right j h
  simp only [ChanEngine.liveWithin, hkeep.nch, hkeep.eligibleAt, hslot]

/-- A scan of the first slots of the table counts what stands in them. -/
theorem ChanEngine.liveWithin_zero (ce : ChanEngine) (b : Nat) {n : Nat} (hn : n ≤ ce.nch) :
    ce.liveWithin b 0 n = (ce.chans.take n).countP (fun ch => ch.eligible b) := by
  induction n with
  | zero => simp [ChanEngine.liveWithin]
  | succ n ih =>
    have hslot : ce.chans[n]? = some ce.chans[n] := List.getElem?_eq_getElem hn
    rw [List.take_add_one, List.countP_append, ← ih (by omega), ChanEngine.liveWithin, Nat.count_succ,
      Nat.zero_add, Nat.mod_eq_of_lt hn, ChanEngine.eligibleAt, hslot]
    simp [List.countP_cons, ChanEngine.liveWithin]

/-- A scan of the whole table counts every eligible slot of the band once. -/
theorem ChanEngine.liveWithin_nch (ce : ChanEngine) (b start : Nat) :
    ce.liveWithin b start ce.nch = ce.liveCount b := by
  have hzero : ce.liveWithin b 0 ce.nch = ce.liveCount b := by
    rw [ce.liveWithin_zero b (Nat.le_refl _), ChanEngine.nch, List.take_length, ChanEngine.liveCount]
  have hleft := ce.liveWithin_add b 0 start ce.nch
  have hright := ce.liveWithin_add b 0 ce.nch start
  have hwrap := ChanEngine.liveWithin_congr (.refl ce) (start := 0) (start' := ce.nch) (by simp) b start
  rw [Nat.add_comm] at hright
  simp only [Nat.zero_add] at hleft hright
  omega

/-- Every slot is some steps after any start of the scan. -/
theorem exists_scan_offset {n c : Nat} (hc : c < n) (start : Nat) : ∃ d, d < n ∧ (start + d) % n = c := by
  have hstart := Nat.mod_lt start (Nat.zero_lt_of_lt hc)
  refine ⟨(c + (n - start % n)) % n, Nat.mod_lt _ (Nat.zero_lt_of_lt hc), ?_⟩
  rw [Nat.add_mod_mod, ← Nat.mod_add_mod, show start % n + (c + (n - start % n)) = c + n by omega,
    Nat.add_mod_right, Nat.mod_eq_of_lt hc]

/-- With band `b` alone eligible, recomputing the selection chooses its first eligible slot from the scan's start
on. -/
theorem ChanEngine.Accounted.cycleChannel_onlyBand {ce : ChanEngine} (h : ce.Accounted) {b c : Nat}
    (honly : ce.OnlyBand b) (he : ce.eligibleAt b c = true) :
    ∃ k, ce.cycleChannel = ce.choose b ((ce.scanStart b + k) % ce.nch) ∧
      ce.eligibleAt b ((ce.scanStart b + k) % ce.nch) = true ∧
      ∀ j, j < k → ce.eligibleAt b ((ce.scanStart b + j) % ce.nch) = false := by
  obtain ⟨band, hband⟩ : ∃ band, ce.bands[b]? = some band := ⟨_, List.getElem?_eq_getElem (h.band he)⟩
  have hnum : band.num ≠ 0 := by
    have := h.num_pos he hband
    bv_omega
  have hbest : ce.bestBand = some b := by
    refine ChanEngine.bestBand_eq_some hband hnum fun b' band' hb' hnum' => ?_
    obtain rfl : b' = b := by
      by_contra hne
      exact hnum' (honly b' band' hb' hne)
    obtain rfl := Option.some.inj (hb'.symm.trans hband)
    exact ⟨BitVec.le_refl _, fun _ => Nat.le_refl _⟩
  cases hslot : ce.nextSlot b with
  | none =>
    obtain ⟨ch, hch, -⟩ := (ce.eligibleAt_iff b c).1 he
    simp [ce.nextSlot_none b hslot c (List.getElem?_eq_some_iff.1 hch).1] at he
  | some c' =>
    obtain ⟨hlive, -, k, -, rfl, hfirst⟩ := ce.nextSlot_some b c' hslot
    exact ⟨k, ChanEngine.cycleChannel_of_nextSlot_some hbest hslot, hlive, hfirst⟩

/-- After slot `c` of a band of the table was chosen, the band's scan starts just past it. -/
theorem ChanEngine.scanStart_choose {ce : ChanEngine} {b : Nat} (hb : b < ce.nband) (c : Nat) :
    (ce.choose b c).scanStart b = c + 1 := by
  have hband : ce.bands[b]? = some ce.bands[b] := List.getElem?_eq_getElem hb
  simp [ChanEngine.scanStart, ChanEngine.choose, hband]

/-- With band `b` alone eligible, the eligible slot `d` steps after the scan's start is selected within as many
recomputations as there are eligible slots up to it. -/
theorem ChanEngine.Accounted.cycles_sel {ce : ChanEngine} (h : ce.Accounted) {b : Nat} (honly : ce.OnlyBand b)
    (d : Nat) (he : ce.eligibleAt b ((ce.scanStart b + d) % ce.nch) = true) :
    ∃ k, 1 ≤ k ∧ k ≤ ce.liveWithin b (ce.scanStart b) (d + 1) ∧
      (ChanEngine.cycles k ce).sel = some ⟨b, (ce.scanStart b + d) % ce.nch⟩ := by
  induction d using Nat.strong_induction_on generalizing ce with
  | _ d ih =>
    obtain ⟨k, hcycle, hlive, hfirst⟩ := h.cycleChannel_onlyBand honly he
    have hpos : 1 ≤ ce.liveWithin b (ce.scanStart b) (k + 1) := by
      rw [ChanEngine.liveWithin, Nat.count_succ, if_pos hlive]
      omega
    obtain hlt | rfl | hgt := Nat.lt_trichotomy k d
    · have hkeep := ce.cycleChannel_reselected
      obtain ⟨d', rfl⟩ : ∃ d', d = k + 1 + d' := ⟨d - (k + 1), by omega⟩
      have hstart : ce.cycleChannel.scanStart b = (ce.scanStart b + k) % ce.nch + 1 := by
        rw [hcycle, ChanEngine.scanStart_choose (h.band he)]
      have hmod : (ce.scanStart b + k + 1) % ce.nch = ce.cycleChannel.scanStart b % ce.nch := by
        rw [hstart, Nat.mod_add_mod]
      have hslot : (ce.cycleChannel.scanStart b + d') % ce.cycleChannel.nch =
          (ce.scanStart b + (k + 1 + d')) % ce.nch := by
        rw [hkeep.nch, Nat.add_mod, ← hmod, ← Nat.add_mod]
        congr 1
        omega
      obtain ⟨k', -, hk', hsel⟩ := ih d' (by omega) h.cycleChannel.1.accounted (honly.reselected hkeep)
        (by rwa [hslot, hkeep.eligibleAt])
      refine ⟨k' + 1, by omega, ?_, hslot ▸ hsel⟩
      rw [ChanEngine.liveWithin_congr hkeep hmod] at hk'
      rw [Nat.add_assoc, ce.liveWithin_add, ← Nat.add_assoc]
      omega
    · exact ⟨1, Nat.le_refl 1, hpos, by rw [ChanEngine.cycles, hcycle]; rfl⟩
    · simp [hfirst d hgt] at he

/-- Settles O44: the channel stands somewhere in one scan of the table, which counts each eligible channel
once. -/
theorem roundRobinVisitsEveryChannel : Obligations.RoundRobinVisitsEveryChannel := by
  intro ce b c hinv honly he
  obtain ⟨ch, hch, -⟩ := (ce.eligibleAt_iff b c).1 he
  obtain ⟨d, hd, rfl⟩ := exists_scan_offset (List.getElem?_eq_some_iff.1 hch).1 (ce.scanStart b)
  obtain ⟨k, hpos, hk, hsel⟩ := hinv.accounted.cycles_sel honly d he
  refine ⟨k, hpos, hk.trans ?_, hsel⟩
  rw [← ce.liveWithin_nch b (ce.scanStart b)]
  exact Nat.count_monotone _ hd

end Sys2Proof.Machine

/-! The register map (O50 and O51; 10_state.md rule R31, 70_reset_and_hazards.md rule R402): which offset is which
register's, and what every register reads after a reset. -/

namespace Sys2Proof

/-! ## The map -/

section Ranges

variable {nch nband o : Nat}

theorem regAt_single (hhi : o < 0x080) : regAt nch nband o = singleAt o := if_pos hhi

theorem regAt_packed (hlo : 0x080 ≤ o) (hhi : o < 0x100) : regAt nch nband o = packedAt o := by
  rw [regAt, if_neg (by omega), if_pos hhi]

theorem regAt_wbuf (hlo : 0x100 ≤ o) (hhi : o < 0x200) :
    regAt nch nband o = some (.wbuf ((o - 0x100) / 4)) := by
  rw [regAt, if_neg (by omega), if_neg (by omega), if_pos hhi]

theorem regAt_pbuf (hlo : 0x200 ≤ o) (hhi : o < 0x300) :
    regAt nch nband o = some (.pbuf ((o - 0x200) / 4)) := by
  rw [regAt, if_neg (by omega), if_neg (by omega), if_neg (by omega), if_pos hhi]

theorem regAt_ceScalar (hlo : 0x300 ≤ o) (hhi : o < 0x400) : regAt nch nband o = ceScalarAt o := by
  rw [regAt, if_neg (by omega), if_neg (by omega), if_neg (by omega), if_neg (by omega), if_pos hhi]

theorem regAt_channel (hlo : 0x400 ≤ o) (hhi : o < 0x600) : regAt nch nband o = channelAt nch o := by
  rw [regAt, if_neg (by omega), if_neg (by omega), if_neg (by omega), if_neg (by omega), if_neg (by omega),
    if_pos hhi]

theorem regAt_band (hlo : 0x600 ≤ o) (hhi : o < 0x800) : regAt nch nband o = bandAt nband o := by
  rw [regAt, if_neg (by omega), if_neg (by omega), if_neg (by omega), if_neg (by omega), if_neg (by omega),
    if_neg (by omega), if_pos hhi]

theorem regAt_past (hlo : 0x800 ≤ o) : regAt nch nband o = none := by
  rw [regAt, if_neg (by omega), if_neg (by omega), if_neg (by omega), if_neg (by omega), if_neg (by omega),
    if_neg (by omega), if_neg (by omega)]

end Ranges

/-- The registers of slot `i`, eight bytes a slot. -/
theorem channelAt_slot {nch i : Nat} (hi : i < nch) :
    channelAt nch (0x400 + 8 * i) = some (.chFreq i) ∧ channelAt nch (0x404 + 8 * i) = some (.chStat i) := by
  have word (k : Nat) (hk : k < 2) :
      (0x400 + 4 * k + 8 * i - 0x400) / 8 = i ∧ (0x400 + 4 * k + 8 * i - 0x400) % 8 = 4 * k := by omega
  constructor
  · simp only [channelAt, word 0 (by decide), if_neg (Nat.not_le.2 hi), if_true]
  · simp only [channelAt, word 1 (by decide), if_neg (Nat.not_le.2 hi)]
    rfl

/-- The registers of band `b`, sixteen bytes a band. -/
theorem bandAt_slot {nband b : Nat} (hb : b < nband) :
    bandAt nband (0x600 + 16 * b) = some (.bandReadyLo b) ∧
    bandAt nband (0x604 + 16 * b) = some (.bandReadyHi b) ∧
    bandAt nband (0x608 + 16 * b) = some (.bandLast b) ∧
    bandAt nband (0x60C + 16 * b) = some (.bandNum b) := by
  have word (k : Nat) (hk : k < 4) :
      (0x600 + 4 * k + 16 * b - 0x600) / 16 = b ∧ (0x600 + 4 * k + 16 * b - 0x600) % 16 / 4 = k := by omega
  refine ⟨?_, ?_, ?_, ?_⟩
  · simp only [bandAt, word 0 (by decide), if_neg (Nat.not_le.2 hb)]
  · simp only [bandAt, word 1 (by decide), if_neg (Nat.not_le.2 hb)]
  · simp only [bandAt, word 2 (by decide), if_neg (Nat.not_le.2 hb)]
  · simp only [bandAt, word 3 (by decide), if_neg (Nat.not_le.2 hb)]

/-- A register that is present stands at its own offset. -/
theorem regAt_offset {nch nband : Nat} (hnch : nch ≤ 64) (hnband : nband ≤ 32) {r : Reg}
    (h : r.present nch nband = true) :
    r.offset % 4 = 0 ∧ r.offset < 0x800 ∧ regAt nch nband r.offset = some r := by
  cases r with
  | arg k | res k | fdCfList k | fdOpts k | keyApp k | keyNwkS k | keyAppS k | blk k =>
    fin_cases k <;> exact ⟨rfl, by decide, rfl⟩
  | wbuf k =>
    have hk := of_decide_eq_true h
    simp only [Reg.offset]
    refine ⟨by omega, by omega, ?_⟩
    rw [regAt_wbuf (by omega) (by omega), Nat.add_sub_cancel_left, Nat.mul_div_cancel_left k (by decide)]
  | pbuf k =>
    have hk := of_decide_eq_true h
    simp only [Reg.offset]
    refine ⟨by omega, by omega, ?_⟩
    rw [regAt_pbuf (by omega) (by omega), Nat.add_sub_cancel_left, Nat.mul_div_cancel_left k (by decide)]
  | chFreq i | chStat i =>
    have hi := of_decide_eq_true h
    simp only [Reg.offset]
    refine ⟨by omega, by omega, ?_⟩
    rw [regAt_channel (by omega) (by omega)]
    simp only [channelAt_slot hi]
  | bandReadyLo b | bandReadyHi b | bandLast b | bandNum b =>
    have hb := of_decide_eq_true h
    simp only [Reg.offset]
    refine ⟨by omega, by omega, ?_⟩
    rw [regAt_band (by omega) (by omega)]
    simp only [bandAt_slot hb]
  | _ => exact ⟨rfl, by decide, rfl⟩

/-- A register that stands alone is found at its own offset. -/
theorem offset_of_singleAt {nch nband o : Nat} {r : Reg} (h : singleAt o = some r) :
    r.offset = o ∧ r.present nch nband = true := by
  unfold singleAt at h
  split at h <;> cases h <;> exact ⟨rfl, rfl⟩

theorem offset_of_packedAt {nch nband o : Nat} {r : Reg} (ho : o % 4 = 0) (h : packedAt o = some r) :
    r.offset = o ∧ r.present nch nband = true := by
  unfold packedAt at h
  simp only at h
  split at h <;> cases h
  all_goals
    refine ⟨?_, rfl⟩
    simp only [Reg.offset, Fin.val_ofNat]
    omega

theorem offset_of_ceScalarAt {nch nband o : Nat} {r : Reg} (h : ceScalarAt o = some r) :
    r.offset = o ∧ r.present nch nband = true := by
  unfold ceScalarAt at h
  split at h <;> cases h <;> exact ⟨rfl, rfl⟩

theorem offset_of_channelAt {nch nband o : Nat} {r : Reg} (ho : o % 4 = 0) (hlo : 0x400 ≤ o)
    (h : channelAt nch o = some r) : r.offset = o ∧ r.present nch nband = true := by
  unfold channelAt at h
  simp only at h
  split at h
  · cases h
  · split at h <;> cases h <;> simp only [Reg.offset, Reg.present, decide_eq_true_eq] <;> omega

theorem offset_of_bandAt {nch nband o : Nat} {r : Reg} (ho : o % 4 = 0) (hlo : 0x600 ≤ o)
    (h : bandAt nband o = some r) : r.offset = o ∧ r.present nch nband = true := by
  unfold bandAt at h
  simp only at h
  split at h
  · cases h
  · obtain hw | hw | hw | hw : (o - 0x600) % 16 / 4 = 0 ∨ (o - 0x600) % 16 / 4 = 1 ∨
        (o - 0x600) % 16 / 4 = 2 ∨ (o - 0x600) % 16 / 4 = 3 := by omega
    all_goals
      rw [hw] at h
      cases h
      simp only [Reg.offset, Reg.present, decide_eq_true_eq]
      omega

/-- The register an aligned offset names has that offset and is present. -/
theorem offset_of_regAt {nch nband o : Nat} {r : Reg} (ho : o % 4 = 0) (h : regAt nch nband o = some r) :
    r.offset = o ∧ r.present nch nband = true := by
  obtain hr | hr | hr | hr | hr | hr | hr | hr : o < 0x080 ∨ (0x080 ≤ o ∧ o < 0x100) ∨ (0x100 ≤ o ∧ o < 0x200) ∨
      (0x200 ≤ o ∧ o < 0x300) ∨ (0x300 ≤ o ∧ o < 0x400) ∨ (0x400 ≤ o ∧ o < 0x600) ∨ (0x600 ≤ o ∧ o < 0x800) ∨
      0x800 ≤ o := by omega
  · exact offset_of_singleAt ((regAt_single hr).symm.trans h)
  · exact offset_of_packedAt ho ((regAt_packed hr.1 hr.2).symm.trans h)
  · cases (regAt_wbuf hr.1 hr.2).symm.trans h
    simp only [Reg.offset, Reg.present, decide_eq_true_eq]
    omega
  · cases (regAt_pbuf hr.1 hr.2).symm.trans h
    simp only [Reg.offset, Reg.present, decide_eq_true_eq]
    omega
  · exact offset_of_ceScalarAt ((regAt_ceScalar hr.1 hr.2).symm.trans h)
  · exact offset_of_channelAt ho hr.1 ((regAt_channel hr.1 hr.2).symm.trans h)
  · exact offset_of_bandAt ho hr.1 ((regAt_band hr.1 hr.2).symm.trans h)
  · cases (regAt_past hr).symm.trans h

/-- Settles O50: range by range of the window. -/
theorem registerMapRoundTrip : Obligations.RegisterMapRoundTrip := fun _ _ hnch hnband =>
  ⟨fun _ => regAt_offset hnch hnband, fun _ _ => offset_of_regAt⟩

end Sys2Proof

namespace Sys2Proof.Machine

open Sys2Proof

/-! ## The reset values -/

theorem ChanEngine.empty_viewSlot {nch nband i : Nat} (hi : i < nch) (view : Channel → Word) :
    (ChanEngine.empty nch nband).viewSlot i view = view Channel.empty := by
  simp [ChanEngine.viewSlot, ChanEngine.empty, hi]

theorem ChanEngine.empty_viewBand {nch nband b : Nat} (hb : b < nband) (view : Band → Word) :
    (ChanEngine.empty nch nband).viewBand b view = view Band.empty := by
  simp [ChanEngine.viewBand, ChanEngine.empty, hb]

theorem Block.word_zero (j : Fin 4) : Block.zero.word j = 0 := by
  fin_cases j <;> decide

/-- The registers packed of several fields are 0 when their fields are. -/
theorem FrameDesc.zero_packed :
    FrameDesc.zero.flags.word = 0 ∧ FrameDesc.zero.len.word = 0 ∧ FrameDesc.zero.ja.word = 0 := by decide

/-- CFG shows legal capacities whole. -/
theorem State.init_readReg_cfg (port : RegionPort) {nch nband : Nat} (mem : Memory) (host : HostAgent)
    (hnch : nch ≤ 64) (hnband : nband ≤ 32) :
    ((State.init port nch nband mem host).readReg .cfg).toNat = nch + 256 * nband := by
  rw [State.readReg_cfg, fourBytes_toNat]
  change (natByte (ChanEngine.empty nch nband).nch).toNat + 256 * (natByte (ChanEngine.empty nch nband).nband).toNat
    + 65536 * 0 + 16777216 * 0 = _
  rw [ChanEngine.empty_nch, ChanEngine.empty_nband, natByte, natByte, BitVec.toNat_ofNat, BitVec.toNat_ofNat]
  omega

/-- Settles O51: the slots of the tables are empty, CFG shows the capacities, and every other register is a
constant of the reset state. -/
theorem resetValuesOfEveryRegister : Obligations.ResetValuesOfEveryRegister := by
  intro port nch nband mem host r hnch hnband hpres hbuf
  refine ⟨rfl, ?_⟩
  cases r with
  | cfg => exact State.init_readReg_cfg port mem host hnch hnband
  | arg k | res k => fin_cases k <;> rfl
  | fdCfList k | fdOpts k | blk k => exact congrArg BitVec.toNat (Block.word_zero k)
  | status => exact congrArg BitVec.toNat (show flagBit false 0 ||| flagBit false 1 ||| flagBit false 2 |||
      flagBit false 3 = 0 by decide)
  | ceRatePwr => exact congrArg BitVec.toNat (show fourBytes 0 0 0 0 = 0 by decide)
  | fdFlags => exact congrArg BitVec.toNat FrameDesc.zero_packed.1
  | fdLen => exact congrArg BitVec.toNat FrameDesc.zero_packed.2.1
  | fdJa => exact congrArg BitVec.toNat FrameDesc.zero_packed.2.2
  | wbuf k => exact absurd rfl (hbuf k).1
  | pbuf k => exact absurd rfl (hbuf k).2
  | chFreq i | chStat i =>
    exact congrArg BitVec.toNat (ChanEngine.empty_viewSlot (of_decide_eq_true hpres) _)
  | bandReadyLo b | bandReadyHi b | bandLast b | bandNum b =>
    exact congrArg BitVec.toNat (ChanEngine.empty_viewBand (of_decide_eq_true hpres) _)
  | _ => rfl

end Sys2Proof.Machine

/-! The host's writes and resets (O52, O54 and O56; 20_memory.md rules R105 and R109, 10_state.md rules R37 and R64,
70_reset_and_hazards.md rules R400 and R401). -/

namespace Sys2Proof.Machine

open Sys2Proof

/-! ## What a register's fields keep of a written word -/

/-- The low bits of a word, as a field of that width and as a mask. -/
theorem setWidth_extractLsb'_zero {n : Nat} (v : Word) (hn : n ≤ 32) :
    (v.extractLsb' 0 n).setWidth 32 = v &&& BitVec.ofNat 32 (2 ^ n - 1) := by
  have hpow : 2 ^ n ≤ 2 ^ 32 := Nat.pow_le_pow_right (by decide) hn
  have hpos : 0 < 2 ^ n := Nat.two_pow_pos n
  apply BitVec.eq_of_toNat_eq
  rw [BitVec.toNat_setWidth, BitVec.extractLsb'_toNat, BitVec.toNat_and, BitVec.toNat_ofNat, Nat.shiftRight_zero,
    Nat.mod_eq_of_lt (Nat.lt_of_lt_of_le (Nat.mod_lt _ hpos) hpow),
    Nat.mod_eq_of_lt (a := 2 ^ n - 1) (by omega), Nat.and_two_pow_sub_one_eq_mod]

theorem flagBit_getLsbD {k i : Nat} (b : Bool) (hi : i < 32) :
    (flagBit b k).getLsbD i = (b && decide (i = k)) := by
  cases b
  · simp [flagBit]
  · rw [flagBit, if_pos rfl, BitVec.natCast_eq_ofNat, BitVec.getLsbD_ofNat, Nat.one_shiftLeft, Nat.testBit_two_pow]
    simp [hi, eq_comm]

/-- Bit by bit: FD_FLAGS holds the low five bits. -/
theorem FrameFlags.word_ofWord (v : Word) : (FrameFlags.ofWord v).word = v &&& 0x1F := by
  apply BitVec.eq_of_getLsbD_eq
  intro i hi
  simp only [FrameFlags.word, FrameFlags.ofWord, BitVec.getLsbD_or, BitVec.getLsbD_and, flagBit_getLsbD _ hi]
  interval_cases i <;> simp

theorem FrameLen.word_ofWord (v : Word) : (FrameLen.ofWord v).word = v := Col.toWord_ofWord v

/-- Bit by bit: FD_JA holds bits 2:0, 7:4, 11:8 and 12. -/
theorem JoinFields.word_ofWord (v : Word) : (JoinFields.ofWord v).word = v &&& 0x1FF7 := by
  apply BitVec.eq_of_getLsbD_eq
  intro i hi
  simp only [JoinFields.word, JoinFields.ofWord, BitVec.getLsbD_append, BitVec.getLsbD_and, BitVec.getLsbD_extractLsb']
  interval_cases i <;> simp

theorem Quad.get_set_same (q : Quad) (k : Fin 4) (w : Word) : (q.set k w).get k = w := by
  fin_cases k <;> rfl

theorem Quad.get_set_other (q : Quad) (j k : Fin 4) (w : Word) (h : k ≠ j) : (q.set j w).get k = q.get k := by
  match j, k with
  | 0, 0 | 1, 1 | 2, 2 | 3, 3 => exact absurd rfl h
  | 0, 1 | 0, 2 | 0, 3 | 1, 0 | 1, 2 | 1, 3 | 2, 0 | 2, 1 | 2, 3 | 3, 0 | 3, 1 | 3, 2 => rfl

/-! ## A write of a writable register -/

theorem State.hostStore_of_idle {s : State} {r : Reg} (hidle : s.busy = false) (hr : r.writable = true) (v : Word) :
    s.hostStore r v = s.writeReg r v := by
  obtain ⟨rfl, -⟩ | ⟨rfl, -⟩ | ⟨-, hbusy, -⟩ | ⟨-, -, h⟩ | ⟨hro, -⟩ := hostStore_cases s r v
  · cases hr
  · cases hr
  · cases hidle.symm.trans hbusy
  · exact h
  · cases hro.symm.trans hr

/-- A register of the buffers lies inside them. -/
theorem buffer_word_bounds {k : Nat} (hk : k < 64) :
    wbufBase ≤ wbufBase + 4 * k ∧ wbufBase + 4 * k + 4 ≤ pbufBase ∧ wbufBase ≤ pbufBase + 4 * k ∧
      pbufBase + 4 * k + 4 ≤ bufEnd := by
  simp only [wbufBase, pbufBase, bufEnd]
  omega

theorem State.readReg_writeReg_same {s : State} {r : Reg} {nch nband : Nat} (hpres : r.present nch nband = true)
    (hr : r.writable = true) (v : Word) :
    (s.writeReg r v).readReg r = if r.isKey then 0 else v &&& definedBits r := by
  have whole : v = v &&& 0xFFFFFFFF := (BitVec.and_allOnes (x := v)).symm
  cases r with
  | keyApp j | keyNwkS j | keyAppS j => rfl
  | arg k => exact (s.args.get_set_same k v).trans whole
  | fdType => exact setWidth_extractLsb'_zero v (n := 3) (by decide)
  | fdFlags => exact FrameFlags.word_ofWord v
  | fdLen => exact (FrameLen.word_ofWord v).trans whole
  | fdPort => exact setWidth_extractLsb'_zero v (n := 8) (by decide)
  | fdDevNonce => exact setWidth_extractLsb'_zero v (n := 16) (by decide)
  | fdAppNonce | fdNetId => exact setWidth_extractLsb'_zero v (n := 24) (by decide)
  | fdJa => exact JoinFields.word_ofWord v
  | fdCfList j => exact (s.fd.cfList.word_setWord_same j v).trans whole
  | fdOpts j => exact (s.fd.opts.word_setWord_same j v).trans whole
  | blk j => exact (s.blk.word_setWord_same j v).trans whole
  | wbuf k =>
    obtain ⟨hlo, hhi, -⟩ := buffer_word_bounds (of_decide_eq_true hpres)
    exact (s.mem.readWord_writeWord _ v hlo (Nat.le_trans hhi (by decide))).trans whole
  | pbuf k =>
    obtain ⟨-, -, hlo, hhi⟩ := buffer_word_bounds (of_decide_eq_true hpres)
    exact (s.mem.readWord_writeWord _ v hlo hhi).trans whole
  | cmd | fdDevAddr | fdFCnt | fdAppEuiLo | fdAppEuiHi | fdDevEuiLo | fdDevEuiHi => exact whole
  | _ => cases hr

/-- A write of a register with an index: another register of its array is another element, and every other
register another field. A write of any other register writes a field no other register shows, CMD's STATUS
excepted. -/
theorem State.readReg_writeReg_other {s : State} {r r' : Reg} {nch nband : Nat} (hpres : r.present nch nband = true)
    (hpres' : r'.present nch nband = true) (hr : r.writable = true) (hne : r' ≠ r)
    (hstatus : r = .cmd → r' ≠ .status) (v : Word) : (s.writeReg r v).readReg r' = s.readReg r' := by
  cases r with
  | cmd =>
    cases r' with
    | cmd => exact absurd rfl hne
    | status => exact absurd rfl (hstatus rfl)
    | _ => rfl
  | arg j =>
    cases r' with
    | arg k => exact s.args.get_set_other j k v fun h => hne (congrArg _ h)
    | _ => rfl
  | fdCfList j =>
    cases r' with
    | fdCfList k => exact s.fd.cfList.word_setWord_other j k v fun h => hne (congrArg _ h)
    | _ => rfl
  | fdOpts j =>
    cases r' with
    | fdOpts k => exact s.fd.opts.word_setWord_other j k v fun h => hne (congrArg _ h)
    | _ => rfl
  | blk j =>
    cases r' with
    | blk k => exact s.blk.word_setWord_other j k v fun h => hne (congrArg _ h)
    | _ => rfl
  | wbuf j =>
    cases r' with
    | wbuf k =>
      have hjk : k ≠ j := fun h => hne (congrArg _ h)
      exact s.mem.readWord_writeWord_other _ _ v (by omega)
    | pbuf k =>
      have := buffer_word_bounds (of_decide_eq_true hpres)
      exact s.mem.readWord_writeWord_other _ _ v (by omega)
    | _ => rfl
  | pbuf j =>
    cases r' with
    | pbuf k =>
      have hjk : k ≠ j := fun h => hne (congrArg _ h)
      exact s.mem.readWord_writeWord_other _ _ v (by omega)
    | wbuf k =>
      have := buffer_word_bounds (of_decide_eq_true hpres')
      exact s.mem.readWord_writeWord_other _ _ v (by omega)
    | _ => rfl
  | keyApp j | keyNwkS j | keyAppS j => cases r' <;> rfl
  | fdType | fdFlags | fdLen | fdDevAddr | fdFCnt | fdPort | fdAppEuiLo | fdAppEuiHi | fdDevEuiLo | fdDevEuiHi
  | fdDevNonce | fdAppNonce | fdNetId | fdJa => cases r' <;> trivial
  | _ => cases hr

theorem State.writeReg_keys {r : Reg} (hr : r.isKey = false) (s : State) (v : Word) :
    (s.writeReg r v).keys = s.keys := by
  cases r with
  | keyApp _ | keyNwkS _ | keyAppS _ => cases hr
  | _ => rfl

/-- Settles O52: with no command pending a host write of a writable register is `writeReg`. -/
theorem writeThenReadBack : Obligations.WriteThenReadBack := by
  intro s r v hidle hpres hr
  rw [State.hostStore_of_idle hidle hr]
  refine ⟨State.readReg_writeReg_same hpres hr v,
    fun r' hpres' hne hstatus => State.readReg_writeReg_other hpres hpres' hr hne hstatus v,
    ?_, ?_, ?_, fun hkey => s.writeReg_keys hkey v⟩
  all_goals
    rintro j rfl
    rfl

/-! ## A write of STATUS -/

/-- STATUS shows its four flags (10_state.md rule R37). -/
theorem State.statusWord_bits (s : State) :
    s.statusWord.getLsbD 0 = s.busy ∧ s.statusWord.getLsbD 1 = s.done ∧
      s.statusWord.getLsbD 2 = s.errBusy ∧ s.statusWord.getLsbD 3 = s.ce.ifault ∧ s.statusWord.toNat < 16 := by
  unfold State.statusWord
  generalize s.busy = busy, s.done = done, s.errBusy = errBusy, s.ce.ifault = ifault
  revert busy done errBusy ifault
  decide

/-- Settles O54: the two flags a write of STATUS can clear, and the four it shows. -/
theorem statusBitsClearByWritingOne : Obligations.StatusBitsClearByWritingOne := by
  rintro s v t rfl
  have hstore : s.hostStore .status v = s.writeStatus v := rfl
  rw [hstore]
  refine ⟨rfl, fun hv => ?_, fun hv => ?_, fun hv => ?_, fun hv => ?_, s.statusWord_bits⟩ <;>
    simp only [State.writeStatus, hv, Bool.not_true, Bool.not_false, Bool.and_true, Bool.and_false]

/-! ## The hardware reset -/

/-- Settles O56: both resets take every field but the buffers from the reset state, and a hardware reset's
buffers depend on the count of resets alone. -/
theorem hardResetForgetsTheBuffers : Obligations.HardResetForgetsTheBuffers := by
  intro s
  refine ⟨s.nextLine.hardReset, rfl, ?_, rfl, fun m hm => ⟨_, rfl, fun o => ?_⟩⟩
  · rw [State.hostStore_ctrl_softReset (by decide)]
    rfl
  · change Memory.read ⟨[], m.resets + 1⟩ o = _
    rw [hm]
    rfl

end Sys2Proof.Machine

/-! The host port (O57 and O58; 20_memory.md rules R103 and R108): the effect of an access, and what a read shows. -/

namespace Sys2Proof.Machine

open Sys2Proof

theorem onBus_ok {offset : BitVec 12} (h : offset.toNat % 4 = 0) (s : State) : onBus offset 4 s = .next s := by
  simp [onBus, accessOk, h]

theorem onBus_busError {offset : BitVec 12} {width : Nat} (h : width ≠ 4 ∨ offset.toNat % 4 ≠ 0) (s : State) :
    onBus offset width s = .fault (.busError offset width) := by
  simp only [onBus, accessOk, ← Bool.decide_and, decide_eq_true_eq]
  exact if_neg fun hok => h.elim (absurd hok.1) (absurd hok.2)

theorem State.writeAt_reg {s : State} {o : Nat} {r : Reg} (h : regAt s.ce.nch s.ce.nband o = some r) (v : Word) :
    s.writeAt o v = s.hostStore r v := by
  simp [State.writeAt, h]

theorem State.readAt_reg {s : State} {o : Nat} {r : Reg} (h : regAt s.ce.nch s.ce.nband o = some r) :
    s.readAt o = s.readReg r := by
  simp [State.readAt, h]

/-- Settles O57: each line of the host is its effect, put on the bus. -/
theorem busErrorExactly : Obligations.BusErrorExactly :=
  ⟨fun _ _ _ _ _ => ⟨fun h => ⟨onBus_busError h _, onBus_busError h _⟩, fun h => onBus_busError (.inr h) _,
    fun h => ⟨onBus_ok h _, onBus_ok h _, onBus_ok h _⟩⟩,
   fun _ _ _ v h => ⟨State.writeAt_reg h v, State.readAt_reg h⟩⟩

/-- No register shows a key: the key registers read 0. -/
theorem State.readReg_of_keys (s : State) (keys : Keys) (r : Reg) :
    ({ s with keys := keys } : State).readReg r = s.readReg r := by
  cases r <;> rfl

/-- Settles O58: a read moves the host on and records a word, and that word is a register's, or 0. -/
theorem readsChangeNothingAndHideKeys : Obligations.ReadsChangeNothingAndHideKeys := by
  refine fun s o keys => ⟨fun h => onBus_ok h _, ?_⟩
  cases h : regAt s.ce.nch s.ce.nband o.toNat with
  | none => exact (State.readAt_reserved (s := { s with keys := keys }) h).trans (State.readAt_reserved h).symm
  | some r =>
    rw [State.readAt_reg h, ← s.readReg_of_keys keys r]
    exact State.readAt_reg (s := { s with keys := keys }) h

end Sys2Proof.Machine

/-! The two agents (O5, O6 and O60; 43_system.md rules R344 and R346, 20_memory.md rule R114): whose step is
next, that no command sees the host, and the WAIT. -/

namespace Sys2Proof.Machine

open Sys2Proof

/-! ## Whose step is next -/

theorem step_of_idle {s : State} (h : s.busy = false) : step s = hostStep s := by
  simp [step, nextStep, h]

theorem step_of_engine {s : State} (h : s.busy = true) (hturn : s.pendingTurn = .engine) :
    step s = engineStep s.nextTurn := by
  simp [step, nextStep, h, hturn]

theorem step_of_host {s : State} (h : s.busy = true) (hturn : s.pendingTurn = .host) :
    step s = hostStep s.nextTurn := by
  simp [step, nextStep, h, hturn]

theorem hostStep_of_line {s : State} {line : HostLine} (h : s.host.program.head? = some line) :
    hostStep s = hostLine line s := by
  simp [hostStep, State.line?, h]

theorem engineStep_of_command {s : State} {i : Instr} (h : decode s.cmd = .command i) :
    engineStep s = exec i s := by
  simp [engineStep, h]

/-- The host has the turn when the list names it and it has a line left (log entry 1). -/
theorem State.pendingTurn_host {s : State} {line : HostLine} (hturn : s.host.turns.head? = some .host)
    (hline : s.host.program.head? = some line) : s.pendingTurn = .host := by
  simp [State.pendingTurn, State.line?, hturn, hline]

/-- The engine has the turn when the list does not name the host (log entry 1). -/
theorem State.pendingTurn_engine {s : State} (h : s.host.turns.head? ≠ some .host) : s.pendingTurn = .engine := by
  unfold State.pendingTurn
  split
  · rename_i hturn _
    exact absurd hturn h
  · rfl

/-- Settles O5: the engine's turn is the engine step, and that runs the decoded command. -/
theorem stepRunsDecodedCommand : Obligations.StepRunsDecodedCommand := fun _ hbusy hturn =>
  ⟨step_of_engine hbusy hturn, fun _ hi => (step_of_engine hbusy hturn).trans (engineStep_of_command hi)⟩

/-- Settles O6: the turn list names either agent. -/
theorem eitherAgentMayStep : Obligations.EitherAgentMayStep := fun s _ hline =>
  ⟨fun hidle => (step_of_idle hidle).trans (hostStep_of_line hline),
   fun hbusy =>
    ⟨(step_of_host (s := { s with host := { s.host with turns := .host :: s.host.turns } }) hbusy
        (State.pendingTurn_host rfl hline)).trans (hostStep_of_line hline),
     step_of_engine (s := { s with host := { s.host with turns := .engine :: s.host.turns } }) hbusy
        (State.pendingTurn_engine (by simp))⟩⟩

/-! ## No command sees the host -/

/-- The state with another host. -/
def State.withHost (s : State) (host : HostAgent) : State := { s with host := host }

theorem withKey_withHost (ksel : BitVec 4) (s : State) (host : HostAgent) {e e' : Block → State × ResultCode}
    (he : ∀ k, e' k = ((e k).1.withHost host, (e k).2)) :
    withKey ksel (s.withHost host) e' = (withKey ksel s e).withHost host := by
  have hkey : (s.withHost host).keys.select ksel = s.keys.select ksel := rfl
  unfold withKey
  rw [hkey]
  cases s.keys.select ksel with
  | none => rfl
  | some k => exact congrArg (fun r => (r.1.zeroizeKeys).finish r.2) (he k)

theorem onRange_withHost {s t t' : State} {host : HostAgent} (ht : t' = t.withHost host) :
    onRange (s.withHost host) t' = ((onRange s t).1.withHost host, (onRange s t).2) := by
  rw [ht]
  by_cases h : s.rangeOff + s.rangeLen ≤ 256
  · rw [onRange_in s t h]
    exact onRange_in (s.withHost host) _ h
  · have h' : s.rangeOff + s.rangeLen > 256 := Nat.lt_of_not_le h
    rw [onRange_out s t h']
    exact onRange_out (s.withHost host) _ h'

theorem encodeEffect_withHost (s : State) (host : HostAgent) :
    encodeEffect (s.withHost host) = (encodeEffect s).withHost host := by
  have hframe : frameToWrite (s.withHost host) = frameToWrite s := rfl
  unfold encodeEffect
  rw [hframe]
  cases frameToWrite s with
  | none => rfl
  | some out => rfl

theorem settingOf_withHost (s : State) (host : HostAgent) (f : Selection → Word) (r : Byte) :
    settingOf (s.withHost host) f r = (settingOf s f r).withHost host := by
  have hsel : (s.withHost host).ce.sel = s.ce.sel := rfl
  have hask : (s.withHost host).regionPort.askRateParams (s.withHost host).ce.region r =
      s.regionPort.askRateParams s.ce.region r := rfl
  unfold settingOf resolveSetting
  rw [hsel, hask]
  cases s.ce.sel with
  | none => rfl
  | some sel => cases s.regionPort.askRateParams s.ce.region r with
    | none => rfl
    | some c => rfl

theorem timeOnAirEffect_withHost (s : State) (host : HostAgent) :
    timeOnAirEffect (s.withHost host) = (timeOnAirEffect s).withHost host := by
  by_cases h : (sfOk s.sfArg && bwOk s.bwArg) = true
  · rw [timeOnAirEffect, timeOnAirEffect, if_pos h]
    exact if_pos h
  · rw [timeOnAirEffect, timeOnAirEffect, if_neg h]
    exact if_neg h

theorem decipherPayload_withHost (t : BitVec 3) (len : Nat) (s : State) (host : HostAgent) :
    decipherPayload t len (s.withHost host) = (decipherPayload t len s).withHost host := by
  by_cases h : s.wirePort len = true
  · rw [decipherPayload, decipherPayload, if_pos h]
    exact if_pos h
  · rw [decipherPayload, decipherPayload, if_neg h]
    exact if_neg h

theorem decodeFrame_withHost (s : State) (host : HostAgent) :
    decodeFrame s.frameLen (s.withHost host) =
      ((decodeFrame s.frameLen s).1.withHost host, (decodeFrame s.frameLen s).2) := by
  by_cases hbad : BadFrame s
  · rw [decodeFrame_bad s hbad]
    exact decodeFrame_bad (s.withHost host) hbad
  obtain ht | ht | ht : s.wireType = 0 ∨ s.wireType = 1 ∨ 2 ≤ s.wireType.toNat := by bv_omega
  · obtain ⟨hlen, hparse⟩ := decodeFrame_joinRequest s hbad ht
    rw [hparse, decJoinRequest, if_pos hlen]
    exact (decodeFrame_joinRequest (s.withHost host) hbad ht).2.trans (if_pos hlen)
  · obtain ⟨hlen, hparse⟩ := decodeFrame_joinAccept s hbad ht
    rw [hparse, decJoinAccept, if_pos hlen]
    exact (decodeFrame_joinAccept (s.withHost host) hbad ht).2.trans (if_pos hlen)
  · obtain ⟨hlen, hparse⟩ := decodeFrame_data s hbad ht
    rw [hparse, decData_of_le hlen]
    refine ((decodeFrame_data (s.withHost host) hbad ht).2.trans (decData_of_le (s := s.withHost host) hlen _)).trans ?_
    rw [decipherPayload_withHost]
    rfl

/-- A command does the same whatever the host is (10_state.md rule R30). -/
theorem exec_withHost {i : Instr} {s t : State} (h : exec i s = .next t) (host : HostAgent) :
    exec i (s.withHost host) = .next (t.withHost host) := by
  cases i with
  | encode => cases h; exact congrArg Host.Outcome.next (encodeEffect_withHost s host)
  | decode =>
    cases h
    exact congrArg (fun r => Host.Outcome.next (r.1.zeroizeKeys.finish r.2)) (decodeFrame_withHost s host)
  | aesEnc ksel | aesDec ksel => cases h; exact congrArg Host.Outcome.next (withKey_withHost ksel s host fun _ => rfl)
  | ctrXor ksel | cmac ksel | micData ksel =>
    cases h; exact congrArg Host.Outcome.next (withKey_withHost ksel s host fun _ => onRange_withHost rfl)
  | ceTxSetting | ceRx1Setting | ceRx2Setting =>
    cases h; exact congrArg Host.Outcome.next (settingOf_withHost s host _ _)
  | timeOnAir => cases h; exact congrArg Host.Outcome.next (timeOnAirEffect_withHost s host)
  | nop | phySize | isUpstream | ceInit | ceAdd _ | ceRemove _ | ceMask _ | ceUnmask _ | ceSetRatePower
  | ceWaitTime | ceRegisterTx | ceCapacity => cases h; rfl

theorem engineStep_withHost {s t : State} (h : engineStep s = .next t) (host : HostAgent) :
    engineStep (s.withHost host) = .next (t.withHost host) := by
  obtain ⟨i, hi, hexec⟩ | ⟨r, hr, rfl⟩ := engineStep_cases s t h
  · exact (engineStep_of_command (s := s.withHost host) hi).trans (exec_withHost hexec host)
  · simp only [engineStep, State.withHost, hr]
    rfl

/-- An engine step ends the pending command and leaves the host (rules R344 and R360). -/
theorem engineStep_ends {s t : State} (h : engineStep s = .next t) : t.busy = false ∧ t.host = s.host := by
  obtain ⟨i, -, hexec⟩ | ⟨-, -, rfl⟩ := engineStep_cases s t h
  · obtain ⟨_, ⟨_, hbusy, _⟩, hframe⟩ := (EndsWith.of_exec hexec).ended
    exact ⟨hbusy, hframe.host⟩
  · exact ⟨rfl, rfl⟩

/-! ## The WAIT -/

/-- A poll of WAIT goes on exactly when no command is pending (30_encoding.md rule R140). -/
theorem hostLine_wait (s : State) : hostLine waitLine s = .next (if s.busy then s else s.nextLine) := by
  have hread : s.readAt (BitVec.ofNat 12 Reg.status.offset).toNat = s.statusWord := rfl
  have hbus : hostLine waitLine s = .next (if s.readAt (BitVec.ofNat 12 Reg.status.offset).toNat &&& 1 = 0
      then s.nextLine else s) := onBus_ok (by decide) _
  rw [hbus, hread, and_one_eq_ite, s.statusWord_bits.1]
  cases s.busy <;> rfl

theorem run_succ {s t : State} (h : step s = .next t) (n : Nat) :
    Host.Core.run core (n + 1) s = Host.Core.run core n t := by
  simp only [Host.Core.run, show core.step s = .next t from h]

/-- What a run of `n` steps from a pending command at a WAIT has to reach: the program past the WAIT, the block as
the engine step left it in `t`. -/
def WaitEnds (s t : State) (rest : List HostLine) (n : Nat) : Prop :=
  ∃ u, Host.Core.run core n s = .next u ∧ u.host.program = rest ∧ u.host.received = s.host.received ∧
    u = { t with host := u.host }

/-- On the engine's turn the WAIT ends in two steps: the engine's and the poll. -/
theorem waitEnds_of_engine {s t : State} {rest : List HostLine} (hbusy : s.busy = true)
    (hprog : s.host.program = waitLine :: rest) (ht : engineStep s = .next t)
    (hturn : s.pendingTurn = .engine) : WaitEnds s t rest 2 := by
  have hend : t.busy = false := (engineStep_ends ht).1
  have hstep : step s = .next (t.withHost s.nextTurn.host) :=
    (step_of_engine hbusy hturn).trans (engineStep_withHost ht s.nextTurn.host)
  have hline : (t.withHost s.nextTurn.host).host.program.head? = some waitLine := congrArg List.head? hprog
  have hpoll : step (t.withHost s.nextTurn.host) = .next (t.withHost s.nextTurn.host).nextLine := by
    have hidle : (t.withHost s.nextTurn.host).busy = false := hend
    rw [step_of_idle hidle, hostStep_of_line hline, hostLine_wait, hidle]
    rfl
  refine ⟨_, (run_succ hstep 1).trans (run_succ hpoll 0), ?_, rfl, rfl⟩
  exact congrArg List.tail hprog

/-- On the host's turn the WAIT polls, and only the turn list moves on. -/
theorem waitEnds_of_host {s t : State} {host : HostAgent} {rest : List HostLine} {n : Nat} (hbusy : s.busy = true)
    (hprog : s.host.program = waitLine :: rest) (hturn : s.host.turns.head? = some .host)
    (h : WaitEnds s.nextTurn (t.withHost host) rest n) : WaitEnds s t rest (n + 1) := by
  have hline : s.nextTurn.host.program.head? = some waitLine := congrArg List.head? hprog
  have hpoll : step s = .next s.nextTurn := by
    rw [step_of_host hbusy (State.pendingTurn_host hturn hline), hostStep_of_line hline, hostLine_wait]
    exact congrArg Host.Outcome.next (if_pos hbusy)
  obtain ⟨u, hrun, hu, hrec, heq⟩ := h
  exact ⟨u, (run_succ hpoll n).trans hrun, hu, hrec, heq⟩

/-- Settles O60, by induction on the turn list: a turn of the host only polls, and the engine's turn ends the
WAIT. -/
theorem waitSynchronisesWithTheEngine : Obligations.WaitSynchronisesWithTheEngine := by
  suffices h : ∀ (turns : List Agent) (s t : State) (rest : List HostLine), s.host.turns = turns →
      s.busy = true → s.host.program = waitLine :: rest → engineStep s = .next t →
      ∃ n ≤ turns.length + 2, WaitEnds s t rest n by
    intro s t rest hbusy hprog ht
    obtain ⟨n, hn, u, hu⟩ := h _ s t rest rfl hbusy hprog ht
    exact ⟨n, u, hn, hu⟩
  intro turns
  induction turns with
  | nil =>
    intro s t rest hturns hbusy hprog ht
    exact ⟨2, by simp, waitEnds_of_engine hbusy hprog ht (State.pendingTurn_engine (by simp [hturns]))⟩
  | cons a turns ih =>
    intro s t rest hturns hbusy hprog ht
    cases a with
    | engine =>
      exact ⟨2, by simp, waitEnds_of_engine hbusy hprog ht (State.pendingTurn_engine (by simp [hturns]))⟩
    | host =>
      obtain ⟨n, hn, h⟩ := ih s.nextTurn _ rest (congrArg List.tail hturns) hbusy hprog
        (engineStep_withHost ht s.nextTurn.host)
      exact ⟨n + 1, by rw [List.length_cons]; omega,
        waitEnds_of_host hbusy hprog (by rw [hturns, List.head?_cons]) h⟩

end Sys2Proof.Machine
